-- ==== Sys2Proof/Word.lean ====
section
/-! DEFINITION. The plain data words of BIGN-CTL: bytes, byte strings and 32-bit bus words
(spec/00_scope.md R13). The codecs over them stand in Machine/Operands.lean. -/

namespace Sys2Proof

/-- A byte: 8 bits, numbered 7 down to 0 (00_scope.md R13). -/
abbrev Byte := BitVec 8

/-- A byte string `b[0], b[1], …` in order (00_scope.md R13). -/
abbrev Bytes := List Byte

/-- A 32-bit register or bus data word (20_memory.md R41). -/
abbrev Word := BitVec 32

end Sys2Proof
end

