-- ==== Sys2Proof/Config.lean ====
section
/-! DEFINITION. The implementation parameters of spec/00_scope.md R6 to R12 and the free values.

The OPEN parameters are opaque constants without a body: nothing in Lean can prove a value of one.
The invariants and laws that a WELL-FORMED configuration satisfies (R6 to R10, 40_primitives.md R92)
are fields of the parameters' types, so a configuration that breaks one does not exist here: "the model
gives it no runs" (60_exceptions.md R142; DESIGN CHOICE, log entry 1). `exampleCurve` shows that well-formed configurations exist. -/

namespace Sys2Proof

/-- The three curves (00_scope.md R6, 30_encoding.md R60). Curve code 3 names none of them. -/
inductive CurveId where
  | bign128 | bign192 | bign256
  deriving DecidableEq, Repr

/-- `L`, the byte size of one field or scalar element (00_scope.md R6). -/
def CurveId.len : CurveId → Nat
  | .bign128 => 32
  | .bign192 => 48
  | .bign256 => 64

/-- `H = L/2`, the byte length of S0 (00_scope.md R154). -/
def CurveId.half (c : CurveId) : Nat := c.len / 2

/-- A point of the collaborator's abstract point type (00_scope.md R10): the distinguished identity `O`,
or a handle whose meaning is the collaborator's own.
DESIGN CHOICE (log entry 3): an abstract type is carried as plain data by handles. -/
inductive Pt where
  | infinity
  | finite (handle : Nat)
  deriving DecidableEq, Repr

/-- `s·P`, the scalar multiple, from the group addition (00_scope.md R15). -/
def scalarMul (add : Pt → Pt → Pt) : Nat → Pt → Pt
  | 0, _ => .infinity
  | s + 1, P => add (scalarMul add s P) P

/-- One record of the parameter CURVE with its three invariants (00_scope.md R4, R6). -/
structure CurveRecord (c : CurveId) where
  /-- field prime -/
  p : Nat
  /-- group order -/
  n : Nat
  /-- Weierstrass coefficients; used nowhere by the block -/
  a : Nat
  b : Nat
  /-- base-point affine coordinates -/
  gx : Nat
  gy : Nat
  /-- cofactor; used nowhere by the block -/
  h : Nat
  /-- object identifiers; used nowhere by the block -/
  oids : List Bytes
  p_prime : p.Prime
  /-- invariant (i): L is the minimal byte count holding any value below `p` and below `n` -/
  size_ge : 256 ^ (c.len - 1) ≤ max p n - 1
  size_lt : max p n - 1 < 256 ^ c.len
  /-- invariant (ii), first half; that `n` is the order of the base point is `CurveGroup.base_order` -/
  n_prime : n.Prime
  /-- invariant (iii) -/
  n_large : 2 ^ (8 * c.half + 1) < n
  /-- the one number the source gives (R4): `Gx = 0` for BIGN128 -/
  gx_bign128 : c = .bign128 → gx = 0

/-- The CurveGroup collaborator of one curve (00_scope.md R10) with the laws of 40_primitives.md R92.
The scalar-field operations are arithmetic mod `n` and stand in Machine/CurvePort.lean. Log entry 10. -/
structure CurveGroup (c : CurveId) (r : CurveRecord c) where
  base : Pt
  add : Pt → Pt → Pt
  neg : Pt → Pt
  mul : Pt → Nat → Pt
  /-- CG_ACCEPTS, the OPEN scalar-acceptance predicate -/
  accepts : Nat → Bool
  /-- CG_VALID, the OPEN validity predicate. Of the two conditions of R86, the subgroup is the law CG_SUBGROUP; that a
  valid pair satisfies the curve equation is no law of R92 and none here (DESIGN CHOICE, log entry 24). -/
  valid : Nat → Nat → Bool
  fromAffine : Nat → Nat → Pt
  toAffine : Pt → Nat × Nat
  /-- CG_ADD_LAW -/
  add_comm : ∀ P Q, add P Q = add Q P
  add_assoc : ∀ P Q R, add (add P Q) R = add P (add Q R)
  infinity_add : ∀ P, add .infinity P = P
  add_neg : ∀ P, add P (neg P) = .infinity
  /-- CG_ORDER -/
  base_ne : base ≠ .infinity
  base_order : scalarMul add r.n base = .infinity
  /-- CG_MUL_LAW -/
  mul_law : ∀ P s, accepts s = true → mul P s = scalarMul add s P
  /-- CG_AFFINE_LAW -/
  to_from : ∀ x y, valid x y = true → toAffine (fromAffine x y) = (x, y)
  valid_to : ∀ k, scalarMul add k base ≠ .infinity →
    valid (toAffine (scalarMul add k base)).1 (toAffine (scalarMul add k base)).2 = true
  /-- DEDUCED (log entry 4): R86 returns "the point (x, y)" and R88 "the affine coordinates of P", so on the
  subgroup of the base point the coordinates determine the point. -/
  from_to : ∀ k, scalarMul add k base ≠ .infinity →
    fromAffine (toAffine (scalarMul add k base)).1 (toAffine (scalarMul add k base)).2 = scalarMul add k base
  /-- CG_SUBGROUP: a valid point is not `O` and has order `n` -/
  subgroup : ∀ x y, valid x y = true →
    fromAffine x y ≠ .infinity ∧ scalarMul add r.n (fromAffine x y) = .infinity
  /-- R83: the base point is the point (Gx, Gy) -/
  base_affine : toAffine base = (r.gx, r.gy)
  /-- R88: the coordinates of a point other than `O` lie in [0, p) -/
  coord_lt : ∀ P, P ≠ .infinity → (toAffine P).1 < r.p ∧ (toAffine P).2 < r.p

/-! ### A well-formed configuration exists

A synthetic example, of no cryptographic meaning: the group is `ℤ/n × (ℕ, xor)`, numbered by the naturals, and
the coordinates of the multiple `k·G` are `(k - 1, 0)`. It is the witness that the laws above can be met
together; no definition of the machine uses it. -/

/-- `x ^ (2 ^ k) mod n`, by repeated squaring. -/
def squareIter (n x : Nat) : Nat → Nat
  | 0 => x % n
  | k + 1 => squareIter n x k * squareIter n x k % n

theorem squareIter_cast (n x k : Nat) : (squareIter n x k : ZMod n) = (x : ZMod n) ^ 2 ^ k := by
  induction k with
  | zero => simp [squareIter]
  | succ k ih => simp [squareIter, ih, pow_succ, pow_mul]

/-- Lucas's test for `q·2^m + 1` with `q` prime. -/
theorem proth_prime {q m n a : Nat} (hq : q.Prime) (hm : 0 < m) (hn : n = q * 2 ^ m + 1)
    (h1 : squareIter n (a ^ q) m = 1) (h2 : squareIter n (a ^ q) (m - 1) = n - 1)
    (h3 : squareIter n a m ≠ 1) : n.Prime := by
  have hn2 : 2 < n := by
    have := hq.two_le
    have : 2 ^ 1 ≤ 2 ^ m := Nat.pow_le_pow_right (by norm_num) hm
    nlinarith
  have : NeZero n := ⟨by omega⟩
  have : Fact (1 < n) := ⟨by omega⟩
  have hsub : n - 1 = q * 2 ^ m := by omega
  refine lucas_primality n (a : ZMod n) ?_ ?_
  · have := squareIter_cast n (a ^ q) m
    rw [h1] at this
    rw [hsub, pow_mul]; simpa using this.symm
  · intro r hr hdvd
    rw [hsub] at hdvd ⊢
    rcases (Nat.Prime.dvd_mul hr).1 hdvd with h | h
    · obtain rfl := (Nat.prime_dvd_prime_iff_eq hr hq).1 h
      rw [Nat.mul_div_cancel_left _ hr.pos]
      have := squareIter_cast n a m
      rw [← this]
      intro h4
      have hlt : squareIter n a m < n := by
        cases m with
        | zero => omega
        | succ m => exact Nat.mod_lt _ (by omega)
      have : ((squareIter n a m : ZMod n)).val = (1 : ZMod n).val := by rw [h4]
      rw [ZMod.val_natCast_of_lt hlt, ZMod.val_one] at this
      exact h3 this
    · obtain rfl := (Nat.prime_dvd_prime_iff_eq hr Nat.prime_two).1 (hr.dvd_of_dvd_pow h)
      obtain ⟨j, rfl⟩ := Nat.exists_eq_succ_of_ne_zero hm.ne'
      have he : q * 2 ^ j.succ / 2 = q * 2 ^ j := by
        rw [pow_succ, ← mul_assoc, Nat.mul_div_cancel _ (by norm_num)]
      rw [he, pow_mul]
      have := squareIter_cast n (a ^ q) j
      simp only [Nat.succ_eq_add_one, Nat.add_sub_cancel] at h2
      rw [h2] at this
      have h5 : ((a : ZMod n) ^ q) ^ 2 ^ j = -1 := by
        rw [Nat.cast_sub (by omega)] at this
        simpa using this.symm
      rw [h5]
      intro h6
      have h7 : (2 : ZMod n) = 0 := by
        have : (1 : ZMod n) + 1 = 0 := by nth_rewrite 1 [← h6]; ring
        rw [← this]; norm_num
      have h8 : ((2 : Nat) : ZMod n) = 0 := by simpa using h7
      rw [ZMod.natCast_eq_zero_iff] at h8
      exact absurd (Nat.le_of_dvd (by norm_num) h8) (by omega)

/-- A prime of the size each curve needs. -/
def examplePrime : CurveId → Nat
  | .bign128 => 29 * 2 ^ 245 + 1
  | .bign192 => 83 * 2 ^ 373 + 1
  | .bign256 => 127 * 2 ^ 504 + 1

theorem examplePrime_prime (c : CurveId) : (examplePrime c).Prime := by
  cases c
  · exact proth_prime (q := 29) (m := 245) (a := 3) (by norm_num) (by norm_num) rfl
      (by decide +kernel) (by decide +kernel) (by decide +kernel)
  · exact proth_prime (q := 83) (m := 373) (a := 3) (by norm_num) (by norm_num) rfl
      (by decide +kernel) (by decide +kernel) (by decide +kernel)
  · exact proth_prime (q := 127) (m := 504) (a := 3) (by norm_num) (by norm_num) rfl
      (by decide +kernel) (by decide +kernel) (by decide +kernel)

/-- The example's curve record: field prime and group order are the same prime. -/
def exampleRecord (c : CurveId) : CurveRecord c where
  p := examplePrime c
  n := examplePrime c
  a := 0
  b := 0
  gx := 0
  gy := 0
  h := 1
  oids := []
  p_prime := examplePrime_prime c
  size_ge := by cases c <;> decide +kernel
  size_lt := by cases c <;> decide +kernel
  n_prime := examplePrime_prime c
  n_large := by cases c <;> decide +kernel
  gx_bign128 := fun _ => rfl

/-- The number of a point in the example. -/
def Pt.number : Pt → Nat
  | .infinity => 0
  | .finite k => k + 1

/-- The point of a number in the example. -/
def Pt.ofNumber : Nat → Pt
  | 0 => .infinity
  | k + 1 => .finite k

@[simp] theorem Pt.ofNumber_zero : Pt.ofNumber 0 = .infinity := rfl

@[simp] theorem Pt.ofNumber_succ (k : Nat) : Pt.ofNumber (k + 1) = .finite k := rfl

theorem Pt.ofNumber_one : Pt.ofNumber 1 = .finite 0 := rfl

@[simp] theorem Pt.number_ofNumber (k : Nat) : (Pt.ofNumber k).number = k := by cases k <;> rfl

@[simp] theorem Pt.ofNumber_number (P : Pt) : Pt.ofNumber P.number = P := by cases P <;> rfl

theorem Pt.number_eq_iff (P Q : Pt) : P = Q ↔ P.number = Q.number :=
  ⟨fun h => h ▸ rfl, fun h => by rw [← Pt.ofNumber_number P, h, Pt.ofNumber_number]⟩

/-- The example's addition: mod `n` on the low digit to base `n`, xor on the rest. -/
def exampleAdd (n : Nat) (P Q : Pt) : Pt :=
  .ofNumber ((P.number % n + Q.number % n) % n + n * ((P.number / n) ^^^ (Q.number / n)))

/-- The example's inverse. -/
def exampleNeg (n : Nat) (P : Pt) : Pt :=
  .ofNumber ((n - P.number % n) % n + n * (P.number / n))

theorem digit_mod {n : Nat} (x y : Nat) (hx : x < n) : (x + n * y) % n = x := by
  rw [Nat.add_mul_mod_self_left, Nat.mod_eq_of_lt hx]

theorem digit_div {n : Nat} (x y : Nat) (hx : x < n) : (x + n * y) / n = y := by
  rw [Nat.add_mul_div_left _ _ (Nat.zero_lt_of_lt hx), Nat.div_eq_of_lt hx, Nat.zero_add]

section
variable {n : Nat}

theorem point_ext (P Q : Pt) (h1 : P.number % n = Q.number % n) (h2 : P.number / n = Q.number / n) :
    P = Q := by
  rw [Pt.number_eq_iff, ← Nat.mod_add_div P.number n, h1, h2, Nat.mod_add_div]

variable (hn : 1 < n)
include hn

theorem exampleAdd_mod (P Q : Pt) :
    (exampleAdd n P Q).number % n = (P.number % n + Q.number % n) % n := by
  rw [exampleAdd, Pt.number_ofNumber, digit_mod _ _ (Nat.mod_lt _ (by omega))]

theorem exampleAdd_div (P Q : Pt) :
    (exampleAdd n P Q).number / n = (P.number / n) ^^^ (Q.number / n) := by
  rw [exampleAdd, Pt.number_ofNumber, digit_div _ _ (Nat.mod_lt _ (by omega))]

theorem exampleAdd_assoc (P Q R : Pt) :
    exampleAdd n (exampleAdd n P Q) R = exampleAdd n P (exampleAdd n Q R) := by
  apply point_ext (n := n)
  · simp only [exampleAdd_mod hn, Nat.mod_add_mod, Nat.add_mod_mod, Nat.add_assoc]
  · simp only [exampleAdd_div hn, Nat.xor_assoc]

theorem example_infinity_add (P : Pt) : exampleAdd n .infinity P = P := by
  apply point_ext (n := n)
  · rw [exampleAdd_mod hn]; simp [Pt.number]
  · rw [exampleAdd_div hn]; simp [Pt.number]

theorem example_add_neg (P : Pt) : exampleAdd n P (exampleNeg n P) = .infinity := by
  have hlt : P.number % n < n := Nat.mod_lt _ (by omega)
  apply point_ext (n := n)
  · rw [exampleAdd_mod hn, exampleNeg, Pt.number_ofNumber, digit_mod _ _ (Nat.mod_lt _ (by omega))]
    rw [Nat.add_mod_mod, show P.number % n + (n - P.number % n) = n by omega, Nat.mod_self]
    rfl
  · rw [exampleAdd_div hn, exampleNeg, Pt.number_ofNumber, digit_div _ _ (Nat.mod_lt _ (by omega))]
    simp [Pt.number]

theorem example_scalarMul (s v : Nat) (hv : v < n) :
    scalarMul (exampleAdd n) s (.ofNumber v) = .ofNumber (s * v % n) := by
  induction s with
  | zero => simp [scalarMul, Pt.ofNumber]
  | succ s ih =>
    have hlt : s * v % n < n := Nat.mod_lt _ (by omega)
    rw [scalarMul, ih]
    apply point_ext (n := n)
    · rw [exampleAdd_mod hn]; simp [Nat.add_mod, Nat.add_mul]
    · rw [exampleAdd_div hn]
      simp [Nat.div_eq_of_lt hlt, Nat.div_eq_of_lt hv, Nat.div_eq_of_lt (Nat.mod_lt ((s + 1) * v) (show n > 0 by omega))]

end

/-- The example's CurveGroup; it accepts every scalar. -/
def exampleGroup (c : CurveId) : CurveGroup c (exampleRecord c) :=
  have hn : 1 < examplePrime c := (examplePrime_prime c).one_lt
  { base := .finite 0
    add := exampleAdd (examplePrime c)
    neg := exampleNeg (examplePrime c)
    mul := fun P s => scalarMul (exampleAdd (examplePrime c)) s P
    accepts := fun _ => true
    valid := fun x y => decide (y = 0 ∧ x + 1 < examplePrime c)
    fromAffine := fun x _ => .finite x
    toAffine := fun P => ((P.number - 1) % examplePrime c, 0)
    add_comm := fun P Q => by simp only [exampleAdd, Nat.add_comm, Nat.xor_comm]
    add_assoc := exampleAdd_assoc hn
    infinity_add := example_infinity_add hn
    add_neg := example_add_neg hn
    base_ne := by simp
    base_order := by
      have h := example_scalarMul hn (examplePrime c) 1 hn
      rwa [Nat.mul_one, Nat.mod_self] at h
    mul_law := fun _ _ _ => rfl
    to_from := fun x y h => by
      have h := of_decide_eq_true h
      simp [Pt.number, h.1, Nat.mod_eq_of_lt (show x < examplePrime c by omega)]
    valid_to := fun k h => by
      have hk := example_scalarMul hn k 1 hn
      have hlt : k % examplePrime c < examplePrime c := Nat.mod_lt _ (by omega)
      rw [Nat.mul_one, Pt.ofNumber_one] at hk
      rw [hk] at h ⊢
      have h0 : k % examplePrime c ≠ 0 := fun h0 => h (by rw [h0, Pt.ofNumber_zero])
      simp only [Pt.number_ofNumber, decide_eq_true_eq]
      rw [Nat.mod_eq_of_lt (show k % examplePrime c - 1 < examplePrime c by omega)]
      exact ⟨trivial, by omega⟩
    from_to := fun k h => by
      have hk := example_scalarMul hn k 1 hn
      have hlt : k % examplePrime c < examplePrime c := Nat.mod_lt _ (by omega)
      rw [Nat.mul_one, Pt.ofNumber_one] at hk
      rw [hk] at h ⊢
      have h0 : k % examplePrime c ≠ 0 := fun h0 => h (by rw [h0, Pt.ofNumber_zero])
      simp only [Pt.number_ofNumber]
      rw [Nat.mod_eq_of_lt (show k % examplePrime c - 1 < examplePrime c by omega)]
      obtain ⟨j, hj⟩ := Nat.exists_eq_succ_of_ne_zero h0
      rw [hj]; rfl
    subgroup := fun x y h => by
      have h := of_decide_eq_true h
      refine ⟨by simp, ?_⟩
      have := example_scalarMul hn (examplePrime c) (x + 1) h.2
      rwa [Nat.mul_mod_right] at this
    base_affine := by simp [Pt.number, exampleRecord]
    coord_lt := fun P _ => ⟨Nat.mod_lt _ (by omega), by simp [exampleRecord]; omega⟩ }

/-- A well-formed curve parameter: a record and a CurveGroup that meets the laws over it. -/
structure Curve (c : CurveId) where
  params : (r : CurveRecord c) × CurveGroup c r := ⟨exampleRecord c, exampleGroup c⟩
  deriving Inhabited

/-- The record of a curve. -/
def Curve.record {c : CurveId} (v : Curve c) : CurveRecord c := v.params.1

/-- The collaborator of a curve. -/
def Curve.group {c : CurveId} (v : Curve c) : CurveGroup c v.record := v.params.2

/-- The witness that a well-formed curve parameter exists. -/
def exampleCurve (c : CurveId) : Curve c := ⟨⟨exampleRecord c, exampleGroup c⟩⟩

/-! ### The OPEN parameters -/

/-- CURVE and CG (00_scope.md R6, R10). -/
opaque Config.curve : (c : CurveId) → Curve c

/-- `n`, the group order of a curve (00_scope.md R6). -/
def Config.order (c : CurveId) : Nat := (Config.curve c).record.n

/-- `HLEN - 32` (00_scope.md R7). -/
opaque Config.hlenExcess : Nat

/-- `HLEN`, the hash's fixed output length; at least 32 in a well-formed configuration (00_scope.md R7). -/
def Config.hlen : Nat := 32 + Config.hlenExcess

/-- The DigestEngine's hash as a function into strings of the fixed length (00_scope.md R7). -/
opaque Config.hashDigits : Bytes → Fin Config.hlen → Byte

/-- HASH(m) (00_scope.md R7). -/
def Config.hash (m : Bytes) : Bytes := List.ofFn (Config.hashDigits m)

/-- The keyed stretch as a bijection on the byte strings of each length: STRETCH_LEN and STRETCH_BIJ hold by its type
(00_scope.md R8; log entry 11). -/
opaque Config.stretchPerm : (key : Bytes) → (m : Nat) → Equiv.Perm (Fin m → Byte)

/-- STRETCH(key, b) (00_scope.md R8). -/
def Config.stretch (key b : Bytes) : Bytes := List.ofFn (Config.stretchPerm key b.length b.get)

/-- `|DEFAULT_OID| - 1`: the identifier has 1 to 32 bytes (00_scope.md R9). -/
opaque Config.defaultOidTail : Fin 32

/-- The bytes of DEFAULT_OID (00_scope.md R9). -/
opaque Config.defaultOidDigits : Fin (Config.defaultOidTail.val + 1) → Byte

/-- DEFAULT_OID (00_scope.md R9). -/
def Config.defaultOid : Bytes := List.ofFn Config.defaultOidDigits

/-- The number of the 4 KiB page the window stands at (00_scope.md R12). -/
opaque Config.basePage : Nat

/-- BASE: 4 KiB aligned by its form (00_scope.md R12). -/
def Config.base : Nat := 4096 * Config.basePage

/-! ### Free values -/

/-- ENTROPY: the byte string of the `k`-th draw, of the length asked for, under no law (00_scope.md R11,
93_implementation_defined.md row 13; log entry 19). -/
opaque Config.entropyDraw : (k : Nat) → (m : Nat) → Fin m → Byte

/-- What a host read of a buffer byte without the written mark returns: an unconstrained draw (10_state.md R32), at an
epoch and an offset. The epoch stands still between two reads with no step in between (20_memory.md R46; DESIGN CHOICE, log entry 6). -/
opaque Config.unwrittenByte : (epoch : Nat) → (offset : Nat) → Byte

end Sys2Proof
end

