-- ==== Sys2Proof/Syntax.lean ====
section
/-! DEFINITION. The transactions of BIGN-CTL (spec/30_encoding.md R58) and `Instr`, one constructor for each row of
spec/opcode_table.json: eleven host command words and twelve port requests. -/

namespace Sys2Proof

/-- The three collaborator ports (20_memory.md R39, 40_primitives.md R82). -/
inductive Port where
  | curveGroup | digestEngine | entropy
  deriving DecidableEq, Repr

/-- One operand of a port request: an abstract value, carried exactly (30_encoding.md R58). -/
inductive Operand where
  | nat (x : Nat)
  | bytes (b : Bytes)
  | point (P : Pt)
  deriving DecidableEq, Repr

/-- Format PORT_REQ: the port, the 6-bit word (curve code in bits 5:4, OP in bits 3:0) and the operand list
(30_encoding.md R58). -/
structure PortReq where
  port : Port
  word : BitVec 6
  operands : List Operand
  deriving DecidableEq, Repr

/-- The transactions that carry a row of the opcode table (30_encoding.md R58): the data word of a 4-byte write to CTRL,
with the value of STATUS.BUSY that selects between its two decodings (R62, R68); the data word of a 4-byte write to
STATUS; a port request. -/
inductive Transaction where
  | ctrlWord (busy : Bool) (w : Word)
  | statusWord (w : Word)
  | portReq (r : PortReq)
  deriving DecidableEq, Repr

/-- The fields of a CTRL word beside START, ABORT and CMD (10_state.md R20). -/
structure CtrlFields where
  curve : BitVec 2
  mode : Bool
  ksup : Bool
  oidsel : Bool
  ie : Bool
  deriving DecidableEq, Repr

/-- The rows of spec/opcode_table.json. -/
inductive Instr where
  /-- PUBKEY: CTRL word, CMD = 1, START = 1 (41_pubkey.md R97) -/
  | pubkey (f : CtrlFields)
  /-- GENK: CMD = 2 (42_genk.md R107) -/
  | genk (f : CtrlFields)
  /-- SIGN: CMD = 3 (43_sign.md R116) -/
  | sign (f : CtrlFields)
  /-- VERIFY: CMD = 4 (44_verify.md R119) -/
  | verify (f : CtrlFields)
  /-- RESERVED_CMD_0, _5, _6, _7: START of a reserved CMD (45_control.md R129) -/
  | reservedCmd0 (f : CtrlFields)
  | reservedCmd5 (f : CtrlFields)
  | reservedCmd6 (f : CtrlFields)
  | reservedCmd7 (f : CtrlFields)
  /-- CFG: CTRL word with START = 0, written while idle (45_control.md R128) -/
  | cfg (cmd : BitVec 3) (f : CtrlFields)
  /-- ABORT: CTRL word with bit 1 set, written while busy (45_control.md R132) -/
  | abort (ie : Bool)
  /-- DONE_CLR: STATUS word with bit 1 set (45_control.md R133) -/
  | doneClr
  /-- CurveGroup requests (40_primitives.md R83 to R91) -/
  | cgBase (c : CurveId)
  | cgMul (c : CurveId) (P : Pt) (k : Nat)
  | cgAdd (c : CurveId) (P Q : Pt)
  | cgFromAffine (c : CurveId) (x y : Nat)
  | cgIsId (c : CurveId) (P : Pt)
  | cgToAffine (c : CurveId) (P : Pt)
  | cgFnAdd (c : CurveId) (a b : Nat)
  | cgFnSub (c : CurveId) (a b : Nat)
  | cgFnMul (c : CurveId) (a b : Nat)
  /-- DigestEngine requests (40_primitives.md R93, R94) -/
  | deHash (m : Bytes)
  | deStretch (key b : Bytes)
  /-- the entropy request (40_primitives.md R95) -/
  | entDraw (m : Nat)
  deriving DecidableEq, Repr

end Sys2Proof
end

