-- ==== Sys2Proof/WellFormed.lean ====
section
/-! DEFINITION. Which instructions are well formed: the operand conditions that spec/ states beside the encodings. A CTRL word
has none: every value of CMD and CURVE can be written (10_state.md R20), and the reserved ones are rejected at START. -/

namespace Sys2Proof

/-- `L` of one of the three curves (00_scope.md R6). -/
def isElementLength (m : Nat) : Bool := m = 32 || m = 48 || m = 64

/-- The operand conditions of the port requests: CG_TO_AFFINE takes `P ≠ O` (30_encoding.md R65); DE_STRETCH takes a key of
HLEN bytes and a candidate of L bytes (40_primitives.md R94); ENT_DRAW draws L bytes (R95). -/
def Instr.wellFormed : Instr → Bool
  | .pubkey _ | .genk _ | .sign _ | .verify _ => true
  | .reservedCmd0 _ | .reservedCmd5 _ | .reservedCmd6 _ | .reservedCmd7 _ => true
  | .cfg _ _ | .abort _ | .doneClr => true
  | .cgBase _ | .cgMul _ _ _ | .cgAdd _ _ _ | .cgFromAffine _ _ _ | .cgIsId _ _ => true
  | .cgToAffine _ P => P ≠ .infinity
  | .cgFnAdd _ _ _ | .cgFnSub _ _ _ | .cgFnMul _ _ _ => true
  | .deHash _ => true
  | .deStretch key b => isElementLength b.length && key.length = Config.hlen
  | .entDraw m => isElementLength m

end Sys2Proof
end

