-- ==== Sys2Proof/Decode.lean ====
section
/-! DEFINITION. The decoder of the three transaction formats, total and rejecting by name, and after it the encoder
(spec/30_encoding.md R58 to R62, R65 to R68, R71). -/

namespace Sys2Proof

/-- Why a transaction carries no row of the opcode table. -/
inductive DecodeError where
  /-- a CTRL word written while busy with bit 1 clear: only IE is stored (45_control.md R131) -/
  | busyWithoutAbort
  /-- a STATUS word with bit 1 clear: no effect (45_control.md R133) -/
  | statusWithoutClear
  /-- curve bits that name no curve, or that are not 0 on the other two ports (30_encoding.md R60, R66) -/
  | reservedCurve
  /-- a reserved port code, never issued (30_encoding.md R65, R66) -/
  | reservedOp
  /-- operands that are not of the types OP fixes (30_encoding.md R58) -/
  | operandTypes
  deriving DecidableEq, Repr

/-! ### CTRL words -/

/-- CMD, bits 4:2 (30_encoding.md R58). -/
def ctrlCmd (w : Word) : BitVec 3 := w.extractLsb' 2 3

/-- CURVE bits 6:5, MODE bit 7, KSUP bit 8, OIDSEL bit 9, IE bit 10 (30_encoding.md R58). -/
def ctrlFields (w : Word) : CtrlFields where
  curve := w.extractLsb' 5 2
  mode := w.getLsbD 7
  ksup := w.getLsbD 8
  oidsel := w.getLsbD 9
  ie := w.getLsbD 10

/-- The START row of a CMD value (30_encoding.md R59, R67). -/
def startRow (cmd : BitVec 3) (f : CtrlFields) : Instr :=
  match cmd.toNat with
  | 0 => .reservedCmd0 f
  | 1 => .pubkey f
  | 2 => .genk f
  | 3 => .sign f
  | 4 => .verify f
  | 5 => .reservedCmd5 f
  | 6 => .reservedCmd6 f
  | _ => .reservedCmd7 f

/-- A CTRL word: the idle decoding and the busy decoding (30_encoding.md R62, R71). -/
def decodeCtrl (busy : Bool) (w : Word) : Except DecodeError Instr :=
  if busy then
    if w.getLsbD 1 then .ok (.abort (w.getLsbD 10)) else .error .busyWithoutAbort
  else if w.getLsbD 0 then .ok (startRow (ctrlCmd w) (ctrlFields w))
  else .ok (.cfg (ctrlCmd w) (ctrlFields w))

/-- A STATUS word: only bit 1 has meaning (30_encoding.md R58). -/
def decodeStatus (w : Word) : Except DecodeError Instr :=
  if w.getLsbD 1 then .ok .doneClr else .error .statusWithoutClear

/-! ### Port requests -/

/-- The curve of a 2-bit curve code; 3 is reserved (30_encoding.md R60). -/
def curveOfCode (c : BitVec 2) : Option CurveId :=
  match c.toNat with
  | 0 => some .bign128
  | 1 => some .bign192
  | 2 => some .bign256
  | _ => none

/-- The 2-bit code of a curve (30_encoding.md R60). -/
def curveCode : CurveId → BitVec 2
  | .bign128 => 0
  | .bign192 => 1
  | .bign256 => 2

/-- OP, bits 3:0 of a request (30_encoding.md R58). -/
def reqOp (w : BitVec 6) : Nat := (w.extractLsb' 0 4).toNat

/-- The curve code, bits 5:4 of a request (30_encoding.md R58). -/
def reqCurve (w : BitVec 6) : BitVec 2 := w.extractLsb' 4 2

/-- The CurveGroup codes (30_encoding.md R65). -/
def decodeCurveGroup (c : CurveId) (op : Nat) (xs : List Operand) : Except DecodeError Instr :=
  match op, xs with
  | 0, [] => .ok (.cgBase c)
  | 1, [.point P, .nat k] => .ok (.cgMul c P k)
  | 2, [.point P, .point Q] => .ok (.cgAdd c P Q)
  | 3, [.nat x, .nat y] => .ok (.cgFromAffine c x y)
  | 4, [.point P] => .ok (.cgIsId c P)
  | 5, [.point P] => .ok (.cgToAffine c P)
  | 6, [.nat a, .nat b] => .ok (.cgFnAdd c a b)
  | 7, [.nat a, .nat b] => .ok (.cgFnSub c a b)
  | 8, [.nat a, .nat b] => .ok (.cgFnMul c a b)
  | op, _ => .error (if op ≤ 8 then .operandTypes else .reservedOp)

/-- The DigestEngine codes (30_encoding.md R66). -/
def decodeDigestEngine (op : Nat) (xs : List Operand) : Except DecodeError Instr :=
  match op, xs with
  | 0, [.bytes m] => .ok (.deHash m)
  | 1, [.bytes key, .bytes b] => .ok (.deStretch key b)
  | op, _ => .error (if op ≤ 1 then .operandTypes else .reservedOp)

/-- The entropy code (30_encoding.md R66). -/
def decodeEntropy (op : Nat) (xs : List Operand) : Except DecodeError Instr :=
  match op, xs with
  | 0, [.nat m] => .ok (.entDraw m)
  | op, _ => .error (if op = 0 then .operandTypes else .reservedOp)

/-- A port request. The same OP value is used on different ports, so the port decides (30_encoding.md R71); the curve bits
are 0 on the DigestEngine and entropy ports (R66). -/
def decodePort (r : PortReq) : Except DecodeError Instr :=
  match r.port with
  | .curveGroup =>
    match curveOfCode (reqCurve r.word) with
    | some c => decodeCurveGroup c (reqOp r.word) r.operands
    | none => .error .reservedCurve
  | .digestEngine =>
    if reqCurve r.word = 0 then decodeDigestEngine (reqOp r.word) r.operands else .error .reservedCurve
  | .entropy =>
    if reqCurve r.word = 0 then decodeEntropy (reqOp r.word) r.operands else .error .reservedCurve

/-- The decoder of a transaction. -/
def decode : Transaction → Except DecodeError Instr
  | .ctrlWord busy w => decodeCtrl busy w
  | .statusWord w => decodeStatus w
  | .portReq r => decodePort r

/-! ### The encoder -/

/-- A CTRL word from its fields, most significant first; the reserved bits 31:11 are 0 (30_encoding.md R58). -/
def ctrlWord (cmd : BitVec 3) (f : CtrlFields) (abort start : Bool) : Word :=
  0#21 ++ BitVec.ofBool f.ie ++ BitVec.ofBool f.oidsel ++ BitVec.ofBool f.ksup ++ BitVec.ofBool f.mode ++ f.curve ++ cmd
    ++ BitVec.ofBool abort ++ BitVec.ofBool start

/-- The word of a request: curve code, then OP (30_encoding.md R58). -/
def reqWord (c : BitVec 2) (op : BitVec 4) : BitVec 6 := c ++ op

/-- A CurveGroup request (30_encoding.md R65). -/
def curveGroupReq (c : CurveId) (op : BitVec 4) (xs : List Operand) : PortReq :=
  ⟨.curveGroup, reqWord (curveCode c) op, xs⟩

/-- A DigestEngine request (30_encoding.md R66). -/
def digestReq (op : BitVec 4) (xs : List Operand) : PortReq := ⟨.digestEngine, reqWord 0 op, xs⟩

/-- An entropy request (30_encoding.md R66). -/
def entropyReq (op : BitVec 4) (xs : List Operand) : PortReq := ⟨.entropy, reqWord 0 op, xs⟩

/-- The fields of a CTRL word whose bits 9:5 are 0. -/
def bareFields (ie : Bool) : CtrlFields := ⟨0, false, false, false, ie⟩

/-- The transaction that carries an instruction; every ignored bit is 0. -/
def encode : Instr → Transaction
  | .pubkey f => .ctrlWord false (ctrlWord 1 f false true)
  | .genk f => .ctrlWord false (ctrlWord 2 f false true)
  | .sign f => .ctrlWord false (ctrlWord 3 f false true)
  | .verify f => .ctrlWord false (ctrlWord 4 f false true)
  | .reservedCmd0 f => .ctrlWord false (ctrlWord 0 f false true)
  | .reservedCmd5 f => .ctrlWord false (ctrlWord 5 f false true)
  | .reservedCmd6 f => .ctrlWord false (ctrlWord 6 f false true)
  | .reservedCmd7 f => .ctrlWord false (ctrlWord 7 f false true)
  | .cfg cmd f => .ctrlWord false (ctrlWord cmd f false false)
  | .abort ie => .ctrlWord true (ctrlWord 0 (bareFields ie) true false)
  | .doneClr => .statusWord 2
  | .cgBase c => .portReq (curveGroupReq c 0 [])
  | .cgMul c P k => .portReq (curveGroupReq c 1 [.point P, .nat k])
  | .cgAdd c P Q => .portReq (curveGroupReq c 2 [.point P, .point Q])
  | .cgFromAffine c x y => .portReq (curveGroupReq c 3 [.nat x, .nat y])
  | .cgIsId c P => .portReq (curveGroupReq c 4 [.point P])
  | .cgToAffine c P => .portReq (curveGroupReq c 5 [.point P])
  | .cgFnAdd c a b => .portReq (curveGroupReq c 6 [.nat a, .nat b])
  | .cgFnSub c a b => .portReq (curveGroupReq c 7 [.nat a, .nat b])
  | .cgFnMul c a b => .portReq (curveGroupReq c 8 [.nat a, .nat b])
  | .deHash m => .portReq (digestReq 0 [.bytes m])
  | .deStretch key b => .portReq (digestReq 1 [.bytes key, .bytes b])
  | .entDraw m => .portReq (entropyReq 0 [.nat m])

/-! ### Words numbered as the opcode table numbers them -/

/-- The operands of a CurveGroup request that has only its 6-bit word: numbers 0 and the handle 0. -/
def zeroOperands (op : Nat) : List Operand :=
  match op with
  | 0 => []
  | 1 => [.point (.finite 0), .nat 0]
  | 2 => [.point (.finite 0), .point (.finite 0)]
  | 3 => [.nat 0, .nat 0]
  | 4 => [.point (.finite 0)]
  | 5 => [.point (.finite 0)]
  | 6 => [.nat 0, .nat 0]
  | 7 => [.nat 0, .nat 0]
  | 8 => [.nat 0, .nat 0]
  | _ => []

/-- The transaction of a bare number. The table's numbers name neither the register written, nor BUSY, nor the port, so
numbers collide; DESIGN CHOICE (log entry 12): 32 bits are a CTRL word, read as ABORT (busy) exactly when bit 0 is clear and bit
1 set; 8 bits are a CurveGroup request. -/
def tableTransaction (nbits w : Nat) : Option Transaction :=
  if nbits = 32 ∧ w < 2 ^ 32 then
    let v := BitVec.ofNat 32 w
    some (.ctrlWord (!v.getLsbD 0 && v.getLsbD 1) v)
  else if nbits = 8 ∧ w < 64 then
    let v := BitVec.ofNat 6 w
    some (.portReq ⟨.curveGroup, v, zeroOperands (reqOp v)⟩)
  else none

/-- The instruction the decoder reads from a number of the opcode table. -/
def decodeTableWord (nbits w : Nat) : Option Instr :=
  match tableTransaction nbits w with
  | some t =>
    match decode t with
    | .ok i => some i
    | .error _ => none
  | none => none

end Sys2Proof
end

