-- ==== Sys2Proof/Machine/State.lean ====
section
/-! DEFINITION. The state of BIGN-CTL as plain data, its value after reset, and the reasons a step can stop
(spec/10_state.md, spec/70_reset_and_hazards.md R157, R158). -/

namespace Sys2Proof.Machine

open Sys2Proof

/-! ### Registers -/

/-- The stored fields of CTRL; START and ABORT are actions and read 0, bits 31:11 read 0 (10_state.md R20). -/
structure Ctrl where
  cmd : BitVec 3
  curve : BitVec 2
  mode : Bool
  ksup : Bool
  oidsel : Bool
  ie : Bool
  deriving DecidableEq, Repr

/-- The values of STATUS.ERR; codes 8 to 15 are reserved and never produced (60_exceptions.md R140). -/
inductive ErrCode where
  | none | illegalCmd | badLength | invalidPoint | invalidScalar | infinity | nonceExhausted | aborted
  deriving DecidableEq, Repr

/-- The controller phase PHASE (10_state.md R33). -/
inductive Phase where
  | idle | run | loop | waitEnt
  deriving DecidableEq, Repr

/-! ### Hidden state -/

/-- Where the controller stands in the running command's rule: at its beginning, or at one of its `call`s (R97, R103, R104,
R112 to R115, R119). The spec implies this state where it says "the next `call` of the command's rule" (45_control.md R135). -/
inductive Site where
  | entry
  | pkBase | pkMul | pkIsId | pkToAffine
  | nonceHash | nonceStretch
  | sgDraw | sgBase | sgMul | sgIsId | sgToAffine | sgHash | sgAddW | sgMulD | sgSubE | sgSubT
  | vfFromAffine | vfAddE | vfAddW | vfBase | vfMulQ | vfMulG | vfAdd | vfIsId | vfToAffine | vfHash
  deriving DecidableEq, Repr

/-- The command scratch registers (10_state.md R35): KB, PT_A, PT_B, PT_R and the integers, and the rules' other local
names (G and Q, the coordinates x and y, the bytes of S0, t1 to t3; log entry 22). -/
structure Scratch where
  kb : Bytes
  ptA : Pt
  ptB : Pt
  ptR : Pt
  ptG : Pt
  ptQ : Pt
  d : Nat
  e : Nat
  k : Nat
  u : Nat
  v : Nat
  s0n : Nat
  s1 : Nat
  s0 : Bytes
  x : Nat
  y : Nat
  t1 : Nat
  t2 : Nat
  t3 : Nat
  deriving DecidableEq, Repr

/-- No scratch register is live (10_state.md R35, 70_reset_and_hazards.md R158). -/
def Scratch.none : Scratch :=
  ⟨[], .infinity, .infinity, .infinity, .infinity, .infinity, 0, 0, 0, 0, 0, 0, 0, [], 0, 0, 0, 0, 0⟩

/-! ### The outside world -/

/-- The widths of a bus access: 1, 2 or 4 bytes (20_memory.md R41). -/
inductive Width where
  | one | two | four
  deriving DecidableEq, Repr

/-- What the schedule lets happen next: one host access, one controller step, the arrival of an entropy draw, a response to
a request discarded earlier, or reset (45_control.md R135, R138; 10_state.md R36; 70_reset_and_hazards.md R157). -/
inductive Event where
  | write (w : Width) (off : BitVec 12) (v : Word)
  | read (w : Width) (off : BitVec 12)
  | controller
  | entropy
  | lateResponse
  | reset
  deriving DecidableEq, Repr

/-- The bus response to the last host access (20_memory.md R45, 60_exceptions.md R141). -/
inductive BusResponse where
  | none
  | written
  | data (v : Word)
  | busError
  deriving DecidableEq, Repr

/-! ### Memory -/

/-- The buffer bytes by window offset. In canonical form the offsets strictly rise. An offset that is not listed has no known
value. -/
abbrev Memory := List Host.Cell

/-- The canonical form of a memory: offsets strictly rising. -/
abbrev Memory.wf (m : Memory) : Prop := m.Pairwise (fun a b => a.1 < b.1)

/-- The written marks, by offset (10_state.md R32). -/
abbrev Marks := List Nat

/-- The canonical form of the marks: strictly rising. -/
abbrev Marks.wf (m : Marks) : Prop := m.Pairwise (· < ·)

/-! ### State -/

/-- The machine. STATUS.BUSY is `phase ≠ idle` (10_state.md R33), ID is a constant (R19), the pad bytes are constants (R31)
and IRQ is DONE ∧ IE (R38): Machine/Ops.lean gives these views. The last four fields are the model's own. -/
@[ext]
structure State where
  /-- CTRL (R20) -/
  ctrl : Ctrl
  /-- STATUS.DONE, VALID and ERR (R21) -/
  done : Bool
  valid : Bool
  err : ErrCode
  /-- DIGEST_LEN, T_LEN, OID_LEN, SIG_LEN, PUB_LEN, bits 7:0 (R23 to R27) -/
  digestLen : BitVec 8
  tLen : BitVec 8
  oidLen : BitVec 8
  sigLen : BitVec 8
  pubLen : BitVec 8
  /-- NONCE_CAP (R28) and ITER_COUNT (R29) -/
  nonceCap : BitVec 32
  iterCount : BitVec 32
  /-- the bytes of the seven buffers (R30) and their written marks (R32) -/
  mem : Memory
  marks : Marks
  /-- PHASE (R33), and the controller's place in the command's rule (R135) -/
  phase : Phase
  site : Site
  /-- the nonce-loop registers THETA and CAND (R34) -/
  theta : Bytes
  cand : Bytes
  /-- the command scratch registers (R35) -/
  scratch : Scratch
  /-- the one outstanding port request (R36) -/
  port : Option PortReq
  /-- the schedule still to come; when it is empty the controller moves whenever it can (log entry 5) -/
  events : List Event
  /-- the bus response to the last host access (log entry 17) -/
  response : BusResponse
  /-- how many entropy draws were made: the argument of the free value `Config.entropyDraw` -/
  draws : Nat
  /-- how many steps other than reads were made: the argument of the free value `Config.unwrittenByte` -/
  epoch : Nat
  deriving DecidableEq, Repr

/-- CTRL after reset: DETERMINISTIC, BIGN128, interrupt disabled (70_reset_and_hazards.md R157). -/
def Ctrl.reset : Ctrl := ⟨0, 0, false, false, false, false⟩

/-- The machine right after power-on reset (70_reset_and_hazards.md R158). THETA, CAND, the scratch registers, the draw
counter and the epoch have no reset value in the spec: DESIGN CHOICE, log entry 2. -/
def State.reset : State where
  ctrl := Ctrl.reset
  done := false
  valid := false
  err := .none
  digestLen := 0
  tLen := 0
  oidLen := 0
  sigLen := 0
  pubLen := 0
  nonceCap := 0
  iterCount := 0
  mem := []
  marks := []
  phase := .idle
  site := .entry
  theta := []
  cand := []
  scratch := Scratch.none
  port := .none
  events := []
  response := .none
  draws := 0
  epoch := 0

/-- Why the machine stops with a fault. None of these is a hardware error: a hardware error is a value of `ErrCode` or the bus
response `busError`, and the machine goes on. -/
inductive Fault where
  /-- UNWRITTEN_OPERAND: a command's operand read touches a byte without the written mark (10_state.md R32, 60_exceptions.md
  R142). Raised by the operand reads of Machine/Operands.lean. Safe: the block computes with an unspecified byte where
  the model stops. -/
  | unwrittenOperand
  /-- UNREACHABLE: CG_TO_AFFINE is requested for `O` (40_primitives.md R88, 60_exceptions.md R142). Raised by CG_TO_AFFINE
  alone. Safe: the rules never request it. -/
  | unreachable
  /-- The controller's place in the command's rule and the outstanding request do not fit, or a reserved CMD or CURVE
  is running. Raised by Machine/Controller.lean in states that no run from reset reaches; the spec says nothing of
  them (log entry 8). Safe. -/
  | offProtocol
  deriving DecidableEq, Repr

/-- Why the model gives an instruction no meaning. -/
inductive Refusal where
  /-- The instruction of the opcode table has no meaning in this model. Raised by no arm of `exec`. Safe. -/
  | notModelled (mnemonic : String)
  deriving DecidableEq, Repr

end Sys2Proof.Machine
end

