-- ==== Sys2Proof/Machine/Ops.lean ====
section
/-! DEFINITION. The named operations over memory, registers and the running command: the ends of a command (completion, error,
abort, rejection), its acceptance, reset, and the moves of the controller (spec/45_control.md R128 to R134,
60_exceptions.md R146, R147, 70_reset_and_hazards.md R157). -/

namespace Sys2Proof.Machine

open Sys2Proof

/-- The three outcomes of a step of this machine. -/
abbrev Result := Host.Outcome State Fault Refusal

/-! ### Memory -/

/-- The byte listed at an offset. -/
def memRead : Memory → Nat → Option Byte
  | [], _ => none
  | (k, v) :: t, a => if k = a then some v else memRead t a

/-- Stores a byte and keeps the canonical form. -/
def memWrite : Memory → Nat → Byte → Memory
  | [], a, b => [(a, b)]
  | (k, v) :: t, a, b =>
    if a < k then (a, b) :: (k, v) :: t else if a = k then (a, b) :: t else (k, v) :: memWrite t a b

/-- Sets the written mark of an offset and keeps the canonical form. -/
def markAdd : Marks → Nat → Marks
  | [], a => [a]
  | k :: t, a => if a < k then a :: k :: t else if a = k then k :: t else k :: markAdd t a

/-- Whether an offset has its written mark. -/
def isMarked : Marks → Nat → Bool
  | [], _ => false
  | k :: t, a => k == a || isMarked t a

/-- The byte at a buffer offset that has its written mark (10_state.md R32). -/
def readMarked (s : State) (a : Nat) : Option Byte :=
  if isMarked s.marks a then memRead s.mem a else none

/-- Stores one buffer byte and sets its written mark (10_state.md R32). -/
def writeByte (a : Nat) (b : Byte) (s : State) : State :=
  { s with mem := memWrite s.mem a b, marks := markAdd s.marks a }

/-- `BUF[i..) <- b`: stores a byte string from an offset on (00_scope.md R15). -/
def writeBytes (a : Nat) : Bytes → State → State
  | [], s => s
  | b :: t, s => writeBytes (a + 1) t (writeByte a b s)

/-- Reads `n` marked bytes from an offset on; none if one of them has no mark. -/
def readBytes (s : State) (a : Nat) : Nat → Option Bytes
  | 0 => some []
  | n + 1 =>
    match readMarked s a with
    | some b =>
      match readBytes s (a + 1) n with
      | some t => some (b :: t)
      | none => none
    | none => none

/-- The seven buffers (10_state.md R30). -/
inductive Buffer where
  | prv | dig | k | t | oid | sig | pub
  deriving DecidableEq, Repr

/-- The offset of a buffer's byte 0 (10_state.md R30). -/
def bufferBase : Buffer → Nat
  | .prv => 0x100
  | .dig => 0x140
  | .k => 0x180
  | .t => 0x1C0
  | .oid => 0x200
  | .sig => 0x240
  | .pub => 0x300

/-- The size of a buffer in bytes (10_state.md R30). -/
def bufferSize : Buffer → Nat
  | .prv | .dig | .k | .t => 64
  | .oid => 32
  | .sig => 96
  | .pub => 129

/-- `BUF[0..n)` as an operand (10_state.md R32). -/
def readBuffer (s : State) (b : Buffer) (n : Nat) : Option Bytes := readBytes s (bufferBase b) n

/-- `BUF[0..|bs|) <- bs`. -/
def writeBuffer (b : Buffer) (bs : Bytes) (s : State) : State := writeBytes (bufferBase b) bs s

/-- An operand read that touches a byte without its mark is the model fault UNWRITTEN_OPERAND (10_state.md R32). -/
def withOperand (o : Option Bytes) (k : Bytes → Result) : Result :=
  match o with
  | some b => k b
  | none => .fault .unwrittenOperand

/-! ### CTRL -/

/-- STATUS.BUSY: PHASE ≠ IDLE (10_state.md R33). -/
def State.busy (s : State) : Bool := s.phase != .idle

/-- A CTRL write while idle stores six fields (45_control.md R128). -/
def storeFields (cmd : BitVec 3) (f : CtrlFields) (s : State) : State :=
  { s with ctrl := ⟨cmd, f.curve, f.mode, f.ksup, f.oidsel, f.ie⟩ }

/-- A CTRL write while busy stores IE alone (45_control.md R131). -/
def storeIe (ie : Bool) (s : State) : State := { s with ctrl := { s.ctrl with ie := ie } }

/-! ### The beginning and the ends of a command -/

/-- An accepted START (45_control.md R130). -/
def acceptStart (s : State) : State :=
  { s with phase := .run, site := .entry, done := false, valid := false, err := .none, iterCount := 0 }

/-- A START rejected in its own step; the command never becomes busy (45_control.md R129). -/
def rejectStart (code : ErrCode) (s : State) : State :=
  { s with err := code, valid := false, done := true }

/-- What every end of a command does beside STATUS: PHASE becomes IDLE, the outstanding request, THETA, CAND, KB and the
scratch registers are discarded (45_control.md R132, R134; 10_state.md R35; DEDUCED, log entry 15). -/
def endCommand (s : State) : State :=
  { s with phase := .idle, site := .entry, theta := [], cand := [], scratch := Scratch.none, port := .none }

/-- `finish(valid)`: completion without error, after the command's output writes (45_control.md R134). -/
def finishCommand (valid : Bool) (s : State) : State :=
  { endCommand s with err := .none, valid := valid, done := true }

/-- `raise Err(code)`: the error entry, the block's only analogue of taking an exception (45_control.md R134,
60_exceptions.md R146): the code is recorded, DONE is set, busy ends, nothing else is saved and no output is written. -/
def raiseErr (code : ErrCode) (s : State) : State :=
  { endCommand s with err := code, valid := false, done := true }

/-- `abort()`: the running command ends with ABORTED (45_control.md R132). -/
def abortCommand (s : State) : State := raiseErr .aborted s

/-- The acknowledgement that stands for a return from an error: DONE is cleared, ERR and VALID are kept (45_control.md R133,
60_exceptions.md R147). -/
def clearDone (s : State) : State := { s with done := false }

/-- Reset: every register takes its reset value, the buffer bytes are kept and every written mark is cleared
(70_reset_and_hazards.md R157). The schedule, the bus and the model's counters stand outside the block. -/
def resetBlock (s : State) : State :=
  { State.reset with
    mem := s.mem
    events := s.events
    response := s.response
    draws := s.draws
    epoch := s.epoch }

/-! ### Moves of the controller -/

/-- Issue: a request goes out at a call (45_control.md R135 (a)). -/
def sendRequest (site : Site) (r : PortReq) (s : State) : State := { s with site := site, port := some r }

/-- The response was received and the next call is known (45_control.md R135 (b)). -/
def moveTo (site : Site) (s : State) : State := { s with site := site, port := .none }

/-- Changes PHASE (10_state.md R33). -/
def setPhase (p : Phase) (s : State) : State := { s with phase := p }

/-- Changes the scratch registers (10_state.md R35). -/
def setScratch (r : Scratch) (s : State) : State := { s with scratch := r }

/-- Writes THETA and CAND (42_genk.md R103). -/
def setNonce (theta cand : Bytes) (s : State) : State := { s with theta := theta, cand := cand }

/-- Writes ITER_COUNT (10_state.md R29). -/
def setIterCount (i : BitVec 32) (s : State) : State := { s with iterCount := i }

/-- Writes SIG_LEN (10_state.md R26). -/
def setSigLen (n : BitVec 8) (s : State) : State := { s with sigLen := n }

/-- Writes PUB_LEN (10_state.md R27). -/
def setPubLen (n : BitVec 8) (s : State) : State := { s with pubLen := n }

/-- Counts one entropy draw (00_scope.md R11). -/
def countDraw (s : State) : State := { s with draws := s.draws + 1 }

/-- Gives a bus response to the host. -/
def respond (r : BusResponse) (s : State) : State := { s with response := r }

/-- A response finds the request it answers; a response to no outstanding request is discarded (10_state.md R36, 45_control.md
R132; log entry 23). -/
def receive (r : PortReq) (s : State) (k : State → Result) : Result :=
  if s.port = some r then k s else .next s

end Sys2Proof.Machine
end

