-- ==== Sys2Proof/Machine/Operands.lean ====
section
/-! DEFINITION. The integer codecs, the framing of keys, signatures and hash inputs, and the operands of the commands
(spec/00_scope.md R13, R14, R154; 30_encoding.md R63, R64; 40_primitives.md R72 to R80). -/

namespace Sys2Proof.Machine

open Sys2Proof

/-! ### Integer codecs -/

/-- `LE(b)` (00_scope.md R14). -/
def leNat : Bytes → Nat
  | [] => 0
  | b :: t => b.toNat + 256 * leNat t

/-- `BE(b)` (00_scope.md R14). -/
def beNat (b : Bytes) : Nat := leNat b.reverse

/-- `LE_m(x)` (00_scope.md R14). -/
def leBytes : Nat → Nat → Bytes
  | 0, _ => []
  | m + 1, x => BitVec.ofNat 8 x :: leBytes m (x / 256)

/-- `BE_m(x)` (00_scope.md R14). -/
def beBytes (m x : Nat) : Bytes := (leBytes m x).reverse

/-- `x mod n` of an integer, possibly negative (00_scope.md R14). -/
def intMod (x : Int) (n : Nat) : Nat := (x % (n : Int)).toNat

/-! ### Per-curve quantities -/

/-- SIGLEN = 3·H (00_scope.md R154). -/
def sigLenOf (c : CurveId) : Nat := 3 * c.half

/-- PUBLEN = 1 + 2·L (00_scope.md R154). -/
def pubLenOf (c : CurveId) : Nat := 1 + 2 * c.len

/-- W = 2^(8·H) (00_scope.md R154, 30_encoding.md R64). -/
def wOf (c : CurveId) : Nat := 2 ^ (8 * c.half)

/-! ### Framing -/

/-- The tag of an uncompressed public key (40_primitives.md R72). -/
def pubTag : Byte := 0x04

/-- ENC_PUB(x, y) (40_primitives.md R72). -/
def encPub (c : CurveId) (x y : Nat) : Bytes := pubTag :: (leBytes c.len x ++ leBytes c.len y)

/-- The two coordinates of DEC_PUB, from the bytes after the tag (40_primitives.md R73). -/
def decCoordinates (c : CurveId) (b : Bytes) : Nat × Nat := (leNat (b.take c.len), leNat (b.drop c.len))

/-- ENC_SIG(S0, S1); S1 is little-endian (40_primitives.md R74, 90_conflicts.md C1). -/
def encSig (c : CurveId) (s0 : Bytes) (s1 : Nat) : Bytes := s0 ++ leBytes c.len s1

/-- DEC_SIG of SIGLEN bytes; S1 is little-endian (40_primitives.md R75, 90_conflicts.md C1). -/
def decSig (c : CurveId) (b : Bytes) : Bytes × Nat := (b.take c.half, leNat (b.drop c.half))

/-- HIN_S(oid, X, dig) (40_primitives.md R77). -/
def hinS (c : CurveId) (oid : Bytes) (x : Nat) (dig : Bytes) : Bytes := oid ++ leBytes c.len x ++ dig

/-- HIN_THETA(oid, prv, t) (40_primitives.md R79). -/
def hinTheta (oid prv t : Bytes) : Bytes := oid ++ prv ++ t

/-- TRUNC_S0(h) (40_primitives.md R78). -/
def truncS0 (c : CurveId) (h : Bytes) : Bytes := h.take c.half

/-! ### Operands of the running command -/

/-- PRV[0..L) (30_encoding.md R63). -/
def readPrv (c : CurveId) (s : State) : Option Bytes := readBuffer s .prv c.len

/-- K[0..L) (43_sign.md R111). -/
def readK (c : CurveId) (s : State) : Option Bytes := readBuffer s .k c.len

/-- DIG[0..DIGEST_LEN) (30_encoding.md R63). -/
def readDigest (s : State) : Option Bytes := readBuffer s .dig s.digestLen.toNat

/-- T[0..T_LEN) for GENK; SIGN runs the nonce loop with t empty (42_genk.md R107, 43_sign.md R111). -/
def readContext (s : State) : Option Bytes :=
  if s.ctrl.cmd = 2 then readBuffer s .t s.tLen.toNat else some []

/-- OIDBYTES (40_primitives.md R76). -/
def readOid (s : State) : Option Bytes :=
  if s.ctrl.oidsel then readBuffer s .oid s.oidLen.toNat else some Config.defaultOid

/-- The curve that CTRL.CURVE selects; no command runs with code 3 (45_control.md R129). -/
def withCurve (s : State) (k : CurveId → Result) : Result :=
  match curveOfCode s.ctrl.curve with
  | some c => k c
  | none => .fault .offProtocol

end Sys2Proof.Machine
end

