-- ==== Sys2Proof/Machine/Flags.lean ====
section
/-! DEFINITION. The register views of CTRL and STATUS, the interrupt line, the START checks, and the tests that decide a flag
or an outcome (spec/10_state.md R20 to R22, R38; 45_control.md R129; 42_genk.md R104, R105, R108; 43_sign.md R117;
44_verify.md R126, R127). -/

namespace Sys2Proof.Machine

open Sys2Proof

/-- The 4-bit code of an error (60_exceptions.md R140). -/
def errBits : ErrCode → BitVec 4
  | .none => 0
  | .illegalCmd => 1
  | .badLength => 2
  | .invalidPoint => 3
  | .invalidScalar => 4
  | .infinity => 5
  | .nonceExhausted => 6
  | .aborted => 7

/-- STATUS as a word: BUSY 0, DONE 1, VALID 2, ERR 7:4 (10_state.md R21). -/
def statusWord (s : State) : Word :=
  0#24 ++ errBits s.err ++ 0#1 ++ BitVec.ofBool s.valid ++ BitVec.ofBool s.done ++ BitVec.ofBool s.busy

/-- CTRL as a word: START and ABORT read 0 (10_state.md R20). -/
def ctrlView (s : State) : Word :=
  ctrlWord s.ctrl.cmd ⟨s.ctrl.curve, s.ctrl.mode, s.ctrl.ksup, s.ctrl.oidsel, s.ctrl.ie⟩ false false

/-- IRQ = STATUS.DONE ∧ CTRL.IE, a level (10_state.md R38, 60_exceptions.md R144). -/
def State.irq (s : State) : Bool := s.done && s.ctrl.ie

/-! ### START checks -/

/-- CMD is one of the reserved values 0, 5, 6, 7 (30_encoding.md R59, R67). -/
def reservedCmd (cmd : BitVec 3) : Bool := cmd.toNat = 0 || 5 ≤ cmd.toNat

/-- OID_LEN ≤ 32 if OIDSEL = 1 (10_state.md R25). -/
def oidLenOk (s : State) : Bool := !s.ctrl.oidsel || s.oidLen.toNat ≤ 32

/-- The length checks of the command that CTRL names: PUBKEY none (41_pubkey.md R98), GENK (42_genk.md R108), SIGN (43_sign.md
R117), VERIFY (44_verify.md R127). -/
def lengthsOk (c : CurveId) (s : State) : Bool :=
  match s.ctrl.cmd.toNat with
  | 2 => s.digestLen.toNat = c.len && s.tLen.toNat ≤ 64 && oidLenOk s
  | 3 => s.digestLen.toNat ≤ 64 && (s.ctrl.ksup || s.ctrl.mode || s.digestLen.toNat = c.len) && oidLenOk s
  | 4 => s.digestLen.toNat ≤ 64 && oidLenOk s
  | _ => true

/-- The START checks in their order: ILLEGAL_CMD, then BAD_LENGTH (45_control.md R129, 60_exceptions.md R145). -/
def startCheck (s : State) : Option ErrCode :=
  if reservedCmd s.ctrl.cmd then some .illegalCmd
  else
    match curveOfCode s.ctrl.curve with
    | none => some .illegalCmd
    | some c => if lengthsOk c s then none else some .badLength

/-- start_attempt() (45_control.md R129, R130). -/
def startAttempt (s : State) : State :=
  match startCheck s with
  | some code => rejectStart code s
  | none => acceptStart s

/-! ### Tests inside the commands -/

/-- ITER_COUNT + 1, saturating at 0xFFFFFFFF (10_state.md R29). -/
def iterNext (i : BitVec 32) : BitVec 32 := if i = 0xFFFFFFFF then i else i + 1

/-- The acceptance test of a candidate, `1 ≤ BE(CAND) < n` (42_genk.md R104). -/
def nonceAccepted (c : CurveId) (cand : Bytes) : Bool := 1 ≤ beNat cand && beNat cand < Config.order c

/-- The iteration cap is reached; 0 means no cap (42_genk.md R105). -/
def capReached (cap i : BitVec 32) : Bool := cap != 0 && cap ≤ i

/-- VALID of a VERIFY that reaches step 6: TRUNC_S0(h) equals S0 byte for byte (44_verify.md R126). -/
def signatureMatches (c : CurveId) (h s0 : Bytes) : Bool := truncS0 c h = s0

end Sys2Proof.Machine
end

