-- ==== Sys2Proof/Machine/Controller.lean ====
section
/-! DEFINITION. The controller agent (spec/45_control.md R135). `issueAt` is step (a): it assembles the operands of the call at
`site`, live (20_memory.md R57; log entry 13), and sends the request. The `after…` functions are step (b) for each kind of response: they
compute up to the next call, or to the end of the command. The call order is that of 41_pubkey.md R97, 42_genk.md R103 and
R104, 43_sign.md R111 to R115 and 44_verify.md R119. -/

namespace Sys2Proof.Machine

open Sys2Proof

/-! ### (a) Issue -/

/-- The calls of PUBKEY (41_pubkey.md R97, R99). -/
def issuePubkey (c : CurveId) (site : Site) (s : State) : Result :=
  let r := s.scratch
  match site with
  | .pkBase => .next (sendRequest site (curveGroupReq c 0 []) s)
  | .pkMul => .next (sendRequest site (curveGroupReq c 1 [.point r.ptG, .nat r.d]) s)
  | .pkIsId => .next (sendRequest site (curveGroupReq c 4 [.point r.ptR]) s)
  | .pkToAffine => .next (sendRequest site (curveGroupReq c 5 [.point r.ptR]) s)
  | _ => .fault .offProtocol

/-- The calls of the nonce loop and of the entropy draw (42_genk.md R103, R104; 43_sign.md R112). -/
def issueNonce (c : CurveId) (site : Site) (s : State) : Result :=
  match site with
  | .nonceHash =>
    withOperand (readOid s) fun oid => withOperand (readPrv c s) fun prv => withOperand (readContext s) fun t =>
      .next (sendRequest site (digestReq 0 [.bytes (hinTheta oid prv t)]) s)
  | .nonceStretch => .next (sendRequest site (digestReq 1 [.bytes s.theta, .bytes s.cand]) s)
  | .sgDraw => .next (sendRequest site (entropyReq 0 [.nat c.len]) (setPhase .waitEnt s))
  | _ => .fault .offProtocol

/-- The calls of SIGN after its one-time key is chosen (43_sign.md R113 to R115). -/
def issueSign (c : CurveId) (site : Site) (s : State) : Result :=
  let r := s.scratch
  match site with
  | .sgBase => .next (sendRequest site (curveGroupReq c 0 []) s)
  | .sgMul => .next (sendRequest site (curveGroupReq c 1 [.point r.ptG, .nat r.k]) s)
  | .sgIsId => .next (sendRequest site (curveGroupReq c 4 [.point r.ptR]) s)
  | .sgToAffine => .next (sendRequest site (curveGroupReq c 5 [.point r.ptR]) s)
  | .sgHash =>
    withOperand (readOid s) fun oid => withOperand (readDigest s) fun dig =>
      .next (sendRequest site (digestReq 0 [.bytes (hinS c oid r.x dig)]) s)
  | .sgAddW => .next (sendRequest site (curveGroupReq c 6 [.nat r.s0n, .nat (wOf c)]) s)
  | .sgMulD =>
    withOperand (readPrv c s) fun prv =>
      .next (sendRequest site (curveGroupReq c 8 [.nat r.t1, .nat (leNat prv)]) (setScratch { r with d := leNat prv } s))
  | .sgSubE =>
    withOperand (readDigest s) fun dig =>
      .next (sendRequest site (curveGroupReq c 7 [.nat r.k, .nat (leNat dig)]) (setScratch { r with e := leNat dig } s))
  | .sgSubT => .next (sendRequest site (curveGroupReq c 7 [.nat r.t3, .nat r.t2]) s)
  | _ => .fault .offProtocol

/-- The calls of VERIFY (44_verify.md R119). -/
def issueVerify (c : CurveId) (site : Site) (s : State) : Result :=
  let r := s.scratch
  match site with
  | .vfFromAffine => .next (sendRequest site (curveGroupReq c 3 [.nat r.x, .nat r.y]) s)
  | .vfAddE =>
    withOperand (readDigest s) fun dig =>
      .next (sendRequest site (curveGroupReq c 6 [.nat r.s1, .nat (leNat dig)])
        (setScratch { r with e := leNat dig, s0n := leNat r.s0 } s))
  | .vfAddW => .next (sendRequest site (curveGroupReq c 6 [.nat r.s0n, .nat (wOf c)]) s)
  | .vfBase => .next (sendRequest site (curveGroupReq c 0 []) s)
  | .vfMulQ => .next (sendRequest site (curveGroupReq c 1 [.point r.ptQ, .nat r.v]) s)
  | .vfMulG => .next (sendRequest site (curveGroupReq c 1 [.point r.ptG, .nat r.u]) s)
  | .vfAdd => .next (sendRequest site (curveGroupReq c 2 [.point r.ptA, .point r.ptB]) s)
  | .vfIsId => .next (sendRequest site (curveGroupReq c 4 [.point r.ptR]) s)
  | .vfToAffine => .next (sendRequest site (curveGroupReq c 5 [.point r.ptR]) s)
  | .vfHash =>
    withOperand (readOid s) fun oid => withOperand (readDigest s) fun dig =>
      .next (sendRequest site (digestReq 0 [.bytes (hinS c oid r.x dig)]) s)
  | _ => .fault .offProtocol

/-- PUBKEY up to its first call (41_pubkey.md R97). -/
def enterPubkey (c : CurveId) (s : State) : Result :=
  withOperand (readPrv c s) fun prv =>
    issuePubkey c .pkBase (setScratch { s.scratch with d := leNat prv } s)

/-- The one-time key is known: KB and k = LE(KB), not reduced (43_sign.md R111, R113). -/
def chooseKey (kb : Bytes) (s : State) : State :=
  setScratch { s.scratch with kb := kb, k := leNat kb } s

/-- SIGN up to its first call: the supplied key, else the nonce loop, else the entropy draw (43_sign.md R111). -/
def enterSign (c : CurveId) (s : State) : Result :=
  if s.ctrl.ksup then withOperand (readK c s) fun kb => issueSign c .sgBase (chooseKey kb s)
  else if s.ctrl.mode then issueNonce c .sgDraw s
  else issueNonce c .nonceHash s

/-- VERIFY step 3 before its call: the framing checks of DEC_PUB (40_primitives.md R73, 44_verify.md R122). No byte is read when
the length is wrong, and only the tag when the tag is wrong (00_scope.md R15). -/
def enterVerifyKey (c : CurveId) (s : State) : Result :=
  if s.pubLen.toNat ≠ pubLenOf c then .next (raiseErr .invalidPoint s)
  else
    withOperand (readBytes s (bufferBase .pub) 1) fun tag =>
      if tag ≠ [pubTag] then .next (raiseErr .invalidPoint s)
      else
        withOperand (readBytes s (bufferBase .pub + 1) (2 * c.len)) fun xy =>
          let q := decCoordinates c xy
          issueVerify c .vfFromAffine (setScratch { s.scratch with x := q.1, y := q.2 } s)

/-- VERIFY steps 1 to 3 up to its first call (44_verify.md R119 to R122). -/
def enterVerify (c : CurveId) (s : State) : Result :=
  if s.sigLen.toNat ≠ sigLenOf c then .next (finishCommand false s)
  else
    withOperand (readBuffer s .sig (sigLenOf c)) fun sig =>
      let p := decSig c sig
      if Config.order c ≤ p.2 then .next (finishCommand false s)
      else enterVerifyKey c (setScratch { s.scratch with s0 := p.1, s1 := p.2 } s)

/-- The beginning of the command that CTRL names (45_control.md R130). -/
def enterCommand (c : CurveId) (s : State) : Result :=
  match s.ctrl.cmd.toNat with
  | 1 => enterPubkey c s
  | 2 => issueNonce c .nonceHash s
  | 3 => enterSign c s
  | 4 => enterVerify c s
  | _ => .fault .offProtocol

/-- Step (a): with no request outstanding the controller computes up to the call at its site and sends it, or reaches the
command's end (45_control.md R135). -/
def issueAt (c : CurveId) (s : State) : Result :=
  match s.site with
  | .entry => enterCommand c s
  | .pkBase | .pkMul | .pkIsId | .pkToAffine => issuePubkey c s.site s
  | .nonceHash | .nonceStretch | .sgDraw => issueNonce c s.site s
  | .sgBase | .sgMul | .sgIsId | .sgToAffine | .sgHash | .sgAddW | .sgMulD | .sgSubE | .sgSubT => issueSign c s.site s
  | .vfFromAffine | .vfAddE | .vfAddW | .vfBase | .vfMulQ | .vfMulG | .vfAdd | .vfIsId | .vfToAffine | .vfHash =>
    issueVerify c s.site s

/-- A controller step with no request outstanding. -/
def advance (s : State) : Result := withCurve s fun c => issueAt c s

/-! ### (b) Respond -/

/-- CG_BASE answered (R97, R113, R119). -/
def afterBase (P : Pt) (s : State) : Result :=
  let r := { s.scratch with ptG := P }
  match s.site with
  | .pkBase => .next (moveTo .pkMul (setScratch r s))
  | .sgBase => .next (moveTo .sgMul (setScratch r s))
  | .vfBase => .next (moveTo .vfMulQ (setScratch r s))
  | _ => .fault .offProtocol

/-- A point that a collaborator may refuse to give: a refusal raises an error (40_primitives.md R84, R86). -/
def orRaise (code : ErrCode) (P : Option Pt) (s : State) (k : Pt → State) : State :=
  match P with
  | some P => k P
  | none => raiseErr code s

/-- After v·Q in VERIFY: u = 0 skips the multiplication of G (44_verify.md R124). -/
def afterMulQ (P : Pt) (s : State) : State :=
  if s.scratch.u = 0 then moveTo .vfIsId (setScratch { s.scratch with ptB := P, ptR := P } s)
  else moveTo .vfMulG (setScratch { s.scratch with ptB := P } s)

/-- CG_MUL answered: a point, or none where the scalar is rejected (R97, R113, R119). -/
def afterMul (P : Option Pt) (s : State) : Result :=
  match s.site with
  | .pkMul => .next (orRaise .invalidScalar P s fun P => moveTo .pkIsId (setScratch { s.scratch with ptR := P } s))
  | .sgMul => .next (orRaise .invalidScalar P s fun P => moveTo .sgIsId (setScratch { s.scratch with ptR := P } s))
  | .vfMulQ => .next (orRaise .invalidScalar P s fun P => afterMulQ P s)
  | .vfMulG => .next (orRaise .invalidScalar P s fun P => moveTo .vfAdd (setScratch { s.scratch with ptA := P } s))
  | _ => .fault .offProtocol

/-- CG_ADD answered (R119). -/
def afterAdd (P : Pt) (s : State) : Result :=
  match s.site with
  | .vfAdd => .next (moveTo .vfIsId (setScratch { s.scratch with ptR := P } s))
  | _ => .fault .offProtocol

/-- CG_FROM_AFFINE answered: a point, or none where it is invalid (44_verify.md R122). -/
def afterFromAffine (P : Option Pt) (s : State) : Result :=
  match s.site with
  | .vfFromAffine => .next (orRaise .invalidPoint P s fun P => moveTo .vfAddE (setScratch { s.scratch with ptQ := P } s))
  | _ => .fault .offProtocol

/-- CG_IS_ID answered: `O` is INFINITY in PUBKEY and SIGN, and "not verified" in VERIFY (41_pubkey.md R101, 43_sign.md R113,
44_verify.md R125). -/
def afterIsId (z : Bool) (s : State) : Result :=
  match s.site with
  | .pkIsId => .next (if z then raiseErr .infinity s else moveTo .pkToAffine s)
  | .sgIsId => .next (if z then raiseErr .infinity s else moveTo .sgToAffine s)
  | .vfIsId => .next (if z then finishCommand false s else moveTo .vfToAffine s)
  | _ => .fault .offProtocol

/-- The completion of PUBKEY (41_pubkey.md R97, R102). -/
def completePubkey (c : CurveId) (x y : Nat) (s : State) : State :=
  finishCommand false (setPubLen (BitVec.ofNat 8 (pubLenOf c)) (writeBuffer .pub (encPub c x y) s))

/-- CG_TO_AFFINE answered (R97, R113, R119). -/
def afterToAffine (c : CurveId) (x y : Nat) (s : State) : Result :=
  match s.site with
  | .pkToAffine => .next (completePubkey c x y s)
  | .sgToAffine => .next (moveTo .sgHash (setScratch { s.scratch with x := x } s))
  | .vfToAffine => .next (moveTo .vfHash (setScratch { s.scratch with x := x } s))
  | _ => .fault .offProtocol

/-- CG_FN_ADD answered (43_sign.md R115, 44_verify.md R123). -/
def afterFnAdd (a : Nat) (s : State) : Result :=
  match s.site with
  | .sgAddW => .next (moveTo .sgMulD (setScratch { s.scratch with t1 := a } s))
  | .vfAddE => .next (moveTo .vfAddW (setScratch { s.scratch with u := a } s))
  | .vfAddW => .next (moveTo .vfBase (setScratch { s.scratch with v := a } s))
  | _ => .fault .offProtocol

/-- CG_FN_MUL answered (43_sign.md R115). -/
def afterFnMul (a : Nat) (s : State) : Result :=
  match s.site with
  | .sgMulD => .next (moveTo .sgSubE (setScratch { s.scratch with t2 := a } s))
  | _ => .fault .offProtocol

/-- The completion of SIGN (43_sign.md R116, R118). -/
def completeSign (c : CurveId) (s0 : Bytes) (s1 : Nat) (s : State) : State :=
  finishCommand false (setSigLen (BitVec.ofNat 8 (sigLenOf c)) (writeBuffer .sig (encSig c s0 s1) s))

/-- CG_FN_SUB answered (43_sign.md R115). -/
def afterFnSub (c : CurveId) (a : Nat) (s : State) : Result :=
  match s.site with
  | .sgSubE => .next (moveTo .sgSubT (setScratch { s.scratch with t3 := a } s))
  | .sgSubT => .next (completeSign c s.scratch.s0 a s)
  | _ => .fault .offProtocol

/-- The digest that starts the nonce loop: DIG[0..DIGEST_LEN) in GENK, DIG[0..L) in SIGN (42_genk.md R107, 43_sign.md R111). -/
def readNonceDigest (c : CurveId) (s : State) : Option Bytes :=
  if s.ctrl.cmd = 2 then readDigest s else readBuffer s .dig c.len

/-- DE_HASH answered (42_genk.md R103, 43_sign.md R114, 44_verify.md R126). -/
def afterHash (h : Bytes) (s : State) : Result :=
  withCurve s fun c =>
    match s.site with
    | .nonceHash =>
      withOperand (readNonceDigest c s) fun dig => .next (moveTo .nonceStretch (setPhase .loop (setNonce h dig s)))
    | .sgHash =>
      .next (moveTo .sgAddW (setScratch { s.scratch with s0 := truncS0 c h, s0n := leNat (truncS0 c h) } s))
    | .vfHash => .next (finishCommand (signatureMatches c h s.scratch.s0) s)
    | _ => .fault .offProtocol

/-- The completion of GENK (42_genk.md R107, R109). -/
def completeGenk (kb : Bytes) (s : State) : State := finishCommand false (writeBuffer .k kb s)

/-- The nonce loop returned a key: GENK completes, SIGN goes on with it (42_genk.md R107, 43_sign.md R111). The loop has
ended, so PHASE is RUN again (10_state.md R33; DEDUCED, log entry 9). -/
def nonceReturn (kb : Bytes) (s : State) : State :=
  if s.ctrl.cmd = 2 then completeGenk kb s else moveTo .sgBase (setPhase .run (chooseKey kb s))

/-- The tests at the end of an iteration: acceptance first, then the cap, else another iteration (42_genk.md R104, R105). -/
def nonceTest (c : CurveId) (cand : Bytes) (s : State) : State :=
  if nonceAccepted c cand then nonceReturn cand s
  else if capReached s.nonceCap s.iterCount then raiseErr .nonceExhausted s
  else moveTo .nonceStretch s

/-- DE_STRETCH answered: one iteration of the nonce loop (42_genk.md R104). -/
def afterStretch (cand : Bytes) (s : State) : Result :=
  withCurve s fun c =>
    match s.site with
    | .nonceStretch => .next (nonceTest c cand (setIterCount (iterNext s.iterCount) (setNonce s.theta cand s)))
    | _ => .fault .offProtocol

/-- ENT_DRAW answered: the drawn bytes become KB unchanged (43_sign.md R112). -/
def afterDraw (b : Bytes) (s : State) : Result :=
  match s.site with
  | .sgDraw => .next (moveTo .sgBase (setPhase .run (chooseKey b (countDraw s))))
  | _ => .fault .offProtocol

end Sys2Proof.Machine
end

