-- ==== Sys2Proof/Machine/Bus.lean ====
section
/-! DEFINITION. The register window as the host sees it, and the steps that run no row of the opcode table: reads, writes of other
registers and of buffers, controller issue steps, discarded responses and reset (spec/20_memory.md, 45_control.md R131, R135,
60_exceptions.md R141). -/

namespace Sys2Proof.Machine

open Sys2Proof

/-! ### The window -/

/-- The bytes of a width (20_memory.md R41). -/
def widthBytes : Width → Nat
  | .one => 1
  | .two => 2
  | .four => 4

/-- The register range 0x000 to 0x027 (20_memory.md R44). -/
def inRegisters (o : Nat) : Bool := o < 0x028

/-- The buffer bytes (10_state.md R30). -/
def inBuffers (o : Nat) : Bool := (0x100 ≤ o && o < 0x220) || (0x240 ≤ o && o < 0x2A0) || (0x300 ≤ o && o < 0x381)

/-- The pad bytes of the PUB window (10_state.md R31). -/
def inPad (o : Nat) : Bool := 0x381 ≤ o && o < 0x384

/-- The mapped set (20_memory.md R45). -/
def isMapped (o : Nat) : Bool := inRegisters o || inBuffers o || inPad o

/-- Every byte of an access is mapped. -/
def allMapped (o : Nat) : Nat → Bool
  | 0 => true
  | n + 1 => isMapped o && allMapped (o + 1) n

/-- The accesses refused in any mode: misaligned, of the wrong width for the register range, or unmapped (20_memory.md R43 to
R45). -/
def refusesAccess (w : Width) (off : BitVec 12) : Bool :=
  off.toNat % widthBytes w != 0 || (inRegisters off.toNat && w != .four) || !allMapped off.toNat (widthBytes w)

/-- The busy lock on writes: the operand registers and the buffers with their pad (20_memory.md R49). ITER_COUNT at 0x024 is not
among them: writes to it "are ignored as always" (DEDUCED, log entry 7). -/
def isLocked (off : BitVec 12) : Bool :=
  (0x00C ≤ off.toNat && off.toNat < 0x024) || inBuffers off.toNat || inPad off.toNat

/-- A host write is refused with a bus error: the four cases of 60_exceptions.md R141. -/
def refusesWrite (w : Width) (off : BitVec 12) (s : State) : Bool :=
  refusesAccess w off || (s.busy && isLocked off)

/-! ### Reads -/

/-- ID (10_state.md R19). -/
def idValue : Word := 0x42474E01

/-- The register at a word offset (10_state.md R18). -/
def readRegister (s : State) (o : Nat) : Word :=
  match o with
  | 0x000 => idValue
  | 0x004 => ctrlView s
  | 0x008 => statusWord s
  | 0x00C => s.digestLen.setWidth 32
  | 0x010 => s.tLen.setWidth 32
  | 0x014 => s.oidLen.setWidth 32
  | 0x018 => s.sigLen.setWidth 32
  | 0x01C => s.pubLen.setWidth 32
  | 0x020 => s.nonceCap
  | 0x024 => s.iterCount
  | _ => 0

/-- The byte a host reads at a buffer or pad offset: pad bytes read 0 (10_state.md R31), a byte without its mark reads as a free
value (R32). -/
def busByte (s : State) (o : Nat) : Byte :=
  if inPad o then 0
  else
    match readMarked s o with
    | some b => b
    | none => Config.unwrittenByte s.epoch o

/-- Lane `i` is bits 8i+7 down to 8i of the data word (20_memory.md R41). -/
def busLanes (s : State) (o : Nat) : Nat → Nat
  | 0 => 0
  | n + 1 => (busByte s o).toNat + 256 * busLanes s (o + 1) n

/-- The data of a legal read. -/
def readData (s : State) (w : Width) (off : BitVec 12) : Word :=
  if inRegisters off.toNat then readRegister s off.toNat
  else BitVec.ofNat 32 (busLanes s off.toNat (widthBytes w))

/-- A host read: never refused by the busy lock, and without side effects (20_memory.md R46). -/
def busRead (w : Width) (off : BitVec 12) (s : State) : State :=
  if refusesAccess w off then respond .busError s else respond (.data (readData s w off)) s

/-! ### Writes -/

/-- Bits 7:0 of a length register (10_state.md R23 to R27). -/
def lengthField (v : Word) : BitVec 8 := v.extractLsb' 0 8

/-- A legal write of a register other than CTRL and STATUS; ID and ITER_COUNT ignore it (20_memory.md R47). -/
def writeRegister (o : Nat) (v : Word) (s : State) : State :=
  match o with
  | 0x00C => { s with digestLen := lengthField v }
  | 0x010 => { s with tLen := lengthField v }
  | 0x014 => { s with oidLen := lengthField v }
  | 0x018 => { s with sigLen := lengthField v }
  | 0x01C => { s with pubLen := lengthField v }
  | 0x020 => { s with nonceCap := v }
  | _ => s

/-- Stores the lanes of a data word from an offset on; pad bytes ignore writes (10_state.md R31). -/
def writeLanes (o : Nat) (v : Word) : Nat → State → State
  | 0, s => s
  | n + 1, s =>
    writeLanes (o + 1) (v >>> 8) n (if inPad o then s else writeByte o (v.extractLsb' 0 8) s)

/-- A legal write beside CTRL and STATUS (20_memory.md R47). -/
def writeData (w : Width) (off : BitVec 12) (v : Word) (s : State) : State :=
  if inRegisters off.toNat then writeRegister off.toNat v s else writeLanes off.toNat v (widthBytes w) s

/-- A host write that carries no row of the table: refused whole or performed whole (20_memory.md R48, 60_exceptions.md R145). -/
def busWrite (w : Width) (off : BitVec 12) (v : Word) (s : State) : State :=
  if refusesWrite w off s then respond .busError s else respond .written (writeData w off v s)

/-! ### The next transaction -/

/-- Offset of CTRL (10_state.md R20). -/
def ctrlOffset : BitVec 12 := 0x004

/-- Offset of STATUS (10_state.md R21). -/
def statusOffset : BitVec 12 := 0x008

/-- The request that a controller step answers: one on the CurveGroup or DigestEngine port (45_control.md R135 (b)). -/
def answerable (s : State) : Option Transaction :=
  match s.port with
  | some r => if r.port = .entropy then none else some (.portReq r)
  | none => none

/-- The request that an entropy arrival answers. -/
def entropyOutstanding (s : State) : Option Transaction :=
  match s.port with
  | some r => if r.port = .entropy then some (.portReq r) else none
  | none => none

/-- The transaction of the opcode table that the next step performs, if it performs one: a 4-byte write of CTRL or STATUS, or the
outstanding port request when its response is next. -/
def fetch (s : State) : Option Transaction :=
  match s.events with
  | .write .four off v :: _ =>
    if off = ctrlOffset then some (.ctrlWord s.busy v)
    else if off = statusOffset then some (.statusWord v)
    else none
  | .controller :: _ => if s.busy then answerable s else none
  | [] => if s.busy then answerable s else none
  | .entropy :: _ => if s.busy then entropyOutstanding s else none
  | _ => none

/-- What a step does around the instruction it runs: the event is taken from the schedule, the epoch moves on unless it is a read,
and a write is acknowledged. -/
def takeEvent (s : State) : State :=
  match s.events with
  | [] => { s with epoch := s.epoch + 1 }
  | .read _ _ :: t => { s with events := t }
  | .write _ _ _ :: t => { s with events := t, epoch := s.epoch + 1, response := .written }
  | _ :: t => { s with events := t, epoch := s.epoch + 1 }

/-- A transaction that carries no row: a busy CTRL word without ABORT stores IE (45_control.md R131), a STATUS word without
bit 1 has no effect (R133); a port request the decoder rejects is never issued (30_encoding.md R67). -/
def runUndecoded (t : Transaction) (s : State) : Result :=
  match t with
  | .ctrlWord _ w => .next (storeIe (w.getLsbD 10) s)
  | .statusWord _ => .next s
  | .portReq _ => .fault .offProtocol

/-- A controller step that answers no request: it is enabled while busy with no request outstanding (45_control.md R135 (a));
otherwise nothing is enabled and the block keeps all its state (60_exceptions.md R153). -/
def controllerStep (s : State) : Result :=
  if s.busy && s.port = none then advance s else .next s

/-- A step that performs no transaction of the opcode table. -/
def runEvent (s : State) : Result :=
  match s.events with
  | [] => if s.busy && s.port = none then controllerStep (takeEvent s) else .next s
  | .controller :: _ => controllerStep (takeEvent s)
  | .write w off v :: _ => .next (busWrite w off v (takeEvent s))
  | .read w off :: _ => .next (busRead w off (takeEvent s))
  | .entropy :: _ => .next (takeEvent s)
  | .lateResponse :: _ => .next (takeEvent s)
  | .reset :: _ => .next (resetBlock (takeEvent s))

/-- A place in a command's rule where a request with this OP of the CurveGroup port is awaited. -/
def siteOfOp (op : Nat) : Site :=
  match op with
  | 0 => .pkBase
  | 1 => .pkMul
  | 2 => .vfAdd
  | 3 => .vfFromAffine
  | 4 => .pkIsId
  | 5 => .pkToAffine
  | 6 => .sgAddW
  | 7 => .sgSubE
  | 8 => .sgMulD
  | _ => .entry

/-! ### The bus address -/

/-- The window offset of a bus address, if the platform's decoding selects the block (00_scope.md R12, 20_memory.md R39;
log entry 18). -/
def windowOffset (a : Nat) : Option (BitVec 12) :=
  if Config.base ≤ a ∧ a < Config.base + 4096 then some (BitVec.ofNat 12 (a - Config.base)) else none

end Sys2Proof.Machine
end

