-- ==== Sys2Proof/Machine/Command.lean ====
section
/-! DEFINITION. The meanings of the host command words: START of a command, CFG, ABORT and DONE clear (spec/45_control.md R128 to
R133, 30_encoding.md R62). Each is a meaning in both modes of the block: idle, and busy, where a CTRL write stores IE and heeds
ABORT alone (R131; log entry 14). -/

namespace Sys2Proof.Machine

open Sys2Proof

/-- A CTRL write with START = 1: idle, it stores the fields and attempts the START in the same step (45_control.md R128); busy,
the START is ignored and only IE is stored (R131). -/
def startWith (cmd : BitVec 3) (f : CtrlFields) (s : State) : Result :=
  .next (if s.busy then storeIe f.ie s else startAttempt (storeFields cmd f s))

/-- PUBKEY (41_pubkey.md R97). -/
def execPubkey (f : CtrlFields) (s : State) : Result := startWith 1 f s

/-- GENK (42_genk.md R107). -/
def execGenk (f : CtrlFields) (s : State) : Result := startWith 2 f s

/-- SIGN (43_sign.md R116). -/
def execSign (f : CtrlFields) (s : State) : Result := startWith 3 f s

/-- VERIFY (44_verify.md R119). -/
def execVerify (f : CtrlFields) (s : State) : Result := startWith 4 f s

/-- RESERVED_CMD_0 (30_encoding.md R67). -/
def execReservedCmd0 (f : CtrlFields) (s : State) : Result := startWith 0 f s

/-- RESERVED_CMD_5 (30_encoding.md R67). -/
def execReservedCmd5 (f : CtrlFields) (s : State) : Result := startWith 5 f s

/-- RESERVED_CMD_6 (30_encoding.md R67). -/
def execReservedCmd6 (f : CtrlFields) (s : State) : Result := startWith 6 f s

/-- RESERVED_CMD_7 (30_encoding.md R67). -/
def execReservedCmd7 (f : CtrlFields) (s : State) : Result := startWith 7 f s

/-- CFG: stores the fields without starting a command (45_control.md R128); busy, IE alone (R131). -/
def execCfg (cmd : BitVec 3) (f : CtrlFields) (s : State) : Result :=
  .next (if s.busy then storeIe f.ie s else storeFields cmd f s)

/-- ABORT: busy, IE is stored and then the command is aborted (45_control.md R131, R132); idle, the abort is ignored and the
word's fields, all 0 but IE, are stored (R128; 95_test_vectors.md V75). -/
def execAbort (ie : Bool) (s : State) : Result :=
  .next (if s.busy then abortCommand (storeIe ie s) else storeFields 0 (bareFields ie) s)

/-- DONE_CLR, busy or idle (45_control.md R133). -/
def execDoneClr (s : State) : Result := .next (clearDone s)

end Sys2Proof.Machine
end

