-- ==== Sys2Proof/Machine/CurvePort.lean ====
section
/-! DEFINITION. The meanings of the CurveGroup requests: the collaborator's answer to the request, received by the controller
when that request is outstanding (spec/40_primitives.md R82 to R91, 45_control.md R135 (b)). -/

namespace Sys2Proof.Machine

open Sys2Proof

/-- The answer of CG_MUL: none where CG_ACCEPTS is false (40_primitives.md R84). -/
def cgMulAnswer (c : CurveId) (P : Pt) (k : Nat) : Option Pt :=
  if (Config.curve c).group.accepts k then some ((Config.curve c).group.mul P k) else none

/-- The answer of CG_FROM_AFFINE: none where CG_VALID is false (40_primitives.md R86). -/
def cgFromAffineAnswer (c : CurveId) (x y : Nat) : Option Pt :=
  if (Config.curve c).group.valid x y then some ((Config.curve c).group.fromAffine x y) else none

/-- The answer of CG_FN_ADD (40_primitives.md R89). -/
def fnAdd (c : CurveId) (a b : Nat) : Nat := (a + b) % Config.order c

/-- The answer of CG_FN_SUB, over the integers (40_primitives.md R90). -/
def fnSub (c : CurveId) (a b : Nat) : Nat := intMod ((a : Int) - (b : Int)) (Config.order c)

/-- The answer of CG_FN_MUL (40_primitives.md R91). -/
def fnMul (c : CurveId) (a b : Nat) : Nat := a * b % Config.order c

/-- CG_BASE (40_primitives.md R83). -/
def execCgBase (c : CurveId) (s : State) : Result :=
  receive (curveGroupReq c 0 []) s (afterBase (Config.curve c).group.base)

/-- CG_MUL (40_primitives.md R84). -/
def execCgMul (c : CurveId) (P : Pt) (k : Nat) (s : State) : Result :=
  receive (curveGroupReq c 1 [.point P, .nat k]) s (afterMul (cgMulAnswer c P k))

/-- CG_ADD (40_primitives.md R85). -/
def execCgAdd (c : CurveId) (P Q : Pt) (s : State) : Result :=
  receive (curveGroupReq c 2 [.point P, .point Q]) s (afterAdd ((Config.curve c).group.add P Q))

/-- CG_FROM_AFFINE (40_primitives.md R86). -/
def execCgFromAffine (c : CurveId) (x y : Nat) (s : State) : Result :=
  receive (curveGroupReq c 3 [.nat x, .nat y]) s (afterFromAffine (cgFromAffineAnswer c x y))

/-- CG_IS_ID: `P == O` (40_primitives.md R87, CG_ID_LAW of R92). -/
def execCgIsId (c : CurveId) (P : Pt) (s : State) : Result :=
  receive (curveGroupReq c 4 [.point P]) s (afterIsId (P == .infinity))

/-- CG_TO_AFFINE: the model faults UNREACHABLE for `O` (40_primitives.md R88). -/
def execCgToAffine (c : CurveId) (P : Pt) (s : State) : Result :=
  receive (curveGroupReq c 5 [.point P]) s fun s =>
    match P with
    | .infinity => .fault .unreachable
    | .finite h =>
      afterToAffine c ((Config.curve c).group.toAffine (.finite h)).1 ((Config.curve c).group.toAffine (.finite h)).2 s

/-- CG_FN_ADD (40_primitives.md R89). -/
def execCgFnAdd (c : CurveId) (a b : Nat) (s : State) : Result :=
  receive (curveGroupReq c 6 [.nat a, .nat b]) s (afterFnAdd (fnAdd c a b))

/-- CG_FN_SUB (40_primitives.md R90). -/
def execCgFnSub (c : CurveId) (a b : Nat) (s : State) : Result :=
  receive (curveGroupReq c 7 [.nat a, .nat b]) s (afterFnSub c (fnSub c a b))

/-- CG_FN_MUL (40_primitives.md R91). -/
def execCgFnMul (c : CurveId) (a b : Nat) (s : State) : Result :=
  receive (curveGroupReq c 8 [.nat a, .nat b]) s (afterFnMul (fnMul c a b))

end Sys2Proof.Machine
end

