-- ==== Sys2Proof/Machine/DigestPort.lean ====
section
/-! DEFINITION. The meanings of the DigestEngine requests and of the entropy request (spec/40_primitives.md R93 to R95,
45_control.md R135 (b)). -/

namespace Sys2Proof.Machine

open Sys2Proof

/-- DE_HASH (40_primitives.md R93). -/
def execDeHash (m : Bytes) (s : State) : Result :=
  receive (digestReq 0 [.bytes m]) s (afterHash (Config.hash m))

/-- DE_STRETCH (40_primitives.md R94). -/
def execDeStretch (key b : Bytes) (s : State) : Result :=
  receive (digestReq 1 [.bytes key, .bytes b]) s (afterStretch (Config.stretch key b))

/-- The bytes of a draw: a free value at the draw counter (00_scope.md R11, 40_primitives.md R95). -/
def drawnBytes (m : Nat) (s : State) : Bytes := List.ofFn (Config.entropyDraw s.draws m)

/-- ENT_DRAW (40_primitives.md R95). -/
def execEntDraw (m : Nat) (s : State) : Result :=
  receive (entropyReq 0 [.nat m]) s (afterDraw (drawnBytes m s))

end Sys2Proof.Machine
end

