-- ==== Sys2Proof/Machine/Dispatch.lean ====
section
/-! DEFINITION. The meaning of every row of spec/opcode_table.json, one arm each. -/

namespace Sys2Proof.Machine

open Sys2Proof

def exec (i : Instr) (s : State) : Host.Outcome State Fault Refusal :=
  match i with
  | .pubkey f => Sys2Proof.Machine.execPubkey f s
  | .genk f => Sys2Proof.Machine.execGenk f s
  | .sign f => Sys2Proof.Machine.execSign f s
  | .verify f => Sys2Proof.Machine.execVerify f s
  | .reservedCmd0 f => Sys2Proof.Machine.execReservedCmd0 f s
  | .reservedCmd5 f => Sys2Proof.Machine.execReservedCmd5 f s
  | .reservedCmd6 f => Sys2Proof.Machine.execReservedCmd6 f s
  | .reservedCmd7 f => Sys2Proof.Machine.execReservedCmd7 f s
  | .cfg cmd f => Sys2Proof.Machine.execCfg cmd f s
  | .abort ie => Sys2Proof.Machine.execAbort ie s
  | .doneClr => Sys2Proof.Machine.execDoneClr s
  | .cgBase c => Sys2Proof.Machine.execCgBase c s
  | .cgMul c P k => Sys2Proof.Machine.execCgMul c P k s
  | .cgAdd c P Q => Sys2Proof.Machine.execCgAdd c P Q s
  | .cgFromAffine c x y => Sys2Proof.Machine.execCgFromAffine c x y s
  | .cgIsId c P => Sys2Proof.Machine.execCgIsId c P s
  | .cgToAffine c P => Sys2Proof.Machine.execCgToAffine c P s
  | .cgFnAdd c a b => Sys2Proof.Machine.execCgFnAdd c a b s
  | .cgFnSub c a b => Sys2Proof.Machine.execCgFnSub c a b s
  | .cgFnMul c a b => Sys2Proof.Machine.execCgFnMul c a b s
  | .deHash m => Sys2Proof.Machine.execDeHash m s
  | .deStretch key b => Sys2Proof.Machine.execDeStretch key b s
  | .entDraw m => Sys2Proof.Machine.execEntDraw m s

end Sys2Proof.Machine
end

