-- ==== Sys2Proof/Machine/Step.lean ====
section
/-! DEFINITION. One step of the machine: the next event of the schedule, and the instruction it carries if it carries one. -/

namespace Sys2Proof.Machine

open Sys2Proof

/-- One step. A transaction of the opcode table is decoded and run; every other event is the work of Machine/Bus.lean. -/
def step (s : State) : Host.Outcome State Fault Refusal :=
  match fetch s with
  | some t =>
    match decode t with
    | .ok i => exec i (takeEvent s)
    | .error _ => runUndecoded t (takeEvent s)
  | none => runEvent s

/-- `s` with the transaction of a number of the opcode table as what the next step performs: a CTRL word is the next host write,
written in the mode its row names (30_encoding.md R71); a port request is the outstanding one, awaited by the controller. -/
def State.withFetchWord (s : State) (nbits w : Nat) : State :=
  match tableTransaction nbits w with
  | some (.ctrlWord busy v) =>
    { s with phase := if busy then .run else .idle, events := .write .four ctrlOffset v :: s.events }
  | some (.statusWord v) => { s with events := .write .four statusOffset v :: s.events }
  | some (.portReq r) =>
    { s with phase := .run, site := siteOfOp (reqOp r.word), port := some r, events := .controller :: s.events }
  | none => s

end Sys2Proof.Machine
end

