-- ==== Sys2Proof/Machine/Protocol.lean ====
section
/-! DEFINITION. Each command as a function of its configuration and operands (spec/45_control.md R137): the clear form of what
the controller computes over many steps. The curve and the hash are arguments, so that the functions can be read, and claims
made, for every configuration. -/

namespace Sys2Proof.Machine

open Sys2Proof

/-- PUBKEY: the bytes of the public key of `d`, or the error (41_pubkey.md R97). -/
def pubkeyResult {c : CurveId} (v : Curve c) (d : Nat) : Except ErrCode Bytes :=
  if v.group.accepts d then
    if v.group.mul v.group.base d = .infinity then .error .infinity
    else .ok (encPub c (v.group.toAffine (v.group.mul v.group.base d)).1 (v.group.toAffine (v.group.mul v.group.base d)).2)
  else .error .invalidScalar

/-- The bytes of S0 for an x-coordinate (43_sign.md R114). -/
def s0Bytes (c : CurveId) (hash : Bytes → Bytes) (oid dig : Bytes) (x : Nat) : Bytes := truncS0 c (hash (hinS c oid x dig))

/-- The signing equation, over the integers (43_sign.md R115). -/
def signingEquation (c : CurveId) (n : Nat) (k e s0n d : Nat) : Nat :=
  intMod ((k : Int) - (e : Int) - ((s0n : Int) + (wOf c : Int)) * (d : Int)) n

/-- SIGN with the one-time key bytes `kb`: the bytes of the signature, or the error (43_sign.md R113 to R116). -/
def signResult {c : CurveId} (v : Curve c) (hash : Bytes → Bytes) (oid dig kb : Bytes) (d : Nat) : Except ErrCode Bytes :=
  if v.group.accepts (leNat kb) then
    let R := v.group.mul v.group.base (leNat kb)
    if R = .infinity then .error .infinity
    else
      let s0 := s0Bytes c hash oid dig (v.group.toAffine R).1
      .ok (encSig c s0 (signingEquation c v.record.n (leNat kb) (leNat dig) (leNat s0) d))
  else .error .invalidScalar

/-- The reconstructed point R' = u·G + v·Q, none where a scalar is rejected (44_verify.md R124). -/
def verifyPoint {c : CurveId} (v : Curve c) (Q : Pt) (u w : Nat) : Option Pt :=
  if v.group.accepts w then
    if u = 0 then some (v.group.mul Q w)
    else if v.group.accepts u then some (v.group.add (v.group.mul v.group.base u) (v.group.mul Q w))
    else none
  else none

/-- VERIFY: whether the signature is verified, or the error (44_verify.md R119 to R126). -/
def verifyResult {c : CurveId} (v : Curve c) (hash : Bytes → Bytes) (oid dig sig pub : Bytes) : Except ErrCode Bool :=
  if sig.length ≠ sigLenOf c then .ok false
  else
    let s0 := (decSig c sig).1
    let s1 := (decSig c sig).2
    if v.record.n ≤ s1 then .ok false
    else if pub.length ≠ pubLenOf c ∨ pub.head? ≠ some pubTag then .error .invalidPoint
    else
      let q := decCoordinates c pub.tail
      if v.group.valid q.1 q.2 then
        match verifyPoint v (v.group.fromAffine q.1 q.2) ((s1 + leNat dig) % v.record.n) ((leNat s0 + wOf c) % v.record.n) with
        | none => .error .invalidScalar
        | some R =>
          if R = .infinity then .ok false else .ok (s0Bytes c hash oid dig (v.group.toAffine R).1 == s0)
      else .error .invalidPoint

/-- The candidates of the nonce loop: the digest, and its stretches under `theta` (42_genk.md R103, R104). -/
def nonceCandidate (theta dig : Bytes) : Nat → Bytes
  | 0 => dig
  | j + 1 => Config.stretch theta (nonceCandidate theta dig j)

/-- ITER_COUNT after `j` iterations: saturating (10_state.md R29). -/
def iterCountAfter (j : Nat) : BitVec 32 := BitVec.ofNat 32 (min j 0xFFFFFFFF)

end Sys2Proof.Machine
end

