-- ==== Sys2Proof/Safety.lean ====
section
/-! DEFINITION. What holds of every state of a run from reset: the terms in which the safety claims are made. -/

namespace Sys2Proof.Machine

open Sys2Proof

/-- The buffer bytes and their marks are in canonical form, and a marked byte is a listed byte (10_state.md R32). -/
structure MemoryOk (s : State) : Prop where
  cells : Memory.wf s.mem
  marks : Marks.wf s.marks
  listed : ∀ a, isMarked s.marks a = true → ∃ b, memRead s.mem a = some b

/-- Every listed byte and every mark stands at a buffer offset (10_state.md R30). -/
def InBuffers (s : State) : Prop :=
  (∀ x ∈ s.mem, inBuffers x.1 = true) ∧ ∀ a ∈ s.marks, inBuffers a = true

/-- STATUS while busy, and VALID only without an error (10_state.md R22, 45_control.md R130, R133). -/
structure StatusOk (s : State) : Prop where
  busy : s.busy = true → s.done = false ∧ s.valid = false ∧ s.err = .none
  valid : s.valid = true → s.err = .none

/-- Which command can stand at a place of the rules (41_pubkey.md R97, 42_genk.md R107, 43_sign.md R111, R116, 44_verify.md
R119). -/
def commandAt (k : Ctrl) : Site → Prop
  | .entry => reservedCmd k.cmd = false
  | .pkBase | .pkMul | .pkIsId | .pkToAffine => k.cmd = 1
  | .nonceHash | .nonceStretch => k.cmd = 2 ∨ (k.cmd = 3 ∧ k.ksup = false ∧ k.mode = false)
  | .sgDraw => k.cmd = 3 ∧ k.ksup = false ∧ k.mode = true
  | .sgBase | .sgMul | .sgIsId | .sgToAffine | .sgHash | .sgAddW | .sgMulD | .sgSubE | .sgSubT => k.cmd = 3
  | .vfFromAffine | .vfAddE | .vfAddW | .vfBase | .vfMulQ | .vfMulG | .vfAdd | .vfIsId | .vfToAffine | .vfHash => k.cmd = 4

/-- The port requests that a place of the rules sends. -/
def sentAt (c : CurveId) (r : Scratch) : Site → Instr → Prop
  | .pkBase, .cgBase c' | .sgBase, .cgBase c' | .vfBase, .cgBase c' => c' = c
  | .pkMul, .cgMul c' _ _ | .sgMul, .cgMul c' _ _ | .vfMulQ, .cgMul c' _ _ | .vfMulG, .cgMul c' _ _ => c' = c
  | .vfAdd, .cgAdd c' _ _ => c' = c
  | .vfFromAffine, .cgFromAffine c' _ _ => c' = c
  | .pkIsId, .cgIsId c' P | .sgIsId, .cgIsId c' P | .vfIsId, .cgIsId c' P => c' = c ∧ P = r.ptR
  | .pkToAffine, .cgToAffine c' P | .sgToAffine, .cgToAffine c' P | .vfToAffine, .cgToAffine c' P =>
    c' = c ∧ P ≠ .infinity
  | .sgAddW, .cgFnAdd c' _ _ | .vfAddE, .cgFnAdd c' _ _ | .vfAddW, .cgFnAdd c' _ _ => c' = c
  | .sgMulD, .cgFnMul c' _ _ => c' = c
  | .sgSubE, .cgFnSub c' _ _ | .sgSubT, .cgFnSub c' _ _ => c' = c
  | .nonceHash, .deHash _ | .sgHash, .deHash _ | .vfHash, .deHash _ => True
  | .nonceStretch, .deStretch key b => key.length = Config.hlen ∧ b.length = c.len
  | .sgDraw, .entDraw m => m = c.len
  | _, _ => False

/-- The places that ask for affine coordinates. -/
def asksAffine : Site → Bool
  | .pkToAffine | .sgToAffine | .vfToAffine => true
  | _ => false

/-- What holds of the controller while a command runs on the curve `c`. -/
structure RunningOk (c : CurveId) (s : State) : Prop where
  /-- the command and its lengths passed the START checks and are locked since (20_memory.md R49) -/
  curve : curveOfCode s.ctrl.curve = some c
  command : commandAt s.ctrl s.site
  lengths : lengthsOk c s = true
  /-- an outstanding request is the one its place sends (10_state.md R36, 40_primitives.md R82) -/
  request : ∀ r, s.port = some r → ∃ i, encode i = .portReq r ∧ sentAt c s.scratch s.site i
  /-- PHASE (10_state.md R33) -/
  waiting : s.phase = .waitEnt ↔ s.site = .sgDraw
  looping : s.phase = .loop ↔ s.site = .nonceStretch
  /-- THETA and CAND inside the loop (10_state.md R34) -/
  nonce : s.site = .nonceStretch → s.theta.length = Config.hlen ∧ s.cand.length = c.len
  /-- coordinates are asked of a point that was tested (40_primitives.md R88) -/
  affine : asksAffine s.site = true → s.scratch.ptR ≠ .infinity
  s0 : s.scratch.s0.length ≤ c.half

/-- The controller: nothing is live while idle (10_state.md R33 to R36); a running command is as `RunningOk` says. -/
structure ControllerOk (s : State) : Prop where
  idle : s.phase = .idle → s.site = .entry ∧ s.port = none ∧ s.scratch = Scratch.none
  running : s.phase ≠ .idle → ∃ c, RunningOk c s

/-- A stop that the spec gives no command: every fault but UNWRITTEN_OPERAND, and every refusal (60_exceptions.md R142). -/
def badStop : Result → Bool
  | .fault .unreachable | .fault .offProtocol | .refused _ => true
  | _ => false

end Sys2Proof.Machine
end

