-- ==== Sys2Proof/Certificates/Slice0/Obligations.lean ====
section
/-! DEFINITION. The statements for the provers, file by file of spec/. -/

open Sys2Proof Sys2Proof.Machine

/-! ### Encoding (30_encoding.md) -/

/-- R58 to R62, R65, R66: decoding the transaction that carries an instruction gives that instruction, with every operand at
every value. -/
def Obligations.DecodeEncodeAgree : Prop :=
  ∀ i : Instr, decode (encode i) = .ok i

/-- R65, R66: every port request the decoder accepts is the one request that carries the decoded instruction, so no bit of
its word and no operand is dropped. -/
def Obligations.PortRequestsHaveOneMeaning : Prop :=
  ∀ (r : PortReq) (i : Instr), decodePort r = .ok i → encode i = .portReq r

/-- R62, R67: an idle CTRL word is decoded from its bits 10:2 and 0 alone, a busy one from bits 10 and 1 alone; bits 31:11 are
ignored in both. -/
def Obligations.CtrlWordIgnoredBits : Prop :=
  ∀ w : Word, decodeCtrl false w = decodeCtrl false (w &&& 0x7FD) ∧ decodeCtrl true w = decodeCtrl true (w &&& 0x402)

/-- Words written out from R58, R67 and R70 decode to their rows: every word of 95_test_vectors.md V50 to V58, and one request of each
port. -/
def Obligations.SpecWordsDecode : Prop :=
  decode (.ctrlWord false 0x00000005) = .ok (.pubkey ⟨0, false, false, false, false⟩) ∧
  decode (.ctrlWord false 0x00000029) = .ok (.genk ⟨1, false, false, false, false⟩) ∧
  decode (.ctrlWord false 0x000004CD) = .ok (.sign ⟨2, true, false, false, true⟩) ∧
  decode (.ctrlWord false 0x0000010D) = .ok (.sign ⟨0, false, true, false, false⟩) ∧
  decode (.ctrlWord false 0x00000211) = .ok (.verify ⟨0, false, false, true, false⟩) ∧
  decode (.ctrlWord false 0x0000008C) = .ok (.cfg 3 ⟨0, true, false, false, false⟩) ∧
  decode (.ctrlWord true 0x00000002) = .ok (.abort false) ∧
  decode (.ctrlWord true 0x00000402) = .ok (.abort true) ∧
  decode (.statusWord 0x00000002) = .ok .doneClr ∧
  decode (.ctrlWord false 0x00000001) = .ok (.reservedCmd0 ⟨0, false, false, false, false⟩) ∧
  decode (.ctrlWord false 0x00000015) = .ok (.reservedCmd5 ⟨0, false, false, false, false⟩) ∧
  decode (.ctrlWord false 0x00000019) = .ok (.reservedCmd6 ⟨0, false, false, false, false⟩) ∧
  decode (.ctrlWord false 0x0000001D) = .ok (.reservedCmd7 ⟨0, false, false, false, false⟩) ∧
  decode (.portReq ⟨.curveGroup, 0b100001, [.point (.finite 7), .nat 5]⟩) = .ok (.cgMul .bign256 (.finite 7) 5) ∧
  decode (.portReq ⟨.digestEngine, 0b000000, [.bytes [1, 2]]⟩) = .ok (.deHash [1, 2]) ∧
  decode (.portReq ⟨.entropy, 0b000000, [.nat 32]⟩) = .ok (.entDraw 32)

/-! ### Steps -/

/-- R62, R82, R135: when the next transaction decodes to an instruction, the step runs that instruction. What the step does around it, the
second half, is no rule of the spec but the model's own bookkeeping: it takes the event from the schedule (log entry 5), moves the epoch
on (log entry 6) and acknowledges a write in `response` (log entry 17). -/
def Obligations.StepRunsDecodedInstruction : Prop :=
  ∀ (s : State) (t : Transaction) (i : Instr), fetch s = some t → decode t = .ok i →
    step s = exec i (takeEvent s) ∧
    takeEvent s = { s with
      events := s.events.tail
      epoch := s.epoch + 1
      response := match s.events with
        | .write _ _ _ :: _ => .written
        | _ => s.response }

/-- Which transaction is next: a 4-byte write of CTRL or STATUS carries its data word, decoded by BUSY (30_encoding.md R62); a
controller step answers the outstanding CurveGroup or DigestEngine request, and only an entropy arrival answers an entropy
request (40_primitives.md R82, 45_control.md R135). With no request outstanding a busy
controller step carries no transaction: it is the issue step `advance` (R135 (a)). A controller step does the same whatever the schedule
holds after it, so that what the other statements say of a controller step with an empty schedule they say of one between host accesses.
That a step with an empty schedule is a controller step (the case `s.events = []`) is the model's choice (log entry 5). -/
def Obligations.FetchIsTheNextTransaction : Prop :=
  ∀ (s : State) (v : Word) (r : PortReq) (es : List Event),
    (s.events = .write .four 0x004 v :: es → fetch s = some (.ctrlWord s.busy v)) ∧
    (s.events = .write .four 0x008 v :: es → fetch s = some (.statusWord v)) ∧
    (s.busy = true → s.port = some r → (s.events = [] ∨ s.events = .controller :: es) →
      fetch s = if r.port = .entropy then none else some (.portReq r)) ∧
    (s.busy = true → s.port = some r → s.events = .entropy :: es →
      fetch s = if r.port = .entropy then some (.portReq r) else none) ∧
    (s.busy = true → s.port = none → (s.events = [] ∧ es = [] ∨ s.events = .controller :: es) →
      fetch s = none ∧ step s = advance { s with events := es, epoch := s.epoch + 1 }) ∧
    (s.busy = true → (∀ q, s.port = some q → q.port ≠ .entropy) → s.events = .controller :: es →
      (∀ t, step { s with events := [] } = .next t → step s = .next { t with events := es }) ∧
      (∀ f, step { s with events := [] } = .fault f → step s = .fault f))

/-! ### Host command words (45_control.md, 41 to 44) -/

/-- R97, R98, R130: PUBKEY started while idle on one of the three curves is accepted whatever the length registers, MODE, KSUP and
OIDSEL hold. The whole next state is given. -/
def Obligations.PubkeyStartAccepted : Prop :=
  ∀ (s : State) (f : CtrlFields) (c : CurveId), s.busy = false → curveOfCode f.curve = some c →
    exec (.pubkey f) s = .next { s with
      ctrl := ⟨1, f.curve, f.mode, f.ksup, f.oidsel, f.ie⟩
      phase := .run, site := .entry, done := false, valid := false, err := .none, iterCount := 0 }

/-- R108, R129, R130: GENK started while idle is accepted exactly if DIGEST_LEN = L, T_LEN ≤ 64, and OID_LEN ≤ 32 where OIDSEL = 1;
otherwise it is rejected with BAD_LENGTH in the same step and nothing else changes. -/
def Obligations.GenkStartChecksLengths : Prop :=
  ∀ (s : State) (f : CtrlFields) (c : CurveId), s.busy = false → curveOfCode f.curve = some c →
    exec (.genk f) s = .next (
      if s.digestLen.toNat = c.len ∧ s.tLen.toNat ≤ 64 ∧ (f.oidsel = true → s.oidLen.toNat ≤ 32) then
        { s with
          ctrl := ⟨2, f.curve, f.mode, f.ksup, f.oidsel, f.ie⟩
          phase := .run, site := .entry, done := false, valid := false, err := .none, iterCount := 0 }
      else
        { s with ctrl := ⟨2, f.curve, f.mode, f.ksup, f.oidsel, f.ie⟩, err := .badLength, valid := false, done := true })

/-- R117, R129, R130: SIGN started while idle is accepted exactly if DIGEST_LEN ≤ 64, DIGEST_LEN = L where the nonce loop will run
(KSUP = 0 and MODE = 0), and OID_LEN ≤ 32 where OIDSEL = 1. -/
def Obligations.SignStartChecksLengths : Prop :=
  ∀ (s : State) (f : CtrlFields) (c : CurveId), s.busy = false → curveOfCode f.curve = some c →
    exec (.sign f) s = .next (
      if s.digestLen.toNat ≤ 64 ∧ (f.ksup = false ∧ f.mode = false → s.digestLen.toNat = c.len) ∧
          (f.oidsel = true → s.oidLen.toNat ≤ 32) then
        { s with
          ctrl := ⟨3, f.curve, f.mode, f.ksup, f.oidsel, f.ie⟩
          phase := .run, site := .entry, done := false, valid := false, err := .none, iterCount := 0 }
      else
        { s with ctrl := ⟨3, f.curve, f.mode, f.ksup, f.oidsel, f.ie⟩, err := .badLength, valid := false, done := true })

/-- R127, R129, R130: VERIFY started while idle is accepted exactly if DIGEST_LEN ≤ 64, and OID_LEN ≤ 32 where OIDSEL = 1; SIG_LEN and
PUB_LEN are not checked. -/
def Obligations.VerifyStartChecksLengths : Prop :=
  ∀ (s : State) (f : CtrlFields) (c : CurveId), s.busy = false → curveOfCode f.curve = some c →
    exec (.verify f) s = .next (
      if s.digestLen.toNat ≤ 64 ∧ (f.oidsel = true → s.oidLen.toNat ≤ 32) then
        { s with
          ctrl := ⟨4, f.curve, f.mode, f.ksup, f.oidsel, f.ie⟩
          phase := .run, site := .entry, done := false, valid := false, err := .none, iterCount := 0 }
      else
        { s with ctrl := ⟨4, f.curve, f.mode, f.ksup, f.oidsel, f.ie⟩, err := .badLength, valid := false, done := true })

/-- R67 (1), R129: a START with CMD 0, 5, 6 or 7, or of any command with CURVE = 3, is rejected with ILLEGAL_CMD whatever the lengths;
the stored field values remain as written. -/
def Obligations.IllegalStartRejected : Prop :=
  ∀ (s : State) (f g : CtrlFields), s.busy = false → g.curve = 3 →
    let rejected := fun (cmd : BitVec 3) (f : CtrlFields) =>
      { s with ctrl := ⟨cmd, f.curve, f.mode, f.ksup, f.oidsel, f.ie⟩, err := .illegalCmd, valid := false, done := true }
    exec (.reservedCmd0 f) s = .next (rejected 0 f) ∧ exec (.reservedCmd5 f) s = .next (rejected 5 f) ∧
    exec (.reservedCmd6 f) s = .next (rejected 6 f) ∧ exec (.reservedCmd7 f) s = .next (rejected 7 f) ∧
    exec (.pubkey g) s = .next (rejected 1 g) ∧ exec (.genk g) s = .next (rejected 2 g) ∧
    exec (.sign g) s = .next (rejected 3 g) ∧ exec (.verify g) s = .next (rejected 4 g)

/-- R128: CFG stores the six fields and nothing else. -/
def Obligations.CfgStoresFields : Prop :=
  ∀ (s : State) (cmd : BitVec 3) (f : CtrlFields), s.busy = false →
    exec (.cfg cmd f) s = .next { s with ctrl := ⟨cmd, f.curve, f.mode, f.ksup, f.oidsel, f.ie⟩ }

/-- R131: any word written to CTRL while busy stores IE from its bit 10 and, if its bit 1 is set, aborts; every other bit is ignored, a
START among them, and the write is acknowledged. What the discarded registers hold afterwards is the model's choice (log entries 2, 15). -/
def Obligations.BusyCtrlWriteStoresIeAndAborts : Prop :=
  ∀ (s : State) (v : Word) (es : List Event), s.busy = true → s.events = .write .four 0x004 v :: es →
    let stored := { s with
      ctrl := { s.ctrl with ie := v.getLsbD 10 }, events := es, epoch := s.epoch + 1, response := .written }
    step s = .next (
      if v.getLsbD 1 = true then
        { stored with
          phase := .idle, site := .entry, port := none, theta := [], cand := [], scratch := Scratch.none
          done := true, err := .aborted, valid := false }
      else stored)

/-- R131, R132: ABORT while busy stores IE and ends the command with ABORTED: the request, THETA, CAND, KB and the scratch registers
are discarded; no buffer, no length register and not ITER_COUNT changes. What the discarded registers hold afterwards is the model's
choice (log entries 2, 15). -/
def Obligations.AbortEndsRunningCommand : Prop :=
  ∀ (s : State) (ie : Bool), s.busy = true →
    exec (.abort ie) s = .next { s with
      ctrl := { s.ctrl with ie := ie }
      phase := .idle, site := .entry, port := none, theta := [], cand := [], scratch := Scratch.none
      done := true, err := .aborted, valid := false }

/-- R133: the DONE clear changes DONE alone, busy or idle, and so deasserts IRQ; while busy it has no effect, since DONE is already 0 (R22,
`StatusOk`, which StepKeepsStatusLegal keeps); of a word written to STATUS only bit 1 has an effect. (The schedule, the epoch and the
response are the model's: log entries 5, 6, 17.) -/
def Obligations.DoneClearKeepsTheRest : Prop :=
  ∀ (s : State) (v : Word) (es : List Event),
    exec .doneClr s = .next { s with done := false } ∧ ({ s with done := false } : State).irq = false ∧
    (s.busy = true → StatusOk s → exec .doneClr s = .next s) ∧
    (s.events = .write .four 0x008 v :: es →
      step s = .next { s with
        done := s.done && !v.getLsbD 1, events := es, epoch := s.epoch + 1, response := .written })

/-- R129, R132, R134, R140, R146: what each end of a command leaves, for every error code: ERR, VALID = 0 with an error, DONE = 1 and PHASE =
IDLE, and no output and no other register changed; a rejection never becomes busy. R38, R144: each of them asserts IRQ exactly if IE = 1;
an accepted START and reset deassert it. What the discarded registers hold afterwards is the model's choice (log entries 2, 15). -/
def Obligations.InterruptFollowsDone : Prop :=
  ∀ (s : State) (v : Bool) (code : ErrCode),
    raiseErr code s = { s with
      phase := .idle, site := .entry, port := none, theta := [], cand := [], scratch := Scratch.none
      done := true, err := code, valid := false } ∧
    finishCommand v s = { s with
      phase := .idle, site := .entry, port := none, theta := [], cand := [], scratch := Scratch.none
      done := true, err := .none, valid := v } ∧
    abortCommand s = raiseErr .aborted s ∧
    rejectStart code s = { s with done := true, err := code, valid := false } ∧
    (finishCommand v s).irq = s.ctrl.ie ∧ (raiseErr code s).irq = s.ctrl.ie ∧ (abortCommand s).irq = s.ctrl.ie ∧
    (rejectStart code s).irq = s.ctrl.ie ∧ (acceptStart s).irq = false ∧ (resetBlock s).irq = false

/-! ### The register window (10_state.md, 20_memory.md, 60_exceptions.md) -/

/-- R21, R140: the fields of STATUS at their bits, and the error codes. -/
def Obligations.StatusWordFields : Prop :=
  ∀ s : State,
    (statusWord s).getLsbD 0 = decide (s.phase ≠ .idle) ∧ (statusWord s).getLsbD 1 = s.done ∧
    (statusWord s).getLsbD 2 = s.valid ∧ (statusWord s).getLsbD 3 = false ∧
    (statusWord s).extractLsb' 8 24 = 0 ∧
    (statusWord s).extractLsb' 4 4 = (match s.err with
      | .none => 0 | .illegalCmd => 1 | .badLength => 2 | .invalidPoint => 3
      | .invalidScalar => 4 | .infinity => 5 | .nonceExhausted => 6 | .aborted => 7)

/-- R43, R44, R45, R49, R141: a write is refused in exactly four cases: misaligned, of the wrong width for the register range, touching
an unmapped byte, or refused by the busy lock; a read in exactly the first three. That ITER_COUNT (0x024 to 0x027) is outside the
busy lock is the model's reading of R49 (log entry 7). -/
def Obligations.BusErrorCases : Prop :=
  ∀ (s : State) (w : Width) (off : BitVec 12),
    let o := off.toNat
    let unmapped := fun a : Nat =>
      (0x028 ≤ a ∧ a ≤ 0x0FF) ∨ (0x220 ≤ a ∧ a ≤ 0x23F) ∨ (0x2A0 ≤ a ∧ a ≤ 0x2FF) ∨ 0x384 ≤ a
    let static := o % widthBytes w ≠ 0 ∨ (o < 0x028 ∧ widthBytes w ≠ 4) ∨ ∃ i, i < widthBytes w ∧ unmapped (o + i)
    (refusesAccess w off = true ↔ static) ∧
    (refusesWrite w off s = true ↔
      static ∨ (s.busy = true ∧
        ((0x00C ≤ o ∧ o ≤ 0x023) ∨ (0x100 ≤ o ∧ o ≤ 0x21F) ∨ (0x240 ≤ o ∧ o ≤ 0x29F) ∨ (0x300 ≤ o ∧ o ≤ 0x383))))

/-- R46, R141: a refused access gives a bus error and changes nothing else: no register, no STATUS bit, no byte. (The schedule and the
epoch are the model's.) -/
def Obligations.RefusedAccessChangesNothing : Prop :=
  ∀ (s : State) (w : Width) (off : BitVec 12) (v : Word) (es : List Event),
    (s.events = .write w off v :: es → refusesWrite w off s = true →
      step s = .next { s with events := es, epoch := s.epoch + 1, response := .busError }) ∧
    (s.events = .read w off :: es → refusesAccess w off = true →
      step s = .next { s with events := es, response := .busError })

/-- R19, R23 to R29, R47: a 4-byte write of a length register stores bits 7:0, of NONCE_CAP all 32, while idle; a write of ID or
ITER_COUNT is ignored in any mode. The rest of the state is unchanged. That a write of ITER_COUNT (0x024) is ignored and acknowledged while
busy too, and not refused by the busy lock, is the model's reading of R49, whose range 0x00C to 0x027 says otherwise (log entry 7). (The
schedule, the epoch and the response are the model's: log entries 5, 6, 17.) -/
def Obligations.RegisterWrites : Prop :=
  ∀ (s : State) (v : Word) (es : List Event),
    let after := fun t : State => { t with events := es, epoch := s.epoch + 1, response := .written }
    (s.events = .write .four 0x000 v :: es → step s = .next (after s)) ∧
    (s.events = .write .four 0x024 v :: es → step s = .next (after s)) ∧
    (s.busy = false →
      (s.events = .write .four 0x00C v :: es → step s = .next (after { s with digestLen := v.setWidth 8 })) ∧
      (s.events = .write .four 0x010 v :: es → step s = .next (after { s with tLen := v.setWidth 8 })) ∧
      (s.events = .write .four 0x014 v :: es → step s = .next (after { s with oidLen := v.setWidth 8 })) ∧
      (s.events = .write .four 0x018 v :: es → step s = .next (after { s with sigLen := v.setWidth 8 })) ∧
      (s.events = .write .four 0x01C v :: es → step s = .next (after { s with pubLen := v.setWidth 8 })) ∧
      (s.events = .write .four 0x020 v :: es → step s = .next (after { s with nonceCap := v })))

/-- R18 to R29, R46: what a 4-byte read of each register gives, busy or idle; it changes nothing but the response. The word of CTRL has its
fields at their bits: START and ABORT read 0, CMD 4:2, CURVE 6:5, MODE 7, KSUP 8, OIDSEL 9, IE 10, and bits 31:11 read 0; the word of
STATUS is that of StatusWordFields. -/
def Obligations.RegisterReads : Prop :=
  ∀ (s : State) (es : List Event),
    let gives := fun (off : BitVec 12) (v : Word) =>
      s.events = .read .four off :: es → step s = .next { s with events := es, response := .data v }
    gives 0x000 0x42474E01 ∧ gives 0x004 (ctrlView s) ∧ gives 0x008 (statusWord s) ∧
    gives 0x00C (0#24 ++ s.digestLen) ∧ gives 0x010 (0#24 ++ s.tLen) ∧ gives 0x014 (0#24 ++ s.oidLen) ∧
    gives 0x018 (0#24 ++ s.sigLen) ∧ gives 0x01C (0#24 ++ s.pubLen) ∧ gives 0x020 s.nonceCap ∧ gives 0x024 s.iterCount ∧
    (ctrlView s).getLsbD 0 = false ∧ (ctrlView s).getLsbD 1 = false ∧
    (ctrlView s).extractLsb' 2 3 = s.ctrl.cmd ∧ (ctrlView s).extractLsb' 5 2 = s.ctrl.curve ∧
    (ctrlView s).getLsbD 7 = s.ctrl.mode ∧ (ctrlView s).getLsbD 8 = s.ctrl.ksup ∧
    (ctrlView s).getLsbD 9 = s.ctrl.oidsel ∧ (ctrlView s).getLsbD 10 = s.ctrl.ie ∧
    (ctrlView s).extractLsb' 11 21 = 0

/-- R41, R47: an aligned write of 1, 2 or 4 buffer bytes while idle stores lane i of the data word at offset o + i; every other offset
reads as before and no other state changes. The accesses that touch a pad byte are those of PadBytesReadZero. (The schedule, the epoch and
the response are the model's: log entries 5, 6, 17.) -/
def Obligations.BufferWriteStoresLanes : Prop :=
  ∀ (s : State) (w : Width) (off : BitVec 12) (v : Word) (es : List Event), s.busy = false →
    s.events = .write w off v :: es → off.toNat % widthBytes w = 0 →
    (∀ i, i < widthBytes w → inBuffers (off.toNat + i) = true) →
    ∃ t, step s = .next t ∧
      (∀ i, i < widthBytes w → readMarked t (off.toNat + i) = some (v.extractLsb' (8 * i) 8)) ∧
      (∀ a, (a < off.toNat ∨ off.toNat + widthBytes w ≤ a) → readMarked t a = readMarked s a) ∧
      t = { s with mem := t.mem, marks := t.marks, events := es, epoch := s.epoch + 1, response := .written }

/-- R31, R32, R41, R42, R46: an aligned read of 1, 2 or 4 buffer or pad bytes, busy or idle, changes nothing but the response. Lane i of its
data is the byte at offset o + i: a byte with its written mark gives its value, at every width the same; a pad byte gives 0; a byte without
its mark gives an unconstrained draw. Bytes all written are the lanes of their little-endian number. Two reads with no step in between
return the same value. That the draw is a free value at an epoch and an offset is the model's choice (log entry 6), and so is the form of
the response, a word that is 0 above the lanes of the access (log entry 17). -/
def Obligations.BufferReadGivesLanes : Prop :=
  ∀ (s : State) (w : Width) (off : BitVec 12) (es : List Event),
    s.events = .read w off :: es → off.toNat % widthBytes w = 0 →
    (∀ i, i < widthBytes w → inBuffers (off.toNat + i) = true ∨ (0x381 ≤ off.toNat + i ∧ off.toNat + i ≤ 0x383)) →
    ∃ v : Word, step s = .next { s with events := es, response := .data v } ∧
      (∀ i, i < widthBytes w → v.extractLsb' (8 * i) 8 =
        if 0x381 ≤ off.toNat + i then 0
        else (readMarked s (off.toNat + i)).getD (Config.unwrittenByte s.epoch (off.toNat + i))) ∧
      (∀ k, 8 * widthBytes w ≤ k → v.getLsbD k = false) ∧
      (∀ bs, (∀ i, i < widthBytes w → inBuffers (off.toNat + i) = true) → readBytes s off.toNat (widthBytes w) = some bs →
        v = BitVec.ofNat 32 (leNat bs)) ∧
      (∀ es', es = .read w off :: es' →
        step { s with events := es, response := .data v } = .next { s with events := es', response := .data v })

/-- R31: the pad bytes 0x381 to 0x383 read 0 and ignore writes, without a bus error, at every width that is aligned there: the halfword at
0x382 is 0, and the halfword and the word at 0x380 are PUB[128] alone, in a read and in a write. (The schedule, the epoch and the response
are the model's: log entries 5, 6, 17.) -/
def Obligations.PadBytesReadZero : Prop :=
  ∀ (s : State) (v : Word) (b : Byte) (es : List Event),
    let reads := fun (w : Width) (off : BitVec 12) (d : Word) =>
      s.events = .read w off :: es → step s = .next { s with events := es, response := .data d }
    let ignores := fun (w : Width) (off : BitVec 12) =>
      s.busy = false → s.events = .write w off v :: es →
        step s = .next { s with events := es, epoch := s.epoch + 1, response := .written }
    (∀ off : BitVec 12, 0x381 ≤ off.toNat → off.toNat ≤ 0x383 → reads .one off 0 ∧ ignores .one off) ∧
    reads .two 0x382 0 ∧ ignores .two 0x382 ∧
    (readMarked s 0x380 = some b → reads .two 0x380 (0#24 ++ b) ∧ reads .four 0x380 (0#24 ++ b)) ∧
    (∀ w : Width, s.busy = false → s.events = .write w 0x380 v :: es →
      ∃ t, step s = .next t ∧ readMarked t 0x380 = some (v.setWidth 8) ∧
        (∀ a, a ≠ 0x380 → readMarked t a = readMarked s a) ∧
        t = { s with mem := t.mem, marks := t.marks, events := es, epoch := s.epoch + 1, response := .written })

/-! ### Reset (70_reset_and_hazards.md) -/

/-- R158 (V90): what the registers read after reset; PHASE = IDLE, IRQ = 0; no byte is marked written and the pad bytes read 0; no scratch
register is live, which the model says by the values of log entry 2, and nothing is outstanding. -/
def Obligations.ResetValues : Prop :=
  (∀ o ∈ [0x004, 0x008, 0x00C, 0x010, 0x014, 0x018, 0x01C, 0x020, 0x024], readRegister State.reset o = 0) ∧
  readRegister State.reset 0x000 = 0x42474E01 ∧ State.reset.irq = false ∧ State.reset.phase = .idle ∧
  State.reset.port = none ∧ State.reset.scratch = Scratch.none ∧ (∀ a, readMarked State.reset a = none) ∧
  ∀ o ∈ [0x381, 0x382, 0x383], busByte State.reset o = 0

/-- R157: reset in any state, a busy one too, gives every register its reset value, discards the command, keeps the buffer bytes and
clears every mark; a response that arrives later is ignored. The values of THETA, CAND and scratch after reset are the model's choice
(log entry 2), and that the schedule, the last bus response and the draw counter stand outside reset too (log entries 5, 17, 19). -/
def Obligations.ResetEvent : Prop :=
  ∀ (s : State) (es : List Event),
    (s.events = .reset :: es →
      step s = .next { State.reset with
        mem := s.mem, events := es, response := s.response, draws := s.draws, epoch := s.epoch + 1 }) ∧
    (s.events = .lateResponse :: es → step s = .next { s with events := es, epoch := s.epoch + 1 })

/-! ### Port requests (40_primitives.md R83 to R95): the answer, and the controller's computation up to the next call -/

/-- R36, R132: a response to a request that is no longer outstanding is discarded. The rules say it of a response after reset or abort; that
the meaning of a port request changes nothing in any state that does not await it is the model's reading (log entry 23). -/
def Obligations.StrayResponseDiscarded : Prop :=
  ∀ (s : State) (i : Instr) (r : PortReq), encode i = .portReq r → s.port ≠ some r → exec i s = .next s

/-- R83: CG_BASE answers G_c, the point (Gx, Gy), with Gx = 0 for BIGN128; each command goes on to its multiplication. -/
def Obligations.CgBaseAnswers : Prop :=
  ∀ (s : State) (c : CurveId), s.port = some (curveGroupReq c 0 []) →
    let G := (Config.curve c).group.base
    let after := fun site : Site => { s with site := site, port := none, scratch := { s.scratch with ptG := G } }
    (s.site = .pkBase → exec (.cgBase c) s = .next (after .pkMul)) ∧
    (s.site = .sgBase → exec (.cgBase c) s = .next (after .sgMul)) ∧
    (s.site = .vfBase → exec (.cgBase c) s = .next (after .vfMulQ)) ∧
    (Config.curve c).group.toAffine G = ((Config.curve c).record.gx, (Config.curve c).record.gy) ∧
    (c = .bign128 → (Config.curve c).record.gx = 0)

/-- R84: CG_MUL answers s·P where CG_ACCEPTS holds, and raises INVALID_SCALAR where it does not. The scalar is not reduced; of a point of
order n the multiple is that of the residue, so an accepted multiple of n, 0 among them, gives O. -/
def Obligations.CgMulAnswers : Prop :=
  ∀ (s : State) (c : CurveId) (P : Pt) (k : Nat), s.port = some (curveGroupReq c 1 [.point P, .nat k]) →
    let g := (Config.curve c).group
    let sP := scalarMul g.add k P
    let after := fun (site : Site) (r : Scratch) =>
      Host.Outcome.next (φ := Fault) (ρ := Refusal)
        (if g.accepts k then { s with site := site, port := none, scratch := r } else raiseErr .invalidScalar s)
    (s.site = .pkMul → exec (.cgMul c P k) s = after .pkIsId { s.scratch with ptR := sP }) ∧
    (s.site = .sgMul → exec (.cgMul c P k) s = after .sgIsId { s.scratch with ptR := sP }) ∧
    (s.site = .vfMulG → exec (.cgMul c P k) s = after .vfAdd { s.scratch with ptA := sP }) ∧
    (s.site = .vfMulQ → s.scratch.u = 0 → exec (.cgMul c P k) s = after .vfIsId { s.scratch with ptB := sP, ptR := sP }) ∧
    (s.site = .vfMulQ → s.scratch.u ≠ 0 → exec (.cgMul c P k) s = after .vfMulG { s.scratch with ptB := sP }) ∧
    (scalarMul g.add (Config.order c) P = .infinity →
      sP = scalarMul g.add (k % Config.order c) P ∧ (k % Config.order c = 0 → sP = .infinity))

/-- R85: CG_ADD answers P + Q, with O the identity. -/
def Obligations.CgAddAnswers : Prop :=
  ∀ (s : State) (c : CurveId) (P Q : Pt), s.port = some (curveGroupReq c 2 [.point P, .point Q]) → s.site = .vfAdd →
    let g := (Config.curve c).group
    exec (.cgAdd c P Q) s = .next { s with
      site := .vfIsId, port := none, scratch := { s.scratch with ptR := g.add P Q } } ∧
    g.add .infinity P = P ∧ g.add P Q = g.add Q P ∧ g.add P (g.neg P) = .infinity

/-- R86: CG_FROM_AFFINE answers the point (x, y) where CG_VALID holds, never O and of the order n; elsewhere it raises INVALID_POINT. -/
def Obligations.CgFromAffineAnswers : Prop :=
  ∀ (s : State) (c : CurveId) (x y : Nat), s.port = some (curveGroupReq c 3 [.nat x, .nat y]) → s.site = .vfFromAffine →
    let g := (Config.curve c).group
    exec (.cgFromAffine c x y) s = .next (
      if g.valid x y then
        { s with site := .vfAddE, port := none, scratch := { s.scratch with ptQ := g.fromAffine x y } }
      else raiseErr .invalidPoint s) ∧
    (g.valid x y = true → g.fromAffine x y ≠ .infinity ∧ g.toAffine (g.fromAffine x y) = (x, y) ∧
      scalarMul g.add (Config.order c) (g.fromAffine x y) = .infinity)

/-- R87, R101, R125: CG_IS_ID answers P == O: in PUBKEY and SIGN O raises INFINITY, in VERIFY it completes with VALID = 0 and no error. -/
def Obligations.CgIsIdAnswers : Prop :=
  ∀ (s : State) (c : CurveId) (P : Pt), s.port = some (curveGroupReq c 4 [.point P]) →
    let after := fun (site : Site) (atInfinity : State) =>
      Host.Outcome.next (φ := Fault) (ρ := Refusal)
        (if P = .infinity then atInfinity else { s with site := site, port := none })
    (s.site = .pkIsId → exec (.cgIsId c P) s = after .pkToAffine (raiseErr .infinity s)) ∧
    (s.site = .sgIsId → exec (.cgIsId c P) s = after .sgToAffine (raiseErr .infinity s)) ∧
    (s.site = .vfIsId → exec (.cgIsId c P) s = after .vfToAffine (finishCommand false s))

/-- R88, R97, R102: CG_TO_AFFINE of a point other than O. In PUBKEY it is the completion: exactly PUB[0..PUBLEN) and PUB_LEN are written,
with ENC_PUB(x, y), and every other byte reads as before. In SIGN and VERIFY the x-coordinate is kept. The coordinates lie in [0, p). For O
the model faults. That a completion discards THETA and CAND too is the model's inference (log entry 15). -/
def Obligations.CgToAffineAnswers : Prop :=
  ∀ (s : State) (c : CurveId) (P : Pt), s.port = some (curveGroupReq c 5 [.point P]) →
    let xy := (Config.curve c).group.toAffine P
    (P = .infinity → exec (.cgToAffine c P) s = .fault .unreachable) ∧
    (P ≠ .infinity → xy.1 < (Config.curve c).record.p ∧ xy.2 < (Config.curve c).record.p) ∧
    (P ≠ .infinity → s.site = .sgToAffine →
      exec (.cgToAffine c P) s = .next { s with site := .sgHash, port := none, scratch := { s.scratch with x := xy.1 } }) ∧
    (P ≠ .infinity → s.site = .vfToAffine →
      exec (.cgToAffine c P) s = .next { s with site := .vfHash, port := none, scratch := { s.scratch with x := xy.1 } }) ∧
    (P ≠ .infinity → s.site = .pkToAffine →
      ∃ t, exec (.cgToAffine c P) s = .next t ∧
        readBuffer t .pub (1 + 2 * c.len) = some (0x04 :: (leBytes c.len xy.1 ++ leBytes c.len xy.2)) ∧
        (∀ a, (a < 0x300 ∨ 0x300 + (1 + 2 * c.len) ≤ a) → readMarked t a = readMarked s a) ∧
        t.pubLen.toNat = 1 + 2 * c.len ∧
        t = { s with
          mem := t.mem, marks := t.marks, pubLen := t.pubLen
          phase := .idle, site := .entry, theta := [], cand := [], scratch := Scratch.none, port := none
          err := .none, valid := false, done := true })

/-- R89, R91, R115, R123: CG_FN_ADD and CG_FN_MUL answer (a + b) mod n and (a · b) mod n, values in [0, n). -/
def Obligations.CgFnAddMulAnswer : Prop :=
  ∀ (s : State) (c : CurveId) (a b : Nat),
    let n := Config.order c
    (s.port = some (curveGroupReq c 6 [.nat a, .nat b]) →
      (s.site = .sgAddW → exec (.cgFnAdd c a b) s =
        .next { s with site := .sgMulD, port := none, scratch := { s.scratch with t1 := (a + b) % n } }) ∧
      (s.site = .vfAddE → exec (.cgFnAdd c a b) s =
        .next { s with site := .vfAddW, port := none, scratch := { s.scratch with u := (a + b) % n } }) ∧
      (s.site = .vfAddW → exec (.cgFnAdd c a b) s =
        .next { s with site := .vfBase, port := none, scratch := { s.scratch with v := (a + b) % n } })) ∧
    (s.port = some (curveGroupReq c 8 [.nat a, .nat b]) → s.site = .sgMulD → exec (.cgFnMul c a b) s =
      .next { s with site := .sgSubE, port := none, scratch := { s.scratch with t2 := a * b % n } }) ∧
    (a + b) % n < n ∧ a * b % n < n

/-- R90, R116, R118: CG_FN_SUB answers the residue of a − b over the integers, in [0, n). As the last call of SIGN it is the completion:
exactly SIG[0..SIGLEN) and SIG_LEN are written, with S0 ‖ LE_L(S1), and every other byte reads as before. That a completion discards
THETA and CAND too is the model's inference (log entry 15). -/
def Obligations.CgFnSubAnswers : Prop :=
  ∀ (s : State) (c : CurveId) (a b : Nat), s.port = some (curveGroupReq c 7 [.nat a, .nat b]) →
    ∃ r : Nat, r < Config.order c ∧ (r : Int) = ((a : Int) - (b : Int)) % (Config.order c : Int) ∧
      (s.site = .sgSubE → exec (.cgFnSub c a b) s =
        .next { s with site := .sgSubT, port := none, scratch := { s.scratch with t3 := r } }) ∧
      (s.site = .sgSubT → s.scratch.s0.length = c.half →
        ∃ t, exec (.cgFnSub c a b) s = .next t ∧
          readBuffer t .sig (3 * c.half) = some (s.scratch.s0 ++ leBytes c.len r) ∧
          (∀ x, (x < 0x240 ∨ 0x240 + 3 * c.half ≤ x) → readMarked t x = readMarked s x) ∧
          t.sigLen.toNat = 3 * c.half ∧
          t = { s with
            mem := t.mem, marks := t.marks, sigLen := t.sigLen
            phase := .idle, site := .entry, theta := [], cand := [], scratch := Scratch.none, port := none
            err := .none, valid := false, done := true })

/-- R93, R103, R114, R126: DE_HASH answers HASH(m), of HLEN bytes. As the seed of the nonce loop it becomes THETA, the digest becomes CAND and PHASE
becomes LOOP; in SIGN its first H bytes become S0; in VERIFY the command completes, VALID saying whether they equal S0. That a completion
discards THETA and CAND too is the model's inference (log entry 15). -/
def Obligations.DeHashAnswers : Prop :=
  ∀ (s : State) (c : CurveId) (m dig : Bytes), s.port = some (digestReq 0 [.bytes m]) → curveOfCode s.ctrl.curve = some c →
    let h := Config.hash m
    h.length = Config.hlen ∧
    (s.site = .nonceHash → s.ctrl.cmd = 2 → readBuffer s .dig s.digestLen.toNat = some dig → exec (.deHash m) s =
      .next { s with site := .nonceStretch, port := none, phase := .loop, theta := h, cand := dig }) ∧
    (s.site = .nonceHash → s.ctrl.cmd = 3 → readBuffer s .dig c.len = some dig → exec (.deHash m) s =
      .next { s with site := .nonceStretch, port := none, phase := .loop, theta := h, cand := dig }) ∧
    (s.site = .sgHash → exec (.deHash m) s =
      .next { s with
        site := .sgAddW, port := none, scratch := { s.scratch with s0 := h.take c.half, s0n := leNat (h.take c.half) } }) ∧
    (s.site = .vfHash → exec (.deHash m) s =
      .next { s with
        phase := .idle, site := .entry, theta := [], cand := [], scratch := Scratch.none, port := none
        err := .none, valid := decide (h.take c.half = s.scratch.s0), done := true })

/-- R94, R104, R105: one iteration of the nonce loop. CAND becomes the stretch, as long as before, ITER_COUNT is incremented, saturating; then the acceptance
test 1 ≤ BE(CAND) < n comes before the cap: GENK writes exactly K[0..L) and completes, SIGN takes the bytes as KB and goes on with
k = LE(KB), a cap reached raises NONCE_EXHAUSTED, and otherwise the loop repeats. PHASE after the loop and the discarding of THETA and CAND
are the model's inferences (log entries 9, 15), and so is the stretch of keys and lengths outside R8 (log entry 11). -/
def Obligations.DeStretchIterates : Prop :=
  ∀ (s : State) (c : CurveId) (key b : Bytes), s.port = some (digestReq 1 [.bytes key, .bytes b]) → s.site = .nonceStretch →
    curveOfCode s.ctrl.curve = some c →
    let cand := Config.stretch key b
    let i := if s.iterCount = 0xFFFFFFFF then s.iterCount else s.iterCount + 1
    let t := { s with cand := cand, iterCount := i }
    let accepted := 1 ≤ beNat cand ∧ beNat cand < Config.order c
    cand.length = b.length ∧
    (accepted → s.ctrl.cmd = 2 →
      ∃ u, exec (.deStretch key b) s = .next u ∧ readBuffer u .k b.length = some cand ∧
        (∀ a, (a < 0x180 ∨ 0x180 + b.length ≤ a) → readMarked u a = readMarked s a) ∧
        u = { s with
          mem := u.mem, marks := u.marks, iterCount := i
          phase := .idle, site := .entry, theta := [], cand := [], scratch := Scratch.none, port := none
          err := .none, valid := false, done := true }) ∧
    (accepted → s.ctrl.cmd ≠ 2 → exec (.deStretch key b) s =
      .next { t with
        site := .sgBase, port := none, phase := .run, scratch := { s.scratch with kb := cand, k := leNat cand } }) ∧
    (¬ accepted → s.nonceCap ≠ 0 → s.nonceCap ≤ i → exec (.deStretch key b) s = .next (raiseErr .nonceExhausted t)) ∧
    (¬ accepted → (s.nonceCap = 0 ∨ i < s.nonceCap) → exec (.deStretch key b) s = .next { t with port := none })

/-- R95, R112: an entropy draw becomes KB unchanged, whatever its bytes; k = LE(KB) is neither checked nor reduced, and ITER_COUNT is kept.
The draw is a free value at the model's counter (log entry 19), and PHASE after it is the model's inference (log entry 9). -/
def Obligations.EntDrawBecomesKey : Prop :=
  ∀ (s : State) (m : Nat), s.port = some (entropyReq 0 [.nat m]) → s.site = .sgDraw →
    ∃ b : Bytes, b.length = m ∧ b = List.ofFn (Config.entropyDraw s.draws m) ∧
      exec (.entDraw m) s = .next { s with
        site := .sgBase, port := none, phase := .run, draws := s.draws + 1
        scratch := { s.scratch with kb := b, k := leNat b } }

/-! ### The commands as functions (45_control.md R137), reached step by step -/

/-- R97, R99 to R102: a started PUBKEY with PRV[0..L) written ends within eight controller steps as `pubkeyResult` says of d = LE(PRV[0..L)):
the public key is written, or an error is raised and no output is. That the controller moves with an empty schedule is the model's choice
(log entry 5). -/
def Obligations.PubkeyRunsToItsResult : Prop :=
  ∀ (s : State) (c : CurveId) (prv : Bytes), s.phase = .run → s.site = .entry → s.port = none → s.events = [] →
    s.ctrl.cmd = 1 → curveOfCode s.ctrl.curve = some c → readBuffer s .prv c.len = some prv →
    ∃ e, Sys2Proof.core.run 8 s = .next { (match pubkeyResult (Config.curve c) (leNat prv) with
      | .ok pub => finishCommand false (setPubLen (BitVec.ofNat 8 (pubLenOf c)) (writeBuffer .pub pub s))
      | .error code => raiseErr code s) with epoch := e }

/-- R113 to R116: from the point where SIGN has chosen its one-time key KB, with its operands written, it ends within eighteen controller
steps as `signResult` says: SIG and SIG_LEN are written, or an error is raised and no output is. After the nonce loop and after the entropy
draw CG_BASE is still to be sent; where K is supplied (KSUP = 1, R111) it was sent in the step that chose KB. That the controller moves with
an empty schedule is the model's choice (log entry 5). -/
def Obligations.SignRunsToItsResult : Prop :=
  ∀ (s : State) (c : CurveId) (oid dig prv : Bytes), s.phase = .run → s.site = .sgBase →
    s.port = none ∨ s.port = some (curveGroupReq c 0 []) → s.events = [] →
    s.ctrl.cmd = 3 → curveOfCode s.ctrl.curve = some c → s.scratch.k = leNat s.scratch.kb →
    readOid s = some oid → readDigest s = some dig → readBuffer s .prv c.len = some prv →
    ∃ e, Sys2Proof.core.run 18 s = .next { (
      match signResult (Config.curve c) Config.hash oid dig s.scratch.kb (leNat prv) with
      | .ok sig => finishCommand false (setSigLen (BitVec.ofNat 8 (sigLenOf c)) (writeBuffer .sig sig s))
      | .error code => raiseErr code s) with epoch := e }

/-- R111: a started SIGN chooses its one-time key in the order K (KSUP = 1, in either mode), the nonce loop (MODE = 0), the entropy draw: its
first controller step sends CG_BASE with KB = K[0..L), or DE_HASH of the seed input with t empty, or ENT_DRAW(L) in PHASE WAIT_ENT.
The step is a controller step of the schedule, or one with an empty schedule, which is a controller step too by the model's choice (log
entry 5). -/
def Obligations.SignChoosesItsKey : Prop :=
  ∀ (s : State) (c : CurveId) (kb oid prv : Bytes) (es : List Event), s.phase = .run → s.site = .entry → s.port = none →
    (s.events = [] ∧ es = [] ∨ s.events = .controller :: es) →
    s.ctrl.cmd = 3 → curveOfCode s.ctrl.curve = some c →
    (s.ctrl.ksup = true → readBuffer s .k c.len = some kb →
      step s = .next { s with
        events := es, epoch := s.epoch + 1, site := .sgBase, port := some (curveGroupReq c 0 [])
        scratch := { s.scratch with kb := kb, k := leNat kb } }) ∧
    (s.ctrl.ksup = false → s.ctrl.mode = false → readOid s = some oid → readBuffer s .prv c.len = some prv →
      step s = .next { s with
        events := es, epoch := s.epoch + 1, site := .nonceHash, port := some (digestReq 0 [.bytes (oid ++ prv)]) }) ∧
    (s.ctrl.ksup = false → s.ctrl.mode = true →
      step s = .next { s with
        events := es, epoch := s.epoch + 1, site := .sgDraw, phase := .waitEnt, port := some (entropyReq 0 [.nat c.len]) })

/-- R119 to R126: a started VERIFY with its operands written ends within twenty controller steps as `verifyResult` says: only STATUS is
written. A SIG_LEN above 96 or a PUB_LEN above 129 has no written bytes to read and so does not meet the hypotheses: VerifyGuardsInOrder
says what happens there. That the controller moves with an empty schedule is the model's choice (log entry 5). -/
def Obligations.VerifyRunsToItsResult : Prop :=
  ∀ (s : State) (c : CurveId) (oid dig sig pub : Bytes), s.phase = .run → s.site = .entry → s.port = none → s.events = [] →
    s.ctrl.cmd = 4 → curveOfCode s.ctrl.curve = some c → readOid s = some oid → readDigest s = some dig →
    readBuffer s .sig s.sigLen.toNat = some sig → readBuffer s .pub s.pubLen.toNat = some pub →
    ∃ e, Sys2Proof.core.run 20 s = .next { (match verifyResult (Config.curve c) Config.hash oid dig sig pub with
      | .ok valid => finishCommand valid s
      | .error code => raiseErr code s) with epoch := e }

/-- R120, R121, R122, R145 (2): the order of VERIFY's guards. A wrong SIG_LEN completes with VALID = 0 and ERR = 0 and no byte is read, whatever is
written; S1 ≥ n completes so too, before the key is looked at; with S1 < n, a wrong PUB_LEN completes with INVALID_POINT and no PUB byte is
read, and with the right PUB_LEN a wrong tag does, PUB[0] alone being read.
The step is a controller step of the schedule, or one with an empty schedule, which is a controller step too by the model's choice (log
entry 5). -/
def Obligations.VerifyGuardsInOrder : Prop :=
  ∀ (s : State) (c : CurveId) (es : List Event), s.phase = .run → s.site = .entry → s.port = none →
    (s.events = [] ∧ es = [] ∨ s.events = .controller :: es) →
    s.ctrl.cmd = 4 → curveOfCode s.ctrl.curve = some c →
    (s.sigLen.toNat ≠ 3 * c.half →
      step s = .next (finishCommand false { s with events := es, epoch := s.epoch + 1 })) ∧
    (∀ sig : Bytes, s.sigLen.toNat = 3 * c.half → readBuffer s .sig (3 * c.half) = some sig →
      (Config.order c ≤ leNat (sig.drop c.half) →
        step s = .next (finishCommand false { s with events := es, epoch := s.epoch + 1 })) ∧
      (leNat (sig.drop c.half) < Config.order c → s.pubLen.toNat ≠ 1 + 2 * c.len →
        step s = .next (raiseErr .invalidPoint { s with events := es, epoch := s.epoch + 1 })) ∧
      (leNat (sig.drop c.half) < Config.order c → s.pubLen.toNat = 1 + 2 * c.len →
        ∀ tag, readMarked s 0x300 = some tag → tag ≠ 0x04 →
          step s = .next (raiseErr .invalidPoint { s with events := es, epoch := s.epoch + 1 })))

/-- R103, R104, R107, R109, R111: the nonce loop of a started GENK (with t = T[0..T_LEN) and the digest DIG[0..DIGEST_LEN)) and of a started
deterministic SIGN (KSUP = 0, MODE = 0, with t empty and the digest DIG[0..L)). Where the j-th candidate is the first accepted one, below
a cap, it takes 2 + 2·j controller steps, and ITER_COUNT = j. GENK ends with K[0..L) the bytes of that candidate, and no other buffer byte
changes; SIGN goes on to its CG_BASE with KB that candidate and k = LE(KB). From j = 0xFFFFFFFF on ITER_COUNT saturates: DeStretchIterates
says so step by step. PHASE after the loop is the model's inference (log entry 9), and that the controller moves with an empty schedule
its choice (log entry 5). -/
def Obligations.GenkFindsFirstAcceptedCandidate : Prop :=
  ∀ (s : State) (c : CurveId) (oid prv t dig : Bytes) (j : Nat), s.phase = .run → s.site = .entry → s.port = none → s.events = [] →
    curveOfCode s.ctrl.curve = some c → s.iterCount = 0 → readOid s = some oid → readBuffer s .prv c.len = some prv →
    (s.ctrl.cmd = 2 ∧ readBuffer s .t s.tLen.toNat = some t ∧ readBuffer s .dig s.digestLen.toNat = some dig ∨
      s.ctrl.cmd = 3 ∧ s.ctrl.ksup = false ∧ s.ctrl.mode = false ∧ t = [] ∧ readBuffer s .dig c.len = some dig) →
    let theta := Config.hash (oid ++ prv ++ t)
    let cand := nonceCandidate theta dig
    1 ≤ j → j < 0xFFFFFFFF → (s.nonceCap = 0 ∨ j ≤ s.nonceCap.toNat) →
    (∀ i, 1 ≤ i → i < j → nonceAccepted c (cand i) = false) → nonceAccepted c (cand j) = true →
    (s.ctrl.cmd = 2 → ∃ e, Sys2Proof.core.run (2 + 2 * j) s = .next
      { finishCommand false (writeBuffer .k (cand j) (setIterCount (BitVec.ofNat 32 j) s)) with epoch := e }) ∧
    (s.ctrl.cmd = 3 → ∃ e, Sys2Proof.core.run (2 + 2 * j) s = .next { s with
      site := .sgBase, theta := theta, cand := cand j, iterCount := BitVec.ofNat 32 j
      scratch := { s.scratch with kb := cand j, k := leNat (cand j) }, epoch := e })

/-- R106, R111: with NONCE_CAP = 0, as long as no candidate is accepted GENK and deterministic SIGN stay busy in PHASE LOOP: after j rejected
candidates ITER_COUNT is j, saturating, DONE is not set and no output is written. That the controller moves with an empty schedule is
the model's choice (log entry 5). -/
def Obligations.UncappedLoopStaysBusy : Prop :=
  ∀ (s : State) (c : CurveId) (oid prv t dig : Bytes) (j : Nat), s.phase = .run → s.site = .entry → s.port = none → s.events = [] →
    curveOfCode s.ctrl.curve = some c → s.iterCount = 0 → s.nonceCap = 0 → readOid s = some oid → readBuffer s .prv c.len = some prv →
    (s.ctrl.cmd = 2 ∧ readBuffer s .t s.tLen.toNat = some t ∧ readBuffer s .dig s.digestLen.toNat = some dig ∨
      s.ctrl.cmd = 3 ∧ s.ctrl.ksup = false ∧ s.ctrl.mode = false ∧ t = [] ∧ readBuffer s .dig c.len = some dig) →
    let theta := Config.hash (oid ++ prv ++ t)
    (∀ i, 1 ≤ i → i ≤ j → nonceAccepted c (nonceCandidate theta dig i) = false) →
    ∃ e, Sys2Proof.core.run (2 + 2 * j) s = .next { s with
      phase := .loop, site := .nonceStretch, theta := theta, cand := nonceCandidate theta dig j
      iterCount := iterCountAfter j, epoch := e }

/-- R110: a GENK that completes without an error leaves 1 ≤ BE(K[0..L)) ≤ n − 1. -/
def Obligations.GenkKeyInRange : Prop :=
  ∀ (s t : State) (c : CurveId) (key b : Bytes), s.busy = true → s.port = some (digestReq 1 [.bytes key, .bytes b]) → s.site = .nonceStretch →
    s.ctrl.cmd = 2 → curveOfCode s.ctrl.curve = some c → b.length = c.len →
    exec (.deStretch key b) s = .next t → t.busy = false → t.err = .none →
    ∃ kb, readBuffer t .k c.len = some kb ∧ 1 ≤ beNat kb ∧ beNat kb ≤ Config.order c - 1

/-- R112, R153: in PHASE WAIT_ENT nothing but the draw, ABORT or reset moves the command. Every other event, a host read or write of any
width and offset, a CTRL word without ABORT, a STATUS word, a controller step, a late response, and no event at all, keeps all its state:
PHASE, the place, the request, THETA, CAND, the scratch registers, every buffer byte, length and count, VALID and ERR; a CTRL word changes
IE, a STATUS word DONE. (The schedule, the epoch and the response are the model's: log entries 5, 6, 17.) -/
def Obligations.EntropyWaitKeepsState : Prop :=
  ∀ (s : State) (m : Nat), s.phase = .waitEnt → s.port = some (entropyReq 0 [.nat m]) →
    s.events.head? ≠ some .entropy → s.events.head? ≠ some .reset →
    (∀ v, s.events.head? = some (.write .four 0x004 v) → v.getLsbD 1 = false) →
    (∃ t, step s = .next t ∧
      t = { s with
        ctrl := { s.ctrl with ie := t.ctrl.ie }, done := t.done
        events := s.events.tail, response := t.response, epoch := t.epoch } ∧
      ((∀ v, s.events.head? ≠ some (.write .four 0x004 v)) → t.ctrl = s.ctrl) ∧
      ((∀ v, s.events.head? ≠ some (.write .four 0x008 v)) → t.done = s.done)) ∧
    (s.events = [] → step s = .next s) ∧
    (∀ es, s.events = .controller :: es → step s = .next { s with events := es, epoch := s.epoch + 1 })

/-- R32, R57, R142 (V92): an operand read of a running command that touches a byte without its written mark is the model fault
UNWRITTEN_OPERAND. Each operand that a rule names is here: PRV in PUBKEY (R97); OID, PRV, T and DIG in GENK (R103, R107); K, or OID, PRV
and DIG of the nonce loop, then OID, DIG and PRV in SIGN (R111, R114, R115); SIG, PUB, DIG and OID in VERIFY (R120 to R126), where PUB is read only
when the length is right and beyond its tag only when the tag is right. At which step of the command a byte is read is the model's reading
(log entry 13), and that a step with an empty schedule is a controller step its choice (log entry 5). -/
def Obligations.UnwrittenOperandFaults : Prop :=
  ∀ (s : State) (c : CurveId), s.busy = true → (s.events = [] ∨ s.events.head? = some .controller) →
    curveOfCode s.ctrl.curve = some c →
    let unwritten := fun (b : Buffer) (n : Nat) => ∃ j, j < n ∧ isMarked s.marks (bufferBase b + j) = false
    let oidUnwritten := s.ctrl.oidsel = true ∧ unwritten .oid s.oidLen.toNat
    let faults := step s = .fault .unwrittenOperand
    (s.port = none → s.site = .entry →
      (s.ctrl.cmd = 1 → unwritten .prv c.len → faults) ∧
      (s.ctrl.cmd = 2 → oidUnwritten ∨ unwritten .prv c.len ∨ unwritten .t s.tLen.toNat → faults) ∧
      (s.ctrl.cmd = 3 → s.ctrl.ksup = true → unwritten .k c.len → faults) ∧
      (s.ctrl.cmd = 3 → s.ctrl.ksup = false → s.ctrl.mode = false → oidUnwritten ∨ unwritten .prv c.len → faults) ∧
      (s.ctrl.cmd = 4 → s.sigLen.toNat = 3 * c.half → unwritten .sig (3 * c.half) → faults) ∧
      (∀ sig : Bytes, s.ctrl.cmd = 4 → s.sigLen.toNat = 3 * c.half → readBuffer s .sig (3 * c.half) = some sig →
        leNat (sig.drop c.half) < Config.order c → s.pubLen.toNat = 1 + 2 * c.len →
        (isMarked s.marks 0x300 = false → faults) ∧
        (readMarked s 0x300 = some 0x04 → unwritten .pub (1 + 2 * c.len) → faults))) ∧
    (s.port = none →
      (s.site = .sgHash ∨ s.site = .vfHash → oidUnwritten ∨ unwritten .dig s.digestLen.toNat → faults) ∧
      (s.site = .sgMulD → unwritten .prv c.len → faults) ∧
      (s.site = .sgSubE ∨ s.site = .vfAddE → unwritten .dig s.digestLen.toNat → faults)) ∧
    (∀ m : Bytes, s.port = some (digestReq 0 [.bytes m]) → s.site = .nonceHash →
      (s.ctrl.cmd = 2 → unwritten .dig s.digestLen.toNat → faults) ∧ (s.ctrl.cmd = 3 → unwritten .dig c.len → faults))

/-! ### Invariants over every step -/

/-- Reset satisfies every invariant below. -/
def Obligations.ResetIsSafe : Prop :=
  MemoryOk State.reset ∧ InBuffers State.reset ∧ StatusOk State.reset ∧ ControllerOk State.reset

/-- Every step keeps the canonical form of the memory and of the marks, and every marked byte listed (10_state.md R32). -/
def Obligations.StepKeepsMemoryForm : Prop :=
  ∀ s t : State, MemoryOk s → step s = .next t → MemoryOk t

/-- Every step keeps STATUS legal: while busy DONE, VALID and ERR are 0, and VALID = 1 only with ERR = 0 (10_state.md R22). -/
def Obligations.StepKeepsStatusLegal : Prop :=
  ∀ s t : State, StatusOk s → step s = .next t → StatusOk t

/-- Every step keeps the controller legal: the outstanding request is the one its place in the command's rule sends, PHASE says where the
command waits, and nothing is live while idle (10_state.md R33 to R36). -/
def Obligations.StepKeepsControllerLegal : Prop :=
  ∀ s t : State, ControllerOk s → step s = .next t → ControllerOk t

/-- Every step of a legal controller keeps every listed byte and every mark inside the seven buffers (10_state.md R30). -/
def Obligations.StepKeepsBytesInBuffers : Prop :=
  ∀ s t : State, ControllerOk s → InBuffers s → step s = .next t → InBuffers t

/-- R88, R142: a legal controller never asks for the coordinates of O, and the model stops for no reason but an operand byte that was not
written. -/
def Obligations.OnlyUnwrittenOperandsStop : Prop :=
  ∀ s : State, ControllerOk s → badStop (step s) = false

/-- R49, R57: a running command's operands cannot change under it: over a step from a busy state to a busy state every buffer byte, every
length register, NONCE_CAP and every CTRL field but IE is unchanged. -/
def Obligations.BusyLockKeepsOperands : Prop :=
  ∀ s t : State, s.busy = true → step s = .next t → t.busy = true →
    t.mem = s.mem ∧ t.marks = s.marks ∧ t.digestLen = s.digestLen ∧ t.tLen = s.tLen ∧ t.oidLen = s.oidLen ∧
    t.sigLen = s.sigLen ∧ t.pubLen = s.pubLen ∧ t.nonceCap = s.nonceCap ∧
    { t.ctrl with ie := s.ctrl.ie } = s.ctrl

/-- R134, R146: a command either writes all its outputs or none: a step from a busy state that changes a buffer byte, SIG_LEN or PUB_LEN, other
than reset, is a completion without an error. -/
def Obligations.OutputsAppearOnlyAtCompletion : Prop :=
  ∀ s t : State, s.busy = true → step s = .next t → s.events.head? ≠ some .reset →
    (t.mem ≠ s.mem ∨ t.sigLen ≠ s.sigLen ∨ t.pubLen ≠ s.pubLen) →
    t.busy = false ∧ t.done = true ∧ t.err = .none ∧ t.valid = false

/-- R22: VALID becomes 1 only in the step in which a VERIFY completes with ERR = 0. -/
def Obligations.ValidOnlyFromVerify : Prop :=
  ∀ s t : State, s.valid = false → step s = .next t → t.valid = true →
    s.busy = true ∧ s.site = .vfHash ∧ t.busy = false ∧ t.done = true ∧ t.err = .none

/-! ### The protocol -/

/-- R96, R115: the four scalar-field answers of SIGN, chained, are the signing equation over the integers reduced once at the end. -/
def Obligations.ScalarChainIsSigningEquation : Prop :=
  ∀ (c : CurveId) (k e s0n d : Nat),
    fnSub c (fnSub c k e) (fnMul c (fnAdd c s0n (wOf c)) d) = signingEquation c (Config.order c) k e s0n d ∧
    signingEquation c (Config.order c) k e s0n d < Config.order c

/-- R72 to R75, R80: what the framing encodes it decodes: the coordinates of a public key and the parts of a signature come back, at their
lengths; and the big-endian re-encoding of an accepted candidate is the candidate. -/
def Obligations.FramingRoundTrips : Prop :=
  ∀ (c : CurveId) (x y s1 : Nat) (s0 cand : Bytes), x < 256 ^ c.len → y < 256 ^ c.len → s1 < 256 ^ c.len →
    s0.length = c.half → cand.length = c.len →
    (encPub c x y).length = 1 + 2 * c.len ∧ (encPub c x y).head? = some 0x04 ∧
    decCoordinates c (encPub c x y).tail = (x, y) ∧
    (encSig c s0 s1).length = 3 * c.half ∧ decSig c (encSig c s0 s1) = (s0, s1) ∧
    beBytes c.len (beNat cand) = cand

/-- V2 of 95_test_vectors.md, under the laws of 40_primitives.md R92 (and the model's law that coordinates determine a point of the base
point's subgroup, log entry 4): for every well-formed curve, hash, identifier, digest, one-time key and private key, a signature that SIGN
makes is verified by VERIFY with the key that PUBKEY makes, unless the collaborator rejects a scalar of VERIFY. -/
def Obligations.SignedMessageVerifies : Prop :=
  ∀ (c : CurveId) (v : Curve c) (hash : Bytes → Bytes) (oid dig kb pub sig : Bytes) (d : Nat),
    (∀ m, c.half ≤ (hash m).length) →
    pubkeyResult v d = .ok pub → signResult v hash oid dig kb d = .ok sig →
    verifyResult v hash oid dig sig pub = .ok true ∨ verifyResult v hash oid dig sig pub = .error .invalidScalar
end

