-- ==== Sys2Proof/Laws/State.lean ====
section
/-! SUPPORT. For every named update of the state, each field after it: true by rfl, so that no later proof unfolds an update.
Then the same for the updates defined by recursion or by cases. -/

namespace Sys2Proof.Machine

open Sys2Proof

/-! ### writeByte -/

@[simp] theorem writeByte_ctrl (a : Nat) (b : Byte) (s : State) : (writeByte a b s).ctrl = s.ctrl := rfl
@[simp] theorem writeByte_done (a : Nat) (b : Byte) (s : State) : (writeByte a b s).done = s.done := rfl
@[simp] theorem writeByte_valid (a : Nat) (b : Byte) (s : State) : (writeByte a b s).valid = s.valid := rfl
@[simp] theorem writeByte_err (a : Nat) (b : Byte) (s : State) : (writeByte a b s).err = s.err := rfl
@[simp] theorem writeByte_digestLen (a : Nat) (b : Byte) (s : State) : (writeByte a b s).digestLen = s.digestLen := rfl
@[simp] theorem writeByte_tLen (a : Nat) (b : Byte) (s : State) : (writeByte a b s).tLen = s.tLen := rfl
@[simp] theorem writeByte_oidLen (a : Nat) (b : Byte) (s : State) : (writeByte a b s).oidLen = s.oidLen := rfl
@[simp] theorem writeByte_sigLen (a : Nat) (b : Byte) (s : State) : (writeByte a b s).sigLen = s.sigLen := rfl
@[simp] theorem writeByte_pubLen (a : Nat) (b : Byte) (s : State) : (writeByte a b s).pubLen = s.pubLen := rfl
@[simp] theorem writeByte_nonceCap (a : Nat) (b : Byte) (s : State) : (writeByte a b s).nonceCap = s.nonceCap := rfl
@[simp] theorem writeByte_iterCount (a : Nat) (b : Byte) (s : State) : (writeByte a b s).iterCount = s.iterCount := rfl
@[simp] theorem writeByte_mem (a : Nat) (b : Byte) (s : State) : (writeByte a b s).mem = memWrite s.mem a b := rfl
@[simp] theorem writeByte_marks (a : Nat) (b : Byte) (s : State) : (writeByte a b s).marks = markAdd s.marks a := rfl
@[simp] theorem writeByte_phase (a : Nat) (b : Byte) (s : State) : (writeByte a b s).phase = s.phase := rfl
@[simp] theorem writeByte_site (a : Nat) (b : Byte) (s : State) : (writeByte a b s).site = s.site := rfl
@[simp] theorem writeByte_theta (a : Nat) (b : Byte) (s : State) : (writeByte a b s).theta = s.theta := rfl
@[simp] theorem writeByte_cand (a : Nat) (b : Byte) (s : State) : (writeByte a b s).cand = s.cand := rfl
@[simp] theorem writeByte_scratch (a : Nat) (b : Byte) (s : State) : (writeByte a b s).scratch = s.scratch := rfl
@[simp] theorem writeByte_port (a : Nat) (b : Byte) (s : State) : (writeByte a b s).port = s.port := rfl
@[simp] theorem writeByte_events (a : Nat) (b : Byte) (s : State) : (writeByte a b s).events = s.events := rfl
@[simp] theorem writeByte_response (a : Nat) (b : Byte) (s : State) : (writeByte a b s).response = s.response := rfl
@[simp] theorem writeByte_draws (a : Nat) (b : Byte) (s : State) : (writeByte a b s).draws = s.draws := rfl
@[simp] theorem writeByte_epoch (a : Nat) (b : Byte) (s : State) : (writeByte a b s).epoch = s.epoch := rfl

/-! ### storeFields -/

@[simp] theorem storeFields_ctrl (cmd : BitVec 3) (f : CtrlFields) (s : State) : (storeFields cmd f s).ctrl = ⟨cmd, f.curve, f.mode, f.ksup, f.oidsel, f.ie⟩ := rfl
@[simp] theorem storeFields_done (cmd : BitVec 3) (f : CtrlFields) (s : State) : (storeFields cmd f s).done = s.done := rfl
@[simp] theorem storeFields_valid (cmd : BitVec 3) (f : CtrlFields) (s : State) : (storeFields cmd f s).valid = s.valid := rfl
@[simp] theorem storeFields_err (cmd : BitVec 3) (f : CtrlFields) (s : State) : (storeFields cmd f s).err = s.err := rfl
@[simp] theorem storeFields_digestLen (cmd : BitVec 3) (f : CtrlFields) (s : State) : (storeFields cmd f s).digestLen = s.digestLen := rfl
@[simp] theorem storeFields_tLen (cmd : BitVec 3) (f : CtrlFields) (s : State) : (storeFields cmd f s).tLen = s.tLen := rfl
@[simp] theorem storeFields_oidLen (cmd : BitVec 3) (f : CtrlFields) (s : State) : (storeFields cmd f s).oidLen = s.oidLen := rfl
@[simp] theorem storeFields_sigLen (cmd : BitVec 3) (f : CtrlFields) (s : State) : (storeFields cmd f s).sigLen = s.sigLen := rfl
@[simp] theorem storeFields_pubLen (cmd : BitVec 3) (f : CtrlFields) (s : State) : (storeFields cmd f s).pubLen = s.pubLen := rfl
@[simp] theorem storeFields_nonceCap (cmd : BitVec 3) (f : CtrlFields) (s : State) : (storeFields cmd f s).nonceCap = s.nonceCap := rfl
@[simp] theorem storeFields_iterCount (cmd : BitVec 3) (f : CtrlFields) (s : State) : (storeFields cmd f s).iterCount = s.iterCount := rfl
@[simp] theorem storeFields_mem (cmd : BitVec 3) (f : CtrlFields) (s : State) : (storeFields cmd f s).mem = s.mem := rfl
@[simp] theorem storeFields_marks (cmd : BitVec 3) (f : CtrlFields) (s : State) : (storeFields cmd f s).marks = s.marks := rfl
@[simp] theorem storeFields_phase (cmd : BitVec 3) (f : CtrlFields) (s : State) : (storeFields cmd f s).phase = s.phase := rfl
@[simp] theorem storeFields_site (cmd : BitVec 3) (f : CtrlFields) (s : State) : (storeFields cmd f s).site = s.site := rfl
@[simp] theorem storeFields_theta (cmd : BitVec 3) (f : CtrlFields) (s : State) : (storeFields cmd f s).theta = s.theta := rfl
@[simp] theorem storeFields_cand (cmd : BitVec 3) (f : CtrlFields) (s : State) : (storeFields cmd f s).cand = s.cand := rfl
@[simp] theorem storeFields_scratch (cmd : BitVec 3) (f : CtrlFields) (s : State) : (storeFields cmd f s).scratch = s.scratch := rfl
@[simp] theorem storeFields_port (cmd : BitVec 3) (f : CtrlFields) (s : State) : (storeFields cmd f s).port = s.port := rfl
@[simp] theorem storeFields_events (cmd : BitVec 3) (f : CtrlFields) (s : State) : (storeFields cmd f s).events = s.events := rfl
@[simp] theorem storeFields_response (cmd : BitVec 3) (f : CtrlFields) (s : State) : (storeFields cmd f s).response = s.response := rfl
@[simp] theorem storeFields_draws (cmd : BitVec 3) (f : CtrlFields) (s : State) : (storeFields cmd f s).draws = s.draws := rfl
@[simp] theorem storeFields_epoch (cmd : BitVec 3) (f : CtrlFields) (s : State) : (storeFields cmd f s).epoch = s.epoch := rfl

/-! ### storeIe -/

@[simp] theorem storeIe_ctrl (ie : Bool) (s : State) : (storeIe ie s).ctrl = { s.ctrl with ie := ie } := rfl
@[simp] theorem storeIe_done (ie : Bool) (s : State) : (storeIe ie s).done = s.done := rfl
@[simp] theorem storeIe_valid (ie : Bool) (s : State) : (storeIe ie s).valid = s.valid := rfl
@[simp] theorem storeIe_err (ie : Bool) (s : State) : (storeIe ie s).err = s.err := rfl
@[simp] theorem storeIe_digestLen (ie : Bool) (s : State) : (storeIe ie s).digestLen = s.digestLen := rfl
@[simp] theorem storeIe_tLen (ie : Bool) (s : State) : (storeIe ie s).tLen = s.tLen := rfl
@[simp] theorem storeIe_oidLen (ie : Bool) (s : State) : (storeIe ie s).oidLen = s.oidLen := rfl
@[simp] theorem storeIe_sigLen (ie : Bool) (s : State) : (storeIe ie s).sigLen = s.sigLen := rfl
@[simp] theorem storeIe_pubLen (ie : Bool) (s : State) : (storeIe ie s).pubLen = s.pubLen := rfl
@[simp] theorem storeIe_nonceCap (ie : Bool) (s : State) : (storeIe ie s).nonceCap = s.nonceCap := rfl
@[simp] theorem storeIe_iterCount (ie : Bool) (s : State) : (storeIe ie s).iterCount = s.iterCount := rfl
@[simp] theorem storeIe_mem (ie : Bool) (s : State) : (storeIe ie s).mem = s.mem := rfl
@[simp] theorem storeIe_marks (ie : Bool) (s : State) : (storeIe ie s).marks = s.marks := rfl
@[simp] theorem storeIe_phase (ie : Bool) (s : State) : (storeIe ie s).phase = s.phase := rfl
@[simp] theorem storeIe_site (ie : Bool) (s : State) : (storeIe ie s).site = s.site := rfl
@[simp] theorem storeIe_theta (ie : Bool) (s : State) : (storeIe ie s).theta = s.theta := rfl
@[simp] theorem storeIe_cand (ie : Bool) (s : State) : (storeIe ie s).cand = s.cand := rfl
@[simp] theorem storeIe_scratch (ie : Bool) (s : State) : (storeIe ie s).scratch = s.scratch := rfl
@[simp] theorem storeIe_port (ie : Bool) (s : State) : (storeIe ie s).port = s.port := rfl
@[simp] theorem storeIe_events (ie : Bool) (s : State) : (storeIe ie s).events = s.events := rfl
@[simp] theorem storeIe_response (ie : Bool) (s : State) : (storeIe ie s).response = s.response := rfl
@[simp] theorem storeIe_draws (ie : Bool) (s : State) : (storeIe ie s).draws = s.draws := rfl
@[simp] theorem storeIe_epoch (ie : Bool) (s : State) : (storeIe ie s).epoch = s.epoch := rfl

/-! ### acceptStart -/

@[simp] theorem acceptStart_ctrl (s : State) : (acceptStart s).ctrl = s.ctrl := rfl
@[simp] theorem acceptStart_done (s : State) : (acceptStart s).done = false := rfl
@[simp] theorem acceptStart_valid (s : State) : (acceptStart s).valid = false := rfl
@[simp] theorem acceptStart_err (s : State) : (acceptStart s).err = .none := rfl
@[simp] theorem acceptStart_digestLen (s : State) : (acceptStart s).digestLen = s.digestLen := rfl
@[simp] theorem acceptStart_tLen (s : State) : (acceptStart s).tLen = s.tLen := rfl
@[simp] theorem acceptStart_oidLen (s : State) : (acceptStart s).oidLen = s.oidLen := rfl
@[simp] theorem acceptStart_sigLen (s : State) : (acceptStart s).sigLen = s.sigLen := rfl
@[simp] theorem acceptStart_pubLen (s : State) : (acceptStart s).pubLen = s.pubLen := rfl
@[simp] theorem acceptStart_nonceCap (s : State) : (acceptStart s).nonceCap = s.nonceCap := rfl
@[simp] theorem acceptStart_iterCount (s : State) : (acceptStart s).iterCount = 0 := rfl
@[simp] theorem acceptStart_mem (s : State) : (acceptStart s).mem = s.mem := rfl
@[simp] theorem acceptStart_marks (s : State) : (acceptStart s).marks = s.marks := rfl
@[simp] theorem acceptStart_phase (s : State) : (acceptStart s).phase = .run := rfl
@[simp] theorem acceptStart_site (s : State) : (acceptStart s).site = .entry := rfl
@[simp] theorem acceptStart_theta (s : State) : (acceptStart s).theta = s.theta := rfl
@[simp] theorem acceptStart_cand (s : State) : (acceptStart s).cand = s.cand := rfl
@[simp] theorem acceptStart_scratch (s : State) : (acceptStart s).scratch = s.scratch := rfl
@[simp] theorem acceptStart_port (s : State) : (acceptStart s).port = s.port := rfl
@[simp] theorem acceptStart_events (s : State) : (acceptStart s).events = s.events := rfl
@[simp] theorem acceptStart_response (s : State) : (acceptStart s).response = s.response := rfl
@[simp] theorem acceptStart_draws (s : State) : (acceptStart s).draws = s.draws := rfl
@[simp] theorem acceptStart_epoch (s : State) : (acceptStart s).epoch = s.epoch := rfl

/-! ### rejectStart -/

@[simp] theorem rejectStart_ctrl (code : ErrCode) (s : State) : (rejectStart code s).ctrl = s.ctrl := rfl
@[simp] theorem rejectStart_done (code : ErrCode) (s : State) : (rejectStart code s).done = true := rfl
@[simp] theorem rejectStart_valid (code : ErrCode) (s : State) : (rejectStart code s).valid = false := rfl
@[simp] theorem rejectStart_err (code : ErrCode) (s : State) : (rejectStart code s).err = code := rfl
@[simp] theorem rejectStart_digestLen (code : ErrCode) (s : State) : (rejectStart code s).digestLen = s.digestLen := rfl
@[simp] theorem rejectStart_tLen (code : ErrCode) (s : State) : (rejectStart code s).tLen = s.tLen := rfl
@[simp] theorem rejectStart_oidLen (code : ErrCode) (s : State) : (rejectStart code s).oidLen = s.oidLen := rfl
@[simp] theorem rejectStart_sigLen (code : ErrCode) (s : State) : (rejectStart code s).sigLen = s.sigLen := rfl
@[simp] theorem rejectStart_pubLen (code : ErrCode) (s : State) : (rejectStart code s).pubLen = s.pubLen := rfl
@[simp] theorem rejectStart_nonceCap (code : ErrCode) (s : State) : (rejectStart code s).nonceCap = s.nonceCap := rfl
@[simp] theorem rejectStart_iterCount (code : ErrCode) (s : State) : (rejectStart code s).iterCount = s.iterCount := rfl
@[simp] theorem rejectStart_mem (code : ErrCode) (s : State) : (rejectStart code s).mem = s.mem := rfl
@[simp] theorem rejectStart_marks (code : ErrCode) (s : State) : (rejectStart code s).marks = s.marks := rfl
@[simp] theorem rejectStart_phase (code : ErrCode) (s : State) : (rejectStart code s).phase = s.phase := rfl
@[simp] theorem rejectStart_site (code : ErrCode) (s : State) : (rejectStart code s).site = s.site := rfl
@[simp] theorem rejectStart_theta (code : ErrCode) (s : State) : (rejectStart code s).theta = s.theta := rfl
@[simp] theorem rejectStart_cand (code : ErrCode) (s : State) : (rejectStart code s).cand = s.cand := rfl
@[simp] theorem rejectStart_scratch (code : ErrCode) (s : State) : (rejectStart code s).scratch = s.scratch := rfl
@[simp] theorem rejectStart_port (code : ErrCode) (s : State) : (rejectStart code s).port = s.port := rfl
@[simp] theorem rejectStart_events (code : ErrCode) (s : State) : (rejectStart code s).events = s.events := rfl
@[simp] theorem rejectStart_response (code : ErrCode) (s : State) : (rejectStart code s).response = s.response := rfl
@[simp] theorem rejectStart_draws (code : ErrCode) (s : State) : (rejectStart code s).draws = s.draws := rfl
@[simp] theorem rejectStart_epoch (code : ErrCode) (s : State) : (rejectStart code s).epoch = s.epoch := rfl

/-! ### endCommand -/

@[simp] theorem endCommand_ctrl (s : State) : (endCommand s).ctrl = s.ctrl := rfl
@[simp] theorem endCommand_done (s : State) : (endCommand s).done = s.done := rfl
@[simp] theorem endCommand_valid (s : State) : (endCommand s).valid = s.valid := rfl
@[simp] theorem endCommand_err (s : State) : (endCommand s).err = s.err := rfl
@[simp] theorem endCommand_digestLen (s : State) : (endCommand s).digestLen = s.digestLen := rfl
@[simp] theorem endCommand_tLen (s : State) : (endCommand s).tLen = s.tLen := rfl
@[simp] theorem endCommand_oidLen (s : State) : (endCommand s).oidLen = s.oidLen := rfl
@[simp] theorem endCommand_sigLen (s : State) : (endCommand s).sigLen = s.sigLen := rfl
@[simp] theorem endCommand_pubLen (s : State) : (endCommand s).pubLen = s.pubLen := rfl
@[simp] theorem endCommand_nonceCap (s : State) : (endCommand s).nonceCap = s.nonceCap := rfl
@[simp] theorem endCommand_iterCount (s : State) : (endCommand s).iterCount = s.iterCount := rfl
@[simp] theorem endCommand_mem (s : State) : (endCommand s).mem = s.mem := rfl
@[simp] theorem endCommand_marks (s : State) : (endCommand s).marks = s.marks := rfl
@[simp] theorem endCommand_phase (s : State) : (endCommand s).phase = .idle := rfl
@[simp] theorem endCommand_site (s : State) : (endCommand s).site = .entry := rfl
@[simp] theorem endCommand_theta (s : State) : (endCommand s).theta = [] := rfl
@[simp] theorem endCommand_cand (s : State) : (endCommand s).cand = [] := rfl
@[simp] theorem endCommand_scratch (s : State) : (endCommand s).scratch = Scratch.none := rfl
@[simp] theorem endCommand_port (s : State) : (endCommand s).port = none := rfl
@[simp] theorem endCommand_events (s : State) : (endCommand s).events = s.events := rfl
@[simp] theorem endCommand_response (s : State) : (endCommand s).response = s.response := rfl
@[simp] theorem endCommand_draws (s : State) : (endCommand s).draws = s.draws := rfl
@[simp] theorem endCommand_epoch (s : State) : (endCommand s).epoch = s.epoch := rfl

/-! ### finishCommand -/

@[simp] theorem finishCommand_ctrl (v : Bool) (s : State) : (finishCommand v s).ctrl = s.ctrl := rfl
@[simp] theorem finishCommand_done (v : Bool) (s : State) : (finishCommand v s).done = true := rfl
@[simp] theorem finishCommand_valid (v : Bool) (s : State) : (finishCommand v s).valid = v := rfl
@[simp] theorem finishCommand_err (v : Bool) (s : State) : (finishCommand v s).err = .none := rfl
@[simp] theorem finishCommand_digestLen (v : Bool) (s : State) : (finishCommand v s).digestLen = s.digestLen := rfl
@[simp] theorem finishCommand_tLen (v : Bool) (s : State) : (finishCommand v s).tLen = s.tLen := rfl
@[simp] theorem finishCommand_oidLen (v : Bool) (s : State) : (finishCommand v s).oidLen = s.oidLen := rfl
@[simp] theorem finishCommand_sigLen (v : Bool) (s : State) : (finishCommand v s).sigLen = s.sigLen := rfl
@[simp] theorem finishCommand_pubLen (v : Bool) (s : State) : (finishCommand v s).pubLen = s.pubLen := rfl
@[simp] theorem finishCommand_nonceCap (v : Bool) (s : State) : (finishCommand v s).nonceCap = s.nonceCap := rfl
@[simp] theorem finishCommand_iterCount (v : Bool) (s : State) : (finishCommand v s).iterCount = s.iterCount := rfl
@[simp] theorem finishCommand_mem (v : Bool) (s : State) : (finishCommand v s).mem = s.mem := rfl
@[simp] theorem finishCommand_marks (v : Bool) (s : State) : (finishCommand v s).marks = s.marks := rfl
@[simp] theorem finishCommand_phase (v : Bool) (s : State) : (finishCommand v s).phase = .idle := rfl
@[simp] theorem finishCommand_site (v : Bool) (s : State) : (finishCommand v s).site = .entry := rfl
@[simp] theorem finishCommand_theta (v : Bool) (s : State) : (finishCommand v s).theta = [] := rfl
@[simp] theorem finishCommand_cand (v : Bool) (s : State) : (finishCommand v s).cand = [] := rfl
@[simp] theorem finishCommand_scratch (v : Bool) (s : State) : (finishCommand v s).scratch = Scratch.none := rfl
@[simp] theorem finishCommand_port (v : Bool) (s : State) : (finishCommand v s).port = none := rfl
@[simp] theorem finishCommand_events (v : Bool) (s : State) : (finishCommand v s).events = s.events := rfl
@[simp] theorem finishCommand_response (v : Bool) (s : State) : (finishCommand v s).response = s.response := rfl
@[simp] theorem finishCommand_draws (v : Bool) (s : State) : (finishCommand v s).draws = s.draws := rfl
@[simp] theorem finishCommand_epoch (v : Bool) (s : State) : (finishCommand v s).epoch = s.epoch := rfl

/-! ### raiseErr -/

@[simp] theorem raiseErr_ctrl (code : ErrCode) (s : State) : (raiseErr code s).ctrl = s.ctrl := rfl
@[simp] theorem raiseErr_done (code : ErrCode) (s : State) : (raiseErr code s).done = true := rfl
@[simp] theorem raiseErr_valid (code : ErrCode) (s : State) : (raiseErr code s).valid = false := rfl
@[simp] theorem raiseErr_err (code : ErrCode) (s : State) : (raiseErr code s).err = code := rfl
@[simp] theorem raiseErr_digestLen (code : ErrCode) (s : State) : (raiseErr code s).digestLen = s.digestLen := rfl
@[simp] theorem raiseErr_tLen (code : ErrCode) (s : State) : (raiseErr code s).tLen = s.tLen := rfl
@[simp] theorem raiseErr_oidLen (code : ErrCode) (s : State) : (raiseErr code s).oidLen = s.oidLen := rfl
@[simp] theorem raiseErr_sigLen (code : ErrCode) (s : State) : (raiseErr code s).sigLen = s.sigLen := rfl
@[simp] theorem raiseErr_pubLen (code : ErrCode) (s : State) : (raiseErr code s).pubLen = s.pubLen := rfl
@[simp] theorem raiseErr_nonceCap (code : ErrCode) (s : State) : (raiseErr code s).nonceCap = s.nonceCap := rfl
@[simp] theorem raiseErr_iterCount (code : ErrCode) (s : State) : (raiseErr code s).iterCount = s.iterCount := rfl
@[simp] theorem raiseErr_mem (code : ErrCode) (s : State) : (raiseErr code s).mem = s.mem := rfl
@[simp] theorem raiseErr_marks (code : ErrCode) (s : State) : (raiseErr code s).marks = s.marks := rfl
@[simp] theorem raiseErr_phase (code : ErrCode) (s : State) : (raiseErr code s).phase = .idle := rfl
@[simp] theorem raiseErr_site (code : ErrCode) (s : State) : (raiseErr code s).site = .entry := rfl
@[simp] theorem raiseErr_theta (code : ErrCode) (s : State) : (raiseErr code s).theta = [] := rfl
@[simp] theorem raiseErr_cand (code : ErrCode) (s : State) : (raiseErr code s).cand = [] := rfl
@[simp] theorem raiseErr_scratch (code : ErrCode) (s : State) : (raiseErr code s).scratch = Scratch.none := rfl
@[simp] theorem raiseErr_port (code : ErrCode) (s : State) : (raiseErr code s).port = none := rfl
@[simp] theorem raiseErr_events (code : ErrCode) (s : State) : (raiseErr code s).events = s.events := rfl
@[simp] theorem raiseErr_response (code : ErrCode) (s : State) : (raiseErr code s).response = s.response := rfl
@[simp] theorem raiseErr_draws (code : ErrCode) (s : State) : (raiseErr code s).draws = s.draws := rfl
@[simp] theorem raiseErr_epoch (code : ErrCode) (s : State) : (raiseErr code s).epoch = s.epoch := rfl

/-! ### abortCommand -/

@[simp] theorem abortCommand_ctrl (s : State) : (abortCommand s).ctrl = s.ctrl := rfl
@[simp] theorem abortCommand_done (s : State) : (abortCommand s).done = true := rfl
@[simp] theorem abortCommand_valid (s : State) : (abortCommand s).valid = false := rfl
@[simp] theorem abortCommand_err (s : State) : (abortCommand s).err = .aborted := rfl
@[simp] theorem abortCommand_digestLen (s : State) : (abortCommand s).digestLen = s.digestLen := rfl
@[simp] theorem abortCommand_tLen (s : State) : (abortCommand s).tLen = s.tLen := rfl
@[simp] theorem abortCommand_oidLen (s : State) : (abortCommand s).oidLen = s.oidLen := rfl
@[simp] theorem abortCommand_sigLen (s : State) : (abortCommand s).sigLen = s.sigLen := rfl
@[simp] theorem abortCommand_pubLen (s : State) : (abortCommand s).pubLen = s.pubLen := rfl
@[simp] theorem abortCommand_nonceCap (s : State) : (abortCommand s).nonceCap = s.nonceCap := rfl
@[simp] theorem abortCommand_iterCount (s : State) : (abortCommand s).iterCount = s.iterCount := rfl
@[simp] theorem abortCommand_mem (s : State) : (abortCommand s).mem = s.mem := rfl
@[simp] theorem abortCommand_marks (s : State) : (abortCommand s).marks = s.marks := rfl
@[simp] theorem abortCommand_phase (s : State) : (abortCommand s).phase = .idle := rfl
@[simp] theorem abortCommand_site (s : State) : (abortCommand s).site = .entry := rfl
@[simp] theorem abortCommand_theta (s : State) : (abortCommand s).theta = [] := rfl
@[simp] theorem abortCommand_cand (s : State) : (abortCommand s).cand = [] := rfl
@[simp] theorem abortCommand_scratch (s : State) : (abortCommand s).scratch = Scratch.none := rfl
@[simp] theorem abortCommand_port (s : State) : (abortCommand s).port = none := rfl
@[simp] theorem abortCommand_events (s : State) : (abortCommand s).events = s.events := rfl
@[simp] theorem abortCommand_response (s : State) : (abortCommand s).response = s.response := rfl
@[simp] theorem abortCommand_draws (s : State) : (abortCommand s).draws = s.draws := rfl
@[simp] theorem abortCommand_epoch (s : State) : (abortCommand s).epoch = s.epoch := rfl

/-! ### clearDone -/

@[simp] theorem clearDone_ctrl (s : State) : (clearDone s).ctrl = s.ctrl := rfl
@[simp] theorem clearDone_done (s : State) : (clearDone s).done = false := rfl
@[simp] theorem clearDone_valid (s : State) : (clearDone s).valid = s.valid := rfl
@[simp] theorem clearDone_err (s : State) : (clearDone s).err = s.err := rfl
@[simp] theorem clearDone_digestLen (s : State) : (clearDone s).digestLen = s.digestLen := rfl
@[simp] theorem clearDone_tLen (s : State) : (clearDone s).tLen = s.tLen := rfl
@[simp] theorem clearDone_oidLen (s : State) : (clearDone s).oidLen = s.oidLen := rfl
@[simp] theorem clearDone_sigLen (s : State) : (clearDone s).sigLen = s.sigLen := rfl
@[simp] theorem clearDone_pubLen (s : State) : (clearDone s).pubLen = s.pubLen := rfl
@[simp] theorem clearDone_nonceCap (s : State) : (clearDone s).nonceCap = s.nonceCap := rfl
@[simp] theorem clearDone_iterCount (s : State) : (clearDone s).iterCount = s.iterCount := rfl
@[simp] theorem clearDone_mem (s : State) : (clearDone s).mem = s.mem := rfl
@[simp] theorem clearDone_marks (s : State) : (clearDone s).marks = s.marks := rfl
@[simp] theorem clearDone_phase (s : State) : (clearDone s).phase = s.phase := rfl
@[simp] theorem clearDone_site (s : State) : (clearDone s).site = s.site := rfl
@[simp] theorem clearDone_theta (s : State) : (clearDone s).theta = s.theta := rfl
@[simp] theorem clearDone_cand (s : State) : (clearDone s).cand = s.cand := rfl
@[simp] theorem clearDone_scratch (s : State) : (clearDone s).scratch = s.scratch := rfl
@[simp] theorem clearDone_port (s : State) : (clearDone s).port = s.port := rfl
@[simp] theorem clearDone_events (s : State) : (clearDone s).events = s.events := rfl
@[simp] theorem clearDone_response (s : State) : (clearDone s).response = s.response := rfl
@[simp] theorem clearDone_draws (s : State) : (clearDone s).draws = s.draws := rfl
@[simp] theorem clearDone_epoch (s : State) : (clearDone s).epoch = s.epoch := rfl

/-! ### resetBlock -/

@[simp] theorem resetBlock_ctrl (s : State) : (resetBlock s).ctrl = Ctrl.reset := rfl
@[simp] theorem resetBlock_done (s : State) : (resetBlock s).done = false := rfl
@[simp] theorem resetBlock_valid (s : State) : (resetBlock s).valid = false := rfl
@[simp] theorem resetBlock_err (s : State) : (resetBlock s).err = .none := rfl
@[simp] theorem resetBlock_digestLen (s : State) : (resetBlock s).digestLen = 0 := rfl
@[simp] theorem resetBlock_tLen (s : State) : (resetBlock s).tLen = 0 := rfl
@[simp] theorem resetBlock_oidLen (s : State) : (resetBlock s).oidLen = 0 := rfl
@[simp] theorem resetBlock_sigLen (s : State) : (resetBlock s).sigLen = 0 := rfl
@[simp] theorem resetBlock_pubLen (s : State) : (resetBlock s).pubLen = 0 := rfl
@[simp] theorem resetBlock_nonceCap (s : State) : (resetBlock s).nonceCap = 0 := rfl
@[simp] theorem resetBlock_iterCount (s : State) : (resetBlock s).iterCount = 0 := rfl
@[simp] theorem resetBlock_mem (s : State) : (resetBlock s).mem = s.mem := rfl
@[simp] theorem resetBlock_marks (s : State) : (resetBlock s).marks = [] := rfl
@[simp] theorem resetBlock_phase (s : State) : (resetBlock s).phase = .idle := rfl
@[simp] theorem resetBlock_site (s : State) : (resetBlock s).site = .entry := rfl
@[simp] theorem resetBlock_theta (s : State) : (resetBlock s).theta = [] := rfl
@[simp] theorem resetBlock_cand (s : State) : (resetBlock s).cand = [] := rfl
@[simp] theorem resetBlock_scratch (s : State) : (resetBlock s).scratch = Scratch.none := rfl
@[simp] theorem resetBlock_port (s : State) : (resetBlock s).port = none := rfl
@[simp] theorem resetBlock_events (s : State) : (resetBlock s).events = s.events := rfl
@[simp] theorem resetBlock_response (s : State) : (resetBlock s).response = s.response := rfl
@[simp] theorem resetBlock_draws (s : State) : (resetBlock s).draws = s.draws := rfl
@[simp] theorem resetBlock_epoch (s : State) : (resetBlock s).epoch = s.epoch := rfl

/-! ### sendRequest -/

@[simp] theorem sendRequest_ctrl (site : Site) (r : PortReq) (s : State) : (sendRequest site r s).ctrl = s.ctrl := rfl
@[simp] theorem sendRequest_done (site : Site) (r : PortReq) (s : State) : (sendRequest site r s).done = s.done := rfl
@[simp] theorem sendRequest_valid (site : Site) (r : PortReq) (s : State) : (sendRequest site r s).valid = s.valid := rfl
@[simp] theorem sendRequest_err (site : Site) (r : PortReq) (s : State) : (sendRequest site r s).err = s.err := rfl
@[simp] theorem sendRequest_digestLen (site : Site) (r : PortReq) (s : State) : (sendRequest site r s).digestLen = s.digestLen := rfl
@[simp] theorem sendRequest_tLen (site : Site) (r : PortReq) (s : State) : (sendRequest site r s).tLen = s.tLen := rfl
@[simp] theorem sendRequest_oidLen (site : Site) (r : PortReq) (s : State) : (sendRequest site r s).oidLen = s.oidLen := rfl
@[simp] theorem sendRequest_sigLen (site : Site) (r : PortReq) (s : State) : (sendRequest site r s).sigLen = s.sigLen := rfl
@[simp] theorem sendRequest_pubLen (site : Site) (r : PortReq) (s : State) : (sendRequest site r s).pubLen = s.pubLen := rfl
@[simp] theorem sendRequest_nonceCap (site : Site) (r : PortReq) (s : State) : (sendRequest site r s).nonceCap = s.nonceCap := rfl
@[simp] theorem sendRequest_iterCount (site : Site) (r : PortReq) (s : State) : (sendRequest site r s).iterCount = s.iterCount := rfl
@[simp] theorem sendRequest_mem (site : Site) (r : PortReq) (s : State) : (sendRequest site r s).mem = s.mem := rfl
@[simp] theorem sendRequest_marks (site : Site) (r : PortReq) (s : State) : (sendRequest site r s).marks = s.marks := rfl
@[simp] theorem sendRequest_phase (site : Site) (r : PortReq) (s : State) : (sendRequest site r s).phase = s.phase := rfl
@[simp] theorem sendRequest_site (site : Site) (r : PortReq) (s : State) : (sendRequest site r s).site = site := rfl
@[simp] theorem sendRequest_theta (site : Site) (r : PortReq) (s : State) : (sendRequest site r s).theta = s.theta := rfl
@[simp] theorem sendRequest_cand (site : Site) (r : PortReq) (s : State) : (sendRequest site r s).cand = s.cand := rfl
@[simp] theorem sendRequest_scratch (site : Site) (r : PortReq) (s : State) : (sendRequest site r s).scratch = s.scratch := rfl
@[simp] theorem sendRequest_port (site : Site) (r : PortReq) (s : State) : (sendRequest site r s).port = some r := rfl
@[simp] theorem sendRequest_events (site : Site) (r : PortReq) (s : State) : (sendRequest site r s).events = s.events := rfl
@[simp] theorem sendRequest_response (site : Site) (r : PortReq) (s : State) : (sendRequest site r s).response = s.response := rfl
@[simp] theorem sendRequest_draws (site : Site) (r : PortReq) (s : State) : (sendRequest site r s).draws = s.draws := rfl
@[simp] theorem sendRequest_epoch (site : Site) (r : PortReq) (s : State) : (sendRequest site r s).epoch = s.epoch := rfl

/-! ### moveTo -/

@[simp] theorem moveTo_ctrl (site : Site) (s : State) : (moveTo site s).ctrl = s.ctrl := rfl
@[simp] theorem moveTo_done (site : Site) (s : State) : (moveTo site s).done = s.done := rfl
@[simp] theorem moveTo_valid (site : Site) (s : State) : (moveTo site s).valid = s.valid := rfl
@[simp] theorem moveTo_err (site : Site) (s : State) : (moveTo site s).err = s.err := rfl
@[simp] theorem moveTo_digestLen (site : Site) (s : State) : (moveTo site s).digestLen = s.digestLen := rfl
@[simp] theorem moveTo_tLen (site : Site) (s : State) : (moveTo site s).tLen = s.tLen := rfl
@[simp] theorem moveTo_oidLen (site : Site) (s : State) : (moveTo site s).oidLen = s.oidLen := rfl
@[simp] theorem moveTo_sigLen (site : Site) (s : State) : (moveTo site s).sigLen = s.sigLen := rfl
@[simp] theorem moveTo_pubLen (site : Site) (s : State) : (moveTo site s).pubLen = s.pubLen := rfl
@[simp] theorem moveTo_nonceCap (site : Site) (s : State) : (moveTo site s).nonceCap = s.nonceCap := rfl
@[simp] theorem moveTo_iterCount (site : Site) (s : State) : (moveTo site s).iterCount = s.iterCount := rfl
@[simp] theorem moveTo_mem (site : Site) (s : State) : (moveTo site s).mem = s.mem := rfl
@[simp] theorem moveTo_marks (site : Site) (s : State) : (moveTo site s).marks = s.marks := rfl
@[simp] theorem moveTo_phase (site : Site) (s : State) : (moveTo site s).phase = s.phase := rfl
@[simp] theorem moveTo_site (site : Site) (s : State) : (moveTo site s).site = site := rfl
@[simp] theorem moveTo_theta (site : Site) (s : State) : (moveTo site s).theta = s.theta := rfl
@[simp] theorem moveTo_cand (site : Site) (s : State) : (moveTo site s).cand = s.cand := rfl
@[simp] theorem moveTo_scratch (site : Site) (s : State) : (moveTo site s).scratch = s.scratch := rfl
@[simp] theorem moveTo_port (site : Site) (s : State) : (moveTo site s).port = none := rfl
@[simp] theorem moveTo_events (site : Site) (s : State) : (moveTo site s).events = s.events := rfl
@[simp] theorem moveTo_response (site : Site) (s : State) : (moveTo site s).response = s.response := rfl
@[simp] theorem moveTo_draws (site : Site) (s : State) : (moveTo site s).draws = s.draws := rfl
@[simp] theorem moveTo_epoch (site : Site) (s : State) : (moveTo site s).epoch = s.epoch := rfl

/-! ### setPhase -/

@[simp] theorem setPhase_ctrl (p : Phase) (s : State) : (setPhase p s).ctrl = s.ctrl := rfl
@[simp] theorem setPhase_done (p : Phase) (s : State) : (setPhase p s).done = s.done := rfl
@[simp] theorem setPhase_valid (p : Phase) (s : State) : (setPhase p s).valid = s.valid := rfl
@[simp] theorem setPhase_err (p : Phase) (s : State) : (setPhase p s).err = s.err := rfl
@[simp] theorem setPhase_digestLen (p : Phase) (s : State) : (setPhase p s).digestLen = s.digestLen := rfl
@[simp] theorem setPhase_tLen (p : Phase) (s : State) : (setPhase p s).tLen = s.tLen := rfl
@[simp] theorem setPhase_oidLen (p : Phase) (s : State) : (setPhase p s).oidLen = s.oidLen := rfl
@[simp] theorem setPhase_sigLen (p : Phase) (s : State) : (setPhase p s).sigLen = s.sigLen := rfl
@[simp] theorem setPhase_pubLen (p : Phase) (s : State) : (setPhase p s).pubLen = s.pubLen := rfl
@[simp] theorem setPhase_nonceCap (p : Phase) (s : State) : (setPhase p s).nonceCap = s.nonceCap := rfl
@[simp] theorem setPhase_iterCount (p : Phase) (s : State) : (setPhase p s).iterCount = s.iterCount := rfl
@[simp] theorem setPhase_mem (p : Phase) (s : State) : (setPhase p s).mem = s.mem := rfl
@[simp] theorem setPhase_marks (p : Phase) (s : State) : (setPhase p s).marks = s.marks := rfl
@[simp] theorem setPhase_phase (p : Phase) (s : State) : (setPhase p s).phase = p := rfl
@[simp] theorem setPhase_site (p : Phase) (s : State) : (setPhase p s).site = s.site := rfl
@[simp] theorem setPhase_theta (p : Phase) (s : State) : (setPhase p s).theta = s.theta := rfl
@[simp] theorem setPhase_cand (p : Phase) (s : State) : (setPhase p s).cand = s.cand := rfl
@[simp] theorem setPhase_scratch (p : Phase) (s : State) : (setPhase p s).scratch = s.scratch := rfl
@[simp] theorem setPhase_port (p : Phase) (s : State) : (setPhase p s).port = s.port := rfl
@[simp] theorem setPhase_events (p : Phase) (s : State) : (setPhase p s).events = s.events := rfl
@[simp] theorem setPhase_response (p : Phase) (s : State) : (setPhase p s).response = s.response := rfl
@[simp] theorem setPhase_draws (p : Phase) (s : State) : (setPhase p s).draws = s.draws := rfl
@[simp] theorem setPhase_epoch (p : Phase) (s : State) : (setPhase p s).epoch = s.epoch := rfl

/-! ### setScratch -/

@[simp] theorem setScratch_ctrl (r : Scratch) (s : State) : (setScratch r s).ctrl = s.ctrl := rfl
@[simp] theorem setScratch_done (r : Scratch) (s : State) : (setScratch r s).done = s.done := rfl
@[simp] theorem setScratch_valid (r : Scratch) (s : State) : (setScratch r s).valid = s.valid := rfl
@[simp] theorem setScratch_err (r : Scratch) (s : State) : (setScratch r s).err = s.err := rfl
@[simp] theorem setScratch_digestLen (r : Scratch) (s : State) : (setScratch r s).digestLen = s.digestLen := rfl
@[simp] theorem setScratch_tLen (r : Scratch) (s : State) : (setScratch r s).tLen = s.tLen := rfl
@[simp] theorem setScratch_oidLen (r : Scratch) (s : State) : (setScratch r s).oidLen = s.oidLen := rfl
@[simp] theorem setScratch_sigLen (r : Scratch) (s : State) : (setScratch r s).sigLen = s.sigLen := rfl
@[simp] theorem setScratch_pubLen (r : Scratch) (s : State) : (setScratch r s).pubLen = s.pubLen := rfl
@[simp] theorem setScratch_nonceCap (r : Scratch) (s : State) : (setScratch r s).nonceCap = s.nonceCap := rfl
@[simp] theorem setScratch_iterCount (r : Scratch) (s : State) : (setScratch r s).iterCount = s.iterCount := rfl
@[simp] theorem setScratch_mem (r : Scratch) (s : State) : (setScratch r s).mem = s.mem := rfl
@[simp] theorem setScratch_marks (r : Scratch) (s : State) : (setScratch r s).marks = s.marks := rfl
@[simp] theorem setScratch_phase (r : Scratch) (s : State) : (setScratch r s).phase = s.phase := rfl
@[simp] theorem setScratch_site (r : Scratch) (s : State) : (setScratch r s).site = s.site := rfl
@[simp] theorem setScratch_theta (r : Scratch) (s : State) : (setScratch r s).theta = s.theta := rfl
@[simp] theorem setScratch_cand (r : Scratch) (s : State) : (setScratch r s).cand = s.cand := rfl
@[simp] theorem setScratch_scratch (r : Scratch) (s : State) : (setScratch r s).scratch = r := rfl
@[simp] theorem setScratch_port (r : Scratch) (s : State) : (setScratch r s).port = s.port := rfl
@[simp] theorem setScratch_events (r : Scratch) (s : State) : (setScratch r s).events = s.events := rfl
@[simp] theorem setScratch_response (r : Scratch) (s : State) : (setScratch r s).response = s.response := rfl
@[simp] theorem setScratch_draws (r : Scratch) (s : State) : (setScratch r s).draws = s.draws := rfl
@[simp] theorem setScratch_epoch (r : Scratch) (s : State) : (setScratch r s).epoch = s.epoch := rfl

/-! ### setNonce -/

@[simp] theorem setNonce_ctrl (theta cand : Bytes) (s : State) : (setNonce theta cand s).ctrl = s.ctrl := rfl
@[simp] theorem setNonce_done (theta cand : Bytes) (s : State) : (setNonce theta cand s).done = s.done := rfl
@[simp] theorem setNonce_valid (theta cand : Bytes) (s : State) : (setNonce theta cand s).valid = s.valid := rfl
@[simp] theorem setNonce_err (theta cand : Bytes) (s : State) : (setNonce theta cand s).err = s.err := rfl
@[simp] theorem setNonce_digestLen (theta cand : Bytes) (s : State) : (setNonce theta cand s).digestLen = s.digestLen := rfl
@[simp] theorem setNonce_tLen (theta cand : Bytes) (s : State) : (setNonce theta cand s).tLen = s.tLen := rfl
@[simp] theorem setNonce_oidLen (theta cand : Bytes) (s : State) : (setNonce theta cand s).oidLen = s.oidLen := rfl
@[simp] theorem setNonce_sigLen (theta cand : Bytes) (s : State) : (setNonce theta cand s).sigLen = s.sigLen := rfl
@[simp] theorem setNonce_pubLen (theta cand : Bytes) (s : State) : (setNonce theta cand s).pubLen = s.pubLen := rfl
@[simp] theorem setNonce_nonceCap (theta cand : Bytes) (s : State) : (setNonce theta cand s).nonceCap = s.nonceCap := rfl
@[simp] theorem setNonce_iterCount (theta cand : Bytes) (s : State) : (setNonce theta cand s).iterCount = s.iterCount := rfl
@[simp] theorem setNonce_mem (theta cand : Bytes) (s : State) : (setNonce theta cand s).mem = s.mem := rfl
@[simp] theorem setNonce_marks (theta cand : Bytes) (s : State) : (setNonce theta cand s).marks = s.marks := rfl
@[simp] theorem setNonce_phase (theta cand : Bytes) (s : State) : (setNonce theta cand s).phase = s.phase := rfl
@[simp] theorem setNonce_site (theta cand : Bytes) (s : State) : (setNonce theta cand s).site = s.site := rfl
@[simp] theorem setNonce_theta (theta cand : Bytes) (s : State) : (setNonce theta cand s).theta = theta := rfl
@[simp] theorem setNonce_cand (theta cand : Bytes) (s : State) : (setNonce theta cand s).cand = cand := rfl
@[simp] theorem setNonce_scratch (theta cand : Bytes) (s : State) : (setNonce theta cand s).scratch = s.scratch := rfl
@[simp] theorem setNonce_port (theta cand : Bytes) (s : State) : (setNonce theta cand s).port = s.port := rfl
@[simp] theorem setNonce_events (theta cand : Bytes) (s : State) : (setNonce theta cand s).events = s.events := rfl
@[simp] theorem setNonce_response (theta cand : Bytes) (s : State) : (setNonce theta cand s).response = s.response := rfl
@[simp] theorem setNonce_draws (theta cand : Bytes) (s : State) : (setNonce theta cand s).draws = s.draws := rfl
@[simp] theorem setNonce_epoch (theta cand : Bytes) (s : State) : (setNonce theta cand s).epoch = s.epoch := rfl

/-! ### setIterCount -/

@[simp] theorem setIterCount_ctrl (i : BitVec 32) (s : State) : (setIterCount i s).ctrl = s.ctrl := rfl
@[simp] theorem setIterCount_done (i : BitVec 32) (s : State) : (setIterCount i s).done = s.done := rfl
@[simp] theorem setIterCount_valid (i : BitVec 32) (s : State) : (setIterCount i s).valid = s.valid := rfl
@[simp] theorem setIterCount_err (i : BitVec 32) (s : State) : (setIterCount i s).err = s.err := rfl
@[simp] theorem setIterCount_digestLen (i : BitVec 32) (s : State) : (setIterCount i s).digestLen = s.digestLen := rfl
@[simp] theorem setIterCount_tLen (i : BitVec 32) (s : State) : (setIterCount i s).tLen = s.tLen := rfl
@[simp] theorem setIterCount_oidLen (i : BitVec 32) (s : State) : (setIterCount i s).oidLen = s.oidLen := rfl
@[simp] theorem setIterCount_sigLen (i : BitVec 32) (s : State) : (setIterCount i s).sigLen = s.sigLen := rfl
@[simp] theorem setIterCount_pubLen (i : BitVec 32) (s : State) : (setIterCount i s).pubLen = s.pubLen := rfl
@[simp] theorem setIterCount_nonceCap (i : BitVec 32) (s : State) : (setIterCount i s).nonceCap = s.nonceCap := rfl
@[simp] theorem setIterCount_iterCount (i : BitVec 32) (s : State) : (setIterCount i s).iterCount = i := rfl
@[simp] theorem setIterCount_mem (i : BitVec 32) (s : State) : (setIterCount i s).mem = s.mem := rfl
@[simp] theorem setIterCount_marks (i : BitVec 32) (s : State) : (setIterCount i s).marks = s.marks := rfl
@[simp] theorem setIterCount_phase (i : BitVec 32) (s : State) : (setIterCount i s).phase = s.phase := rfl
@[simp] theorem setIterCount_site (i : BitVec 32) (s : State) : (setIterCount i s).site = s.site := rfl
@[simp] theorem setIterCount_theta (i : BitVec 32) (s : State) : (setIterCount i s).theta = s.theta := rfl
@[simp] theorem setIterCount_cand (i : BitVec 32) (s : State) : (setIterCount i s).cand = s.cand := rfl
@[simp] theorem setIterCount_scratch (i : BitVec 32) (s : State) : (setIterCount i s).scratch = s.scratch := rfl
@[simp] theorem setIterCount_port (i : BitVec 32) (s : State) : (setIterCount i s).port = s.port := rfl
@[simp] theorem setIterCount_events (i : BitVec 32) (s : State) : (setIterCount i s).events = s.events := rfl
@[simp] theorem setIterCount_response (i : BitVec 32) (s : State) : (setIterCount i s).response = s.response := rfl
@[simp] theorem setIterCount_draws (i : BitVec 32) (s : State) : (setIterCount i s).draws = s.draws := rfl
@[simp] theorem setIterCount_epoch (i : BitVec 32) (s : State) : (setIterCount i s).epoch = s.epoch := rfl

/-! ### setSigLen -/

@[simp] theorem setSigLen_ctrl (n : BitVec 8) (s : State) : (setSigLen n s).ctrl = s.ctrl := rfl
@[simp] theorem setSigLen_done (n : BitVec 8) (s : State) : (setSigLen n s).done = s.done := rfl
@[simp] theorem setSigLen_valid (n : BitVec 8) (s : State) : (setSigLen n s).valid = s.valid := rfl
@[simp] theorem setSigLen_err (n : BitVec 8) (s : State) : (setSigLen n s).err = s.err := rfl
@[simp] theorem setSigLen_digestLen (n : BitVec 8) (s : State) : (setSigLen n s).digestLen = s.digestLen := rfl
@[simp] theorem setSigLen_tLen (n : BitVec 8) (s : State) : (setSigLen n s).tLen = s.tLen := rfl
@[simp] theorem setSigLen_oidLen (n : BitVec 8) (s : State) : (setSigLen n s).oidLen = s.oidLen := rfl
@[simp] theorem setSigLen_sigLen (n : BitVec 8) (s : State) : (setSigLen n s).sigLen = n := rfl
@[simp] theorem setSigLen_pubLen (n : BitVec 8) (s : State) : (setSigLen n s).pubLen = s.pubLen := rfl
@[simp] theorem setSigLen_nonceCap (n : BitVec 8) (s : State) : (setSigLen n s).nonceCap = s.nonceCap := rfl
@[simp] theorem setSigLen_iterCount (n : BitVec 8) (s : State) : (setSigLen n s).iterCount = s.iterCount := rfl
@[simp] theorem setSigLen_mem (n : BitVec 8) (s : State) : (setSigLen n s).mem = s.mem := rfl
@[simp] theorem setSigLen_marks (n : BitVec 8) (s : State) : (setSigLen n s).marks = s.marks := rfl
@[simp] theorem setSigLen_phase (n : BitVec 8) (s : State) : (setSigLen n s).phase = s.phase := rfl
@[simp] theorem setSigLen_site (n : BitVec 8) (s : State) : (setSigLen n s).site = s.site := rfl
@[simp] theorem setSigLen_theta (n : BitVec 8) (s : State) : (setSigLen n s).theta = s.theta := rfl
@[simp] theorem setSigLen_cand (n : BitVec 8) (s : State) : (setSigLen n s).cand = s.cand := rfl
@[simp] theorem setSigLen_scratch (n : BitVec 8) (s : State) : (setSigLen n s).scratch = s.scratch := rfl
@[simp] theorem setSigLen_port (n : BitVec 8) (s : State) : (setSigLen n s).port = s.port := rfl
@[simp] theorem setSigLen_events (n : BitVec 8) (s : State) : (setSigLen n s).events = s.events := rfl
@[simp] theorem setSigLen_response (n : BitVec 8) (s : State) : (setSigLen n s).response = s.response := rfl
@[simp] theorem setSigLen_draws (n : BitVec 8) (s : State) : (setSigLen n s).draws = s.draws := rfl
@[simp] theorem setSigLen_epoch (n : BitVec 8) (s : State) : (setSigLen n s).epoch = s.epoch := rfl

/-! ### setPubLen -/

@[simp] theorem setPubLen_ctrl (n : BitVec 8) (s : State) : (setPubLen n s).ctrl = s.ctrl := rfl
@[simp] theorem setPubLen_done (n : BitVec 8) (s : State) : (setPubLen n s).done = s.done := rfl
@[simp] theorem setPubLen_valid (n : BitVec 8) (s : State) : (setPubLen n s).valid = s.valid := rfl
@[simp] theorem setPubLen_err (n : BitVec 8) (s : State) : (setPubLen n s).err = s.err := rfl
@[simp] theorem setPubLen_digestLen (n : BitVec 8) (s : State) : (setPubLen n s).digestLen = s.digestLen := rfl
@[simp] theorem setPubLen_tLen (n : BitVec 8) (s : State) : (setPubLen n s).tLen = s.tLen := rfl
@[simp] theorem setPubLen_oidLen (n : BitVec 8) (s : State) : (setPubLen n s).oidLen = s.oidLen := rfl
@[simp] theorem setPubLen_sigLen (n : BitVec 8) (s : State) : (setPubLen n s).sigLen = s.sigLen := rfl
@[simp] theorem setPubLen_pubLen (n : BitVec 8) (s : State) : (setPubLen n s).pubLen = n := rfl
@[simp] theorem setPubLen_nonceCap (n : BitVec 8) (s : State) : (setPubLen n s).nonceCap = s.nonceCap := rfl
@[simp] theorem setPubLen_iterCount (n : BitVec 8) (s : State) : (setPubLen n s).iterCount = s.iterCount := rfl
@[simp] theorem setPubLen_mem (n : BitVec 8) (s : State) : (setPubLen n s).mem = s.mem := rfl
@[simp] theorem setPubLen_marks (n : BitVec 8) (s : State) : (setPubLen n s).marks = s.marks := rfl
@[simp] theorem setPubLen_phase (n : BitVec 8) (s : State) : (setPubLen n s).phase = s.phase := rfl
@[simp] theorem setPubLen_site (n : BitVec 8) (s : State) : (setPubLen n s).site = s.site := rfl
@[simp] theorem setPubLen_theta (n : BitVec 8) (s : State) : (setPubLen n s).theta = s.theta := rfl
@[simp] theorem setPubLen_cand (n : BitVec 8) (s : State) : (setPubLen n s).cand = s.cand := rfl
@[simp] theorem setPubLen_scratch (n : BitVec 8) (s : State) : (setPubLen n s).scratch = s.scratch := rfl
@[simp] theorem setPubLen_port (n : BitVec 8) (s : State) : (setPubLen n s).port = s.port := rfl
@[simp] theorem setPubLen_events (n : BitVec 8) (s : State) : (setPubLen n s).events = s.events := rfl
@[simp] theorem setPubLen_response (n : BitVec 8) (s : State) : (setPubLen n s).response = s.response := rfl
@[simp] theorem setPubLen_draws (n : BitVec 8) (s : State) : (setPubLen n s).draws = s.draws := rfl
@[simp] theorem setPubLen_epoch (n : BitVec 8) (s : State) : (setPubLen n s).epoch = s.epoch := rfl

/-! ### countDraw -/

@[simp] theorem countDraw_ctrl (s : State) : (countDraw s).ctrl = s.ctrl := rfl
@[simp] theorem countDraw_done (s : State) : (countDraw s).done = s.done := rfl
@[simp] theorem countDraw_valid (s : State) : (countDraw s).valid = s.valid := rfl
@[simp] theorem countDraw_err (s : State) : (countDraw s).err = s.err := rfl
@[simp] theorem countDraw_digestLen (s : State) : (countDraw s).digestLen = s.digestLen := rfl
@[simp] theorem countDraw_tLen (s : State) : (countDraw s).tLen = s.tLen := rfl
@[simp] theorem countDraw_oidLen (s : State) : (countDraw s).oidLen = s.oidLen := rfl
@[simp] theorem countDraw_sigLen (s : State) : (countDraw s).sigLen = s.sigLen := rfl
@[simp] theorem countDraw_pubLen (s : State) : (countDraw s).pubLen = s.pubLen := rfl
@[simp] theorem countDraw_nonceCap (s : State) : (countDraw s).nonceCap = s.nonceCap := rfl
@[simp] theorem countDraw_iterCount (s : State) : (countDraw s).iterCount = s.iterCount := rfl
@[simp] theorem countDraw_mem (s : State) : (countDraw s).mem = s.mem := rfl
@[simp] theorem countDraw_marks (s : State) : (countDraw s).marks = s.marks := rfl
@[simp] theorem countDraw_phase (s : State) : (countDraw s).phase = s.phase := rfl
@[simp] theorem countDraw_site (s : State) : (countDraw s).site = s.site := rfl
@[simp] theorem countDraw_theta (s : State) : (countDraw s).theta = s.theta := rfl
@[simp] theorem countDraw_cand (s : State) : (countDraw s).cand = s.cand := rfl
@[simp] theorem countDraw_scratch (s : State) : (countDraw s).scratch = s.scratch := rfl
@[simp] theorem countDraw_port (s : State) : (countDraw s).port = s.port := rfl
@[simp] theorem countDraw_events (s : State) : (countDraw s).events = s.events := rfl
@[simp] theorem countDraw_response (s : State) : (countDraw s).response = s.response := rfl
@[simp] theorem countDraw_draws (s : State) : (countDraw s).draws = s.draws + 1 := rfl
@[simp] theorem countDraw_epoch (s : State) : (countDraw s).epoch = s.epoch := rfl

/-! ### respond -/

@[simp] theorem respond_ctrl (r : BusResponse) (s : State) : (respond r s).ctrl = s.ctrl := rfl
@[simp] theorem respond_done (r : BusResponse) (s : State) : (respond r s).done = s.done := rfl
@[simp] theorem respond_valid (r : BusResponse) (s : State) : (respond r s).valid = s.valid := rfl
@[simp] theorem respond_err (r : BusResponse) (s : State) : (respond r s).err = s.err := rfl
@[simp] theorem respond_digestLen (r : BusResponse) (s : State) : (respond r s).digestLen = s.digestLen := rfl
@[simp] theorem respond_tLen (r : BusResponse) (s : State) : (respond r s).tLen = s.tLen := rfl
@[simp] theorem respond_oidLen (r : BusResponse) (s : State) : (respond r s).oidLen = s.oidLen := rfl
@[simp] theorem respond_sigLen (r : BusResponse) (s : State) : (respond r s).sigLen = s.sigLen := rfl
@[simp] theorem respond_pubLen (r : BusResponse) (s : State) : (respond r s).pubLen = s.pubLen := rfl
@[simp] theorem respond_nonceCap (r : BusResponse) (s : State) : (respond r s).nonceCap = s.nonceCap := rfl
@[simp] theorem respond_iterCount (r : BusResponse) (s : State) : (respond r s).iterCount = s.iterCount := rfl
@[simp] theorem respond_mem (r : BusResponse) (s : State) : (respond r s).mem = s.mem := rfl
@[simp] theorem respond_marks (r : BusResponse) (s : State) : (respond r s).marks = s.marks := rfl
@[simp] theorem respond_phase (r : BusResponse) (s : State) : (respond r s).phase = s.phase := rfl
@[simp] theorem respond_site (r : BusResponse) (s : State) : (respond r s).site = s.site := rfl
@[simp] theorem respond_theta (r : BusResponse) (s : State) : (respond r s).theta = s.theta := rfl
@[simp] theorem respond_cand (r : BusResponse) (s : State) : (respond r s).cand = s.cand := rfl
@[simp] theorem respond_scratch (r : BusResponse) (s : State) : (respond r s).scratch = s.scratch := rfl
@[simp] theorem respond_port (r : BusResponse) (s : State) : (respond r s).port = s.port := rfl
@[simp] theorem respond_events (r : BusResponse) (s : State) : (respond r s).events = s.events := rfl
@[simp] theorem respond_response (r : BusResponse) (s : State) : (respond r s).response = r := rfl
@[simp] theorem respond_draws (r : BusResponse) (s : State) : (respond r s).draws = s.draws := rfl
@[simp] theorem respond_epoch (r : BusResponse) (s : State) : (respond r s).epoch = s.epoch := rfl

/-! ### writeBytes and writeBuffer: memory and marks alone -/

@[simp] theorem writeBytes_ctrl (a : Nat) (bs : Bytes) (s : State) : (writeBytes a bs s).ctrl = s.ctrl := by
  induction bs generalizing a s with
  | nil => rfl
  | cons b t ih => rw [writeBytes, ih, writeByte_ctrl]

@[simp] theorem writeBytes_done (a : Nat) (bs : Bytes) (s : State) : (writeBytes a bs s).done = s.done := by
  induction bs generalizing a s with
  | nil => rfl
  | cons b t ih => rw [writeBytes, ih, writeByte_done]

@[simp] theorem writeBytes_valid (a : Nat) (bs : Bytes) (s : State) : (writeBytes a bs s).valid = s.valid := by
  induction bs generalizing a s with
  | nil => rfl
  | cons b t ih => rw [writeBytes, ih, writeByte_valid]

@[simp] theorem writeBytes_err (a : Nat) (bs : Bytes) (s : State) : (writeBytes a bs s).err = s.err := by
  induction bs generalizing a s with
  | nil => rfl
  | cons b t ih => rw [writeBytes, ih, writeByte_err]

@[simp] theorem writeBytes_digestLen (a : Nat) (bs : Bytes) (s : State) : (writeBytes a bs s).digestLen = s.digestLen := by
  induction bs generalizing a s with
  | nil => rfl
  | cons b t ih => rw [writeBytes, ih, writeByte_digestLen]

@[simp] theorem writeBytes_tLen (a : Nat) (bs : Bytes) (s : State) : (writeBytes a bs s).tLen = s.tLen := by
  induction bs generalizing a s with
  | nil => rfl
  | cons b t ih => rw [writeBytes, ih, writeByte_tLen]

@[simp] theorem writeBytes_oidLen (a : Nat) (bs : Bytes) (s : State) : (writeBytes a bs s).oidLen = s.oidLen := by
  induction bs generalizing a s with
  | nil => rfl
  | cons b t ih => rw [writeBytes, ih, writeByte_oidLen]

@[simp] theorem writeBytes_sigLen (a : Nat) (bs : Bytes) (s : State) : (writeBytes a bs s).sigLen = s.sigLen := by
  induction bs generalizing a s with
  | nil => rfl
  | cons b t ih => rw [writeBytes, ih, writeByte_sigLen]

@[simp] theorem writeBytes_pubLen (a : Nat) (bs : Bytes) (s : State) : (writeBytes a bs s).pubLen = s.pubLen := by
  induction bs generalizing a s with
  | nil => rfl
  | cons b t ih => rw [writeBytes, ih, writeByte_pubLen]

@[simp] theorem writeBytes_nonceCap (a : Nat) (bs : Bytes) (s : State) : (writeBytes a bs s).nonceCap = s.nonceCap := by
  induction bs generalizing a s with
  | nil => rfl
  | cons b t ih => rw [writeBytes, ih, writeByte_nonceCap]

@[simp] theorem writeBytes_iterCount (a : Nat) (bs : Bytes) (s : State) : (writeBytes a bs s).iterCount = s.iterCount := by
  induction bs generalizing a s with
  | nil => rfl
  | cons b t ih => rw [writeBytes, ih, writeByte_iterCount]

@[simp] theorem writeBytes_phase (a : Nat) (bs : Bytes) (s : State) : (writeBytes a bs s).phase = s.phase := by
  induction bs generalizing a s with
  | nil => rfl
  | cons b t ih => rw [writeBytes, ih, writeByte_phase]

@[simp] theorem writeBytes_site (a : Nat) (bs : Bytes) (s : State) : (writeBytes a bs s).site = s.site := by
  induction bs generalizing a s with
  | nil => rfl
  | cons b t ih => rw [writeBytes, ih, writeByte_site]

@[simp] theorem writeBytes_theta (a : Nat) (bs : Bytes) (s : State) : (writeBytes a bs s).theta = s.theta := by
  induction bs generalizing a s with
  | nil => rfl
  | cons b t ih => rw [writeBytes, ih, writeByte_theta]

@[simp] theorem writeBytes_cand (a : Nat) (bs : Bytes) (s : State) : (writeBytes a bs s).cand = s.cand := by
  induction bs generalizing a s with
  | nil => rfl
  | cons b t ih => rw [writeBytes, ih, writeByte_cand]

@[simp] theorem writeBytes_scratch (a : Nat) (bs : Bytes) (s : State) : (writeBytes a bs s).scratch = s.scratch := by
  induction bs generalizing a s with
  | nil => rfl
  | cons b t ih => rw [writeBytes, ih, writeByte_scratch]

@[simp] theorem writeBytes_port (a : Nat) (bs : Bytes) (s : State) : (writeBytes a bs s).port = s.port := by
  induction bs generalizing a s with
  | nil => rfl
  | cons b t ih => rw [writeBytes, ih, writeByte_port]

@[simp] theorem writeBytes_events (a : Nat) (bs : Bytes) (s : State) : (writeBytes a bs s).events = s.events := by
  induction bs generalizing a s with
  | nil => rfl
  | cons b t ih => rw [writeBytes, ih, writeByte_events]

@[simp] theorem writeBytes_response (a : Nat) (bs : Bytes) (s : State) : (writeBytes a bs s).response = s.response := by
  induction bs generalizing a s with
  | nil => rfl
  | cons b t ih => rw [writeBytes, ih, writeByte_response]

@[simp] theorem writeBytes_draws (a : Nat) (bs : Bytes) (s : State) : (writeBytes a bs s).draws = s.draws := by
  induction bs generalizing a s with
  | nil => rfl
  | cons b t ih => rw [writeBytes, ih, writeByte_draws]

@[simp] theorem writeBytes_epoch (a : Nat) (bs : Bytes) (s : State) : (writeBytes a bs s).epoch = s.epoch := by
  induction bs generalizing a s with
  | nil => rfl
  | cons b t ih => rw [writeBytes, ih, writeByte_epoch]

@[simp] theorem writeBuffer_ctrl (b : Buffer) (bs : Bytes) (s : State) : (writeBuffer b bs s).ctrl = s.ctrl :=
  writeBytes_ctrl _ _ _
@[simp] theorem writeBuffer_done (b : Buffer) (bs : Bytes) (s : State) : (writeBuffer b bs s).done = s.done :=
  writeBytes_done _ _ _
@[simp] theorem writeBuffer_valid (b : Buffer) (bs : Bytes) (s : State) : (writeBuffer b bs s).valid = s.valid :=
  writeBytes_valid _ _ _
@[simp] theorem writeBuffer_err (b : Buffer) (bs : Bytes) (s : State) : (writeBuffer b bs s).err = s.err :=
  writeBytes_err _ _ _
@[simp] theorem writeBuffer_digestLen (b : Buffer) (bs : Bytes) (s : State) : (writeBuffer b bs s).digestLen = s.digestLen :=
  writeBytes_digestLen _ _ _
@[simp] theorem writeBuffer_tLen (b : Buffer) (bs : Bytes) (s : State) : (writeBuffer b bs s).tLen = s.tLen :=
  writeBytes_tLen _ _ _
@[simp] theorem writeBuffer_oidLen (b : Buffer) (bs : Bytes) (s : State) : (writeBuffer b bs s).oidLen = s.oidLen :=
  writeBytes_oidLen _ _ _
@[simp] theorem writeBuffer_sigLen (b : Buffer) (bs : Bytes) (s : State) : (writeBuffer b bs s).sigLen = s.sigLen :=
  writeBytes_sigLen _ _ _
@[simp] theorem writeBuffer_pubLen (b : Buffer) (bs : Bytes) (s : State) : (writeBuffer b bs s).pubLen = s.pubLen :=
  writeBytes_pubLen _ _ _
@[simp] theorem writeBuffer_nonceCap (b : Buffer) (bs : Bytes) (s : State) : (writeBuffer b bs s).nonceCap = s.nonceCap :=
  writeBytes_nonceCap _ _ _
@[simp] theorem writeBuffer_iterCount (b : Buffer) (bs : Bytes) (s : State) : (writeBuffer b bs s).iterCount = s.iterCount :=
  writeBytes_iterCount _ _ _
@[simp] theorem writeBuffer_phase (b : Buffer) (bs : Bytes) (s : State) : (writeBuffer b bs s).phase = s.phase :=
  writeBytes_phase _ _ _
@[simp] theorem writeBuffer_site (b : Buffer) (bs : Bytes) (s : State) : (writeBuffer b bs s).site = s.site :=
  writeBytes_site _ _ _
@[simp] theorem writeBuffer_theta (b : Buffer) (bs : Bytes) (s : State) : (writeBuffer b bs s).theta = s.theta :=
  writeBytes_theta _ _ _
@[simp] theorem writeBuffer_cand (b : Buffer) (bs : Bytes) (s : State) : (writeBuffer b bs s).cand = s.cand :=
  writeBytes_cand _ _ _
@[simp] theorem writeBuffer_scratch (b : Buffer) (bs : Bytes) (s : State) : (writeBuffer b bs s).scratch = s.scratch :=
  writeBytes_scratch _ _ _
@[simp] theorem writeBuffer_port (b : Buffer) (bs : Bytes) (s : State) : (writeBuffer b bs s).port = s.port :=
  writeBytes_port _ _ _
@[simp] theorem writeBuffer_events (b : Buffer) (bs : Bytes) (s : State) : (writeBuffer b bs s).events = s.events :=
  writeBytes_events _ _ _
@[simp] theorem writeBuffer_response (b : Buffer) (bs : Bytes) (s : State) : (writeBuffer b bs s).response = s.response :=
  writeBytes_response _ _ _
@[simp] theorem writeBuffer_draws (b : Buffer) (bs : Bytes) (s : State) : (writeBuffer b bs s).draws = s.draws :=
  writeBytes_draws _ _ _
@[simp] theorem writeBuffer_epoch (b : Buffer) (bs : Bytes) (s : State) : (writeBuffer b bs s).epoch = s.epoch :=
  writeBytes_epoch _ _ _

/-! ### chooseKey -/

@[simp] theorem chooseKey_ctrl (kb : Bytes) (s : State) : (chooseKey kb s).ctrl = s.ctrl := rfl
@[simp] theorem chooseKey_done (kb : Bytes) (s : State) : (chooseKey kb s).done = s.done := rfl
@[simp] theorem chooseKey_valid (kb : Bytes) (s : State) : (chooseKey kb s).valid = s.valid := rfl
@[simp] theorem chooseKey_err (kb : Bytes) (s : State) : (chooseKey kb s).err = s.err := rfl
@[simp] theorem chooseKey_digestLen (kb : Bytes) (s : State) : (chooseKey kb s).digestLen = s.digestLen := rfl
@[simp] theorem chooseKey_tLen (kb : Bytes) (s : State) : (chooseKey kb s).tLen = s.tLen := rfl
@[simp] theorem chooseKey_oidLen (kb : Bytes) (s : State) : (chooseKey kb s).oidLen = s.oidLen := rfl
@[simp] theorem chooseKey_sigLen (kb : Bytes) (s : State) : (chooseKey kb s).sigLen = s.sigLen := rfl
@[simp] theorem chooseKey_pubLen (kb : Bytes) (s : State) : (chooseKey kb s).pubLen = s.pubLen := rfl
@[simp] theorem chooseKey_nonceCap (kb : Bytes) (s : State) : (chooseKey kb s).nonceCap = s.nonceCap := rfl
@[simp] theorem chooseKey_iterCount (kb : Bytes) (s : State) : (chooseKey kb s).iterCount = s.iterCount := rfl
@[simp] theorem chooseKey_mem (kb : Bytes) (s : State) : (chooseKey kb s).mem = s.mem := rfl
@[simp] theorem chooseKey_marks (kb : Bytes) (s : State) : (chooseKey kb s).marks = s.marks := rfl
@[simp] theorem chooseKey_phase (kb : Bytes) (s : State) : (chooseKey kb s).phase = s.phase := rfl
@[simp] theorem chooseKey_site (kb : Bytes) (s : State) : (chooseKey kb s).site = s.site := rfl
@[simp] theorem chooseKey_theta (kb : Bytes) (s : State) : (chooseKey kb s).theta = s.theta := rfl
@[simp] theorem chooseKey_cand (kb : Bytes) (s : State) : (chooseKey kb s).cand = s.cand := rfl
@[simp] theorem chooseKey_scratch (kb : Bytes) (s : State) : (chooseKey kb s).scratch = { s.scratch with kb := kb, k := leNat kb } := rfl
@[simp] theorem chooseKey_port (kb : Bytes) (s : State) : (chooseKey kb s).port = s.port := rfl
@[simp] theorem chooseKey_events (kb : Bytes) (s : State) : (chooseKey kb s).events = s.events := rfl
@[simp] theorem chooseKey_response (kb : Bytes) (s : State) : (chooseKey kb s).response = s.response := rfl
@[simp] theorem chooseKey_draws (kb : Bytes) (s : State) : (chooseKey kb s).draws = s.draws := rfl
@[simp] theorem chooseKey_epoch (kb : Bytes) (s : State) : (chooseKey kb s).epoch = s.epoch := rfl

/-! ### takeEvent: the schedule, the bus response and the epoch alone -/

@[simp] theorem takeEvent_ctrl (s : State) : (takeEvent s).ctrl = s.ctrl := by
  unfold takeEvent; split <;> rfl
@[simp] theorem takeEvent_done (s : State) : (takeEvent s).done = s.done := by
  unfold takeEvent; split <;> rfl
@[simp] theorem takeEvent_valid (s : State) : (takeEvent s).valid = s.valid := by
  unfold takeEvent; split <;> rfl
@[simp] theorem takeEvent_err (s : State) : (takeEvent s).err = s.err := by
  unfold takeEvent; split <;> rfl
@[simp] theorem takeEvent_digestLen (s : State) : (takeEvent s).digestLen = s.digestLen := by
  unfold takeEvent; split <;> rfl
@[simp] theorem takeEvent_tLen (s : State) : (takeEvent s).tLen = s.tLen := by
  unfold takeEvent; split <;> rfl
@[simp] theorem takeEvent_oidLen (s : State) : (takeEvent s).oidLen = s.oidLen := by
  unfold takeEvent; split <;> rfl
@[simp] theorem takeEvent_sigLen (s : State) : (takeEvent s).sigLen = s.sigLen := by
  unfold takeEvent; split <;> rfl
@[simp] theorem takeEvent_pubLen (s : State) : (takeEvent s).pubLen = s.pubLen := by
  unfold takeEvent; split <;> rfl
@[simp] theorem takeEvent_nonceCap (s : State) : (takeEvent s).nonceCap = s.nonceCap := by
  unfold takeEvent; split <;> rfl
@[simp] theorem takeEvent_iterCount (s : State) : (takeEvent s).iterCount = s.iterCount := by
  unfold takeEvent; split <;> rfl
@[simp] theorem takeEvent_mem (s : State) : (takeEvent s).mem = s.mem := by
  unfold takeEvent; split <;> rfl
@[simp] theorem takeEvent_marks (s : State) : (takeEvent s).marks = s.marks := by
  unfold takeEvent; split <;> rfl
@[simp] theorem takeEvent_phase (s : State) : (takeEvent s).phase = s.phase := by
  unfold takeEvent; split <;> rfl
@[simp] theorem takeEvent_site (s : State) : (takeEvent s).site = s.site := by
  unfold takeEvent; split <;> rfl
@[simp] theorem takeEvent_theta (s : State) : (takeEvent s).theta = s.theta := by
  unfold takeEvent; split <;> rfl
@[simp] theorem takeEvent_cand (s : State) : (takeEvent s).cand = s.cand := by
  unfold takeEvent; split <;> rfl
@[simp] theorem takeEvent_scratch (s : State) : (takeEvent s).scratch = s.scratch := by
  unfold takeEvent; split <;> rfl
@[simp] theorem takeEvent_port (s : State) : (takeEvent s).port = s.port := by
  unfold takeEvent; split <;> rfl
@[simp] theorem takeEvent_draws (s : State) : (takeEvent s).draws = s.draws := by
  unfold takeEvent; split <;> rfl

/-! ### The host's writes: memory and marks, or one operand register -/

@[simp] theorem writeLanes_ctrl (o : Nat) (v : Word) (n : Nat) (s : State) : (writeLanes o v n s).ctrl = s.ctrl := by
  induction n generalizing o v s with
  | zero => rfl
  | succ n ih => rw [writeLanes, ih]; split <;> rfl

@[simp] theorem writeLanes_done (o : Nat) (v : Word) (n : Nat) (s : State) : (writeLanes o v n s).done = s.done := by
  induction n generalizing o v s with
  | zero => rfl
  | succ n ih => rw [writeLanes, ih]; split <;> rfl

@[simp] theorem writeLanes_valid (o : Nat) (v : Word) (n : Nat) (s : State) : (writeLanes o v n s).valid = s.valid := by
  induction n generalizing o v s with
  | zero => rfl
  | succ n ih => rw [writeLanes, ih]; split <;> rfl

@[simp] theorem writeLanes_err (o : Nat) (v : Word) (n : Nat) (s : State) : (writeLanes o v n s).err = s.err := by
  induction n generalizing o v s with
  | zero => rfl
  | succ n ih => rw [writeLanes, ih]; split <;> rfl

@[simp] theorem writeLanes_digestLen (o : Nat) (v : Word) (n : Nat) (s : State) : (writeLanes o v n s).digestLen = s.digestLen := by
  induction n generalizing o v s with
  | zero => rfl
  | succ n ih => rw [writeLanes, ih]; split <;> rfl

@[simp] theorem writeLanes_tLen (o : Nat) (v : Word) (n : Nat) (s : State) : (writeLanes o v n s).tLen = s.tLen := by
  induction n generalizing o v s with
  | zero => rfl
  | succ n ih => rw [writeLanes, ih]; split <;> rfl

@[simp] theorem writeLanes_oidLen (o : Nat) (v : Word) (n : Nat) (s : State) : (writeLanes o v n s).oidLen = s.oidLen := by
  induction n generalizing o v s with
  | zero => rfl
  | succ n ih => rw [writeLanes, ih]; split <;> rfl

@[simp] theorem writeLanes_sigLen (o : Nat) (v : Word) (n : Nat) (s : State) : (writeLanes o v n s).sigLen = s.sigLen := by
  induction n generalizing o v s with
  | zero => rfl
  | succ n ih => rw [writeLanes, ih]; split <;> rfl

@[simp] theorem writeLanes_pubLen (o : Nat) (v : Word) (n : Nat) (s : State) : (writeLanes o v n s).pubLen = s.pubLen := by
  induction n generalizing o v s with
  | zero => rfl
  | succ n ih => rw [writeLanes, ih]; split <;> rfl

@[simp] theorem writeLanes_nonceCap (o : Nat) (v : Word) (n : Nat) (s : State) : (writeLanes o v n s).nonceCap = s.nonceCap := by
  induction n generalizing o v s with
  | zero => rfl
  | succ n ih => rw [writeLanes, ih]; split <;> rfl

@[simp] theorem writeLanes_iterCount (o : Nat) (v : Word) (n : Nat) (s : State) : (writeLanes o v n s).iterCount = s.iterCount := by
  induction n generalizing o v s with
  | zero => rfl
  | succ n ih => rw [writeLanes, ih]; split <;> rfl

@[simp] theorem writeLanes_phase (o : Nat) (v : Word) (n : Nat) (s : State) : (writeLanes o v n s).phase = s.phase := by
  induction n generalizing o v s with
  | zero => rfl
  | succ n ih => rw [writeLanes, ih]; split <;> rfl

@[simp] theorem writeLanes_site (o : Nat) (v : Word) (n : Nat) (s : State) : (writeLanes o v n s).site = s.site := by
  induction n generalizing o v s with
  | zero => rfl
  | succ n ih => rw [writeLanes, ih]; split <;> rfl

@[simp] theorem writeLanes_theta (o : Nat) (v : Word) (n : Nat) (s : State) : (writeLanes o v n s).theta = s.theta := by
  induction n generalizing o v s with
  | zero => rfl
  | succ n ih => rw [writeLanes, ih]; split <;> rfl

@[simp] theorem writeLanes_cand (o : Nat) (v : Word) (n : Nat) (s : State) : (writeLanes o v n s).cand = s.cand := by
  induction n generalizing o v s with
  | zero => rfl
  | succ n ih => rw [writeLanes, ih]; split <;> rfl

@[simp] theorem writeLanes_scratch (o : Nat) (v : Word) (n : Nat) (s : State) : (writeLanes o v n s).scratch = s.scratch := by
  induction n generalizing o v s with
  | zero => rfl
  | succ n ih => rw [writeLanes, ih]; split <;> rfl

@[simp] theorem writeLanes_port (o : Nat) (v : Word) (n : Nat) (s : State) : (writeLanes o v n s).port = s.port := by
  induction n generalizing o v s with
  | zero => rfl
  | succ n ih => rw [writeLanes, ih]; split <;> rfl

@[simp] theorem writeLanes_events (o : Nat) (v : Word) (n : Nat) (s : State) : (writeLanes o v n s).events = s.events := by
  induction n generalizing o v s with
  | zero => rfl
  | succ n ih => rw [writeLanes, ih]; split <;> rfl

@[simp] theorem writeLanes_response (o : Nat) (v : Word) (n : Nat) (s : State) : (writeLanes o v n s).response = s.response := by
  induction n generalizing o v s with
  | zero => rfl
  | succ n ih => rw [writeLanes, ih]; split <;> rfl

@[simp] theorem writeLanes_draws (o : Nat) (v : Word) (n : Nat) (s : State) : (writeLanes o v n s).draws = s.draws := by
  induction n generalizing o v s with
  | zero => rfl
  | succ n ih => rw [writeLanes, ih]; split <;> rfl

@[simp] theorem writeLanes_epoch (o : Nat) (v : Word) (n : Nat) (s : State) : (writeLanes o v n s).epoch = s.epoch := by
  induction n generalizing o v s with
  | zero => rfl
  | succ n ih => rw [writeLanes, ih]; split <;> rfl

@[simp] theorem writeRegister_ctrl (o : Nat) (v : Word) (s : State) : (writeRegister o v s).ctrl = s.ctrl := by
  unfold writeRegister; split <;> rfl
@[simp] theorem writeRegister_done (o : Nat) (v : Word) (s : State) : (writeRegister o v s).done = s.done := by
  unfold writeRegister; split <;> rfl
@[simp] theorem writeRegister_valid (o : Nat) (v : Word) (s : State) : (writeRegister o v s).valid = s.valid := by
  unfold writeRegister; split <;> rfl
@[simp] theorem writeRegister_err (o : Nat) (v : Word) (s : State) : (writeRegister o v s).err = s.err := by
  unfold writeRegister; split <;> rfl
@[simp] theorem writeRegister_iterCount (o : Nat) (v : Word) (s : State) : (writeRegister o v s).iterCount = s.iterCount := by
  unfold writeRegister; split <;> rfl
@[simp] theorem writeRegister_mem (o : Nat) (v : Word) (s : State) : (writeRegister o v s).mem = s.mem := by
  unfold writeRegister; split <;> rfl
@[simp] theorem writeRegister_marks (o : Nat) (v : Word) (s : State) : (writeRegister o v s).marks = s.marks := by
  unfold writeRegister; split <;> rfl
@[simp] theorem writeRegister_phase (o : Nat) (v : Word) (s : State) : (writeRegister o v s).phase = s.phase := by
  unfold writeRegister; split <;> rfl
@[simp] theorem writeRegister_site (o : Nat) (v : Word) (s : State) : (writeRegister o v s).site = s.site := by
  unfold writeRegister; split <;> rfl
@[simp] theorem writeRegister_theta (o : Nat) (v : Word) (s : State) : (writeRegister o v s).theta = s.theta := by
  unfold writeRegister; split <;> rfl
@[simp] theorem writeRegister_cand (o : Nat) (v : Word) (s : State) : (writeRegister o v s).cand = s.cand := by
  unfold writeRegister; split <;> rfl
@[simp] theorem writeRegister_scratch (o : Nat) (v : Word) (s : State) : (writeRegister o v s).scratch = s.scratch := by
  unfold writeRegister; split <;> rfl
@[simp] theorem writeRegister_port (o : Nat) (v : Word) (s : State) : (writeRegister o v s).port = s.port := by
  unfold writeRegister; split <;> rfl
@[simp] theorem writeRegister_events (o : Nat) (v : Word) (s : State) : (writeRegister o v s).events = s.events := by
  unfold writeRegister; split <;> rfl
@[simp] theorem writeRegister_response (o : Nat) (v : Word) (s : State) : (writeRegister o v s).response = s.response := by
  unfold writeRegister; split <;> rfl
@[simp] theorem writeRegister_draws (o : Nat) (v : Word) (s : State) : (writeRegister o v s).draws = s.draws := by
  unfold writeRegister; split <;> rfl
@[simp] theorem writeRegister_epoch (o : Nat) (v : Word) (s : State) : (writeRegister o v s).epoch = s.epoch := by
  unfold writeRegister; split <;> rfl
@[simp] theorem writeData_ctrl (w : Width) (off : BitVec 12) (v : Word) (s : State) :
    (writeData w off v s).ctrl = s.ctrl := by
  unfold writeData; split <;> simp
@[simp] theorem writeData_done (w : Width) (off : BitVec 12) (v : Word) (s : State) :
    (writeData w off v s).done = s.done := by
  unfold writeData; split <;> simp
@[simp] theorem writeData_valid (w : Width) (off : BitVec 12) (v : Word) (s : State) :
    (writeData w off v s).valid = s.valid := by
  unfold writeData; split <;> simp
@[simp] theorem writeData_err (w : Width) (off : BitVec 12) (v : Word) (s : State) :
    (writeData w off v s).err = s.err := by
  unfold writeData; split <;> simp
@[simp] theorem writeData_iterCount (w : Width) (off : BitVec 12) (v : Word) (s : State) :
    (writeData w off v s).iterCount = s.iterCount := by
  unfold writeData; split <;> simp
@[simp] theorem writeData_phase (w : Width) (off : BitVec 12) (v : Word) (s : State) :
    (writeData w off v s).phase = s.phase := by
  unfold writeData; split <;> simp
@[simp] theorem writeData_site (w : Width) (off : BitVec 12) (v : Word) (s : State) :
    (writeData w off v s).site = s.site := by
  unfold writeData; split <;> simp
@[simp] theorem writeData_theta (w : Width) (off : BitVec 12) (v : Word) (s : State) :
    (writeData w off v s).theta = s.theta := by
  unfold writeData; split <;> simp
@[simp] theorem writeData_cand (w : Width) (off : BitVec 12) (v : Word) (s : State) :
    (writeData w off v s).cand = s.cand := by
  unfold writeData; split <;> simp
@[simp] theorem writeData_scratch (w : Width) (off : BitVec 12) (v : Word) (s : State) :
    (writeData w off v s).scratch = s.scratch := by
  unfold writeData; split <;> simp
@[simp] theorem writeData_port (w : Width) (off : BitVec 12) (v : Word) (s : State) :
    (writeData w off v s).port = s.port := by
  unfold writeData; split <;> simp
@[simp] theorem writeData_events (w : Width) (off : BitVec 12) (v : Word) (s : State) :
    (writeData w off v s).events = s.events := by
  unfold writeData; split <;> simp
@[simp] theorem writeData_response (w : Width) (off : BitVec 12) (v : Word) (s : State) :
    (writeData w off v s).response = s.response := by
  unfold writeData; split <;> simp
@[simp] theorem writeData_draws (w : Width) (off : BitVec 12) (v : Word) (s : State) :
    (writeData w off v s).draws = s.draws := by
  unfold writeData; split <;> simp
@[simp] theorem writeData_epoch (w : Width) (off : BitVec 12) (v : Word) (s : State) :
    (writeData w off v s).epoch = s.epoch := by
  unfold writeData; split <;> simp

@[simp] theorem takeEvent_events (s : State) : (takeEvent s).events = s.events.tail := by
  unfold takeEvent; split <;> simp_all

@[simp] theorem takeEvent_busy (s : State) : (takeEvent s).busy = s.busy := by simp [State.busy]

/-! ### BUSY after an update (10_state.md R22) -/

@[simp] theorem acceptStart_busy (s : State) : (acceptStart s).busy = true := rfl
@[simp] theorem finishCommand_busy (v : Bool) (s : State) : (finishCommand v s).busy = false := rfl
@[simp] theorem raiseErr_busy (code : ErrCode) (s : State) : (raiseErr code s).busy = false := rfl
@[simp] theorem abortCommand_busy (s : State) : (abortCommand s).busy = false := rfl
@[simp] theorem resetBlock_busy (s : State) : (resetBlock s).busy = false := rfl
@[simp] theorem rejectStart_busy (code : ErrCode) (s : State) : (rejectStart code s).busy = s.busy := rfl
@[simp] theorem storeFields_busy (cmd : BitVec 3) (f : CtrlFields) (s : State) : (storeFields cmd f s).busy = s.busy := rfl
@[simp] theorem storeIe_busy (ie : Bool) (s : State) : (storeIe ie s).busy = s.busy := rfl
@[simp] theorem clearDone_busy (s : State) : (clearDone s).busy = s.busy := rfl

@[simp] theorem respond_busy (r : BusResponse) (s : State) : (respond r s).busy = s.busy := rfl
@[simp] theorem writeData_busy (w : Width) (off : BitVec 12) (v : Word) (s : State) : (writeData w off v s).busy = s.busy := by
  simp [State.busy]

theorem busy_iff (s : State) : s.busy = true ↔ s.phase ≠ .idle := by simp [State.busy]

theorem busy_eq_false_iff (s : State) : s.busy = false ↔ s.phase = .idle := by simp [State.busy]

end Sys2Proof.Machine
end

