-- ==== Sys2Proof/Laws/Memory.lean ====
section
/-! SUPPORT. What the memory operations can do: read after write, the frame of a write, and the canonical form. -/

namespace Sys2Proof.Machine

open Sys2Proof

/-! ### One byte -/

theorem memRead_memWrite (m : Memory) (a a' : Nat) (b : Byte) :
    memRead (memWrite m a b) a' = if a = a' then some b else memRead m a' := by
  induction m with
  | nil => rfl
  | cons h t ih =>
    obtain ⟨k, v⟩ := h
    simp only [memWrite]
    split
    · rfl
    · split
      · subst_vars; simp only [memRead]; split <;> rfl
      · simp only [memRead, ih]; split
        · subst_vars; rw [if_neg (by assumption)]
        · rfl

@[simp] theorem memRead_memWrite_self (m : Memory) (a : Nat) (b : Byte) : memRead (memWrite m a b) a = some b := by
  simp [memRead_memWrite]

theorem memRead_memWrite_of_ne (m : Memory) {a a' : Nat} (b : Byte) (h : a ≠ a') :
    memRead (memWrite m a b) a' = memRead m a' := by simp [memRead_memWrite, h]

theorem isMarked_markAdd (m : Marks) (a a' : Nat) : isMarked (markAdd m a) a' = (a == a' || isMarked m a') := by
  induction m with
  | nil => rfl
  | cons k t ih =>
    simp only [markAdd]
    split
    · rfl
    · split
      · subst_vars; simp [isMarked]
      · simp only [isMarked, ih]; cases k == a' <;> cases a == a' <;> rfl

theorem isMarked_iff (m : Marks) (a : Nat) : isMarked m a = true ↔ a ∈ m := by
  induction m with
  | nil => simp [isMarked]
  | cons k t ih => rw [isMarked, Bool.or_eq_true, ih, beq_iff_eq, List.mem_cons, eq_comm]

/-! ### The canonical form -/

theorem mem_memWrite (m : Memory) (a : Nat) (b : Byte) (x : Host.Cell) (h : x ∈ memWrite m a b) : x = (a, b) ∨ x ∈ m := by
  induction m with
  | nil => exact .inl (List.mem_singleton.1 h)
  | cons c t ih =>
    obtain ⟨k, v⟩ := c
    simp only [memWrite] at h
    split at h
    · rcases List.mem_cons.1 h with h | h
      · exact .inl h
      · exact .inr h
    · split at h
      · rcases List.mem_cons.1 h with h | h
        · exact .inl h
        · exact .inr (List.mem_cons_of_mem _ h)
      · rcases List.mem_cons.1 h with h | h
        · exact .inr (h ▸ List.mem_cons_self)
        · exact (ih h).imp_right (List.mem_cons_of_mem _)

/-- A write keeps the canonical form. -/
theorem memWrite_wf (m : Memory) (a : Nat) (b : Byte) (h : m.wf) : (memWrite m a b).wf := by
  induction m with
  | nil => simp [memWrite]
  | cons c t ih =>
    obtain ⟨k, v⟩ := c
    have ⟨h1, h2⟩ := List.pairwise_cons.1 h
    simp only [memWrite]
    split
    · rename_i hlt
      exact List.pairwise_cons.2 ⟨fun x hx => by
        rcases List.mem_cons.1 hx with rfl | hx
        · exact hlt
        · exact Nat.lt_trans hlt (h1 x hx), h⟩
    · split
      · subst_vars; exact List.pairwise_cons.2 ⟨h1, h2⟩
      · refine List.pairwise_cons.2 ⟨fun x hx => ?_, ih h2⟩
        rcases mem_memWrite t a b x hx with rfl | hx
        · simp only; omega
        · exact h1 x hx

theorem mem_markAdd (m : Marks) (a x : Nat) (h : x ∈ markAdd m a) : x = a ∨ x ∈ m := by
  have := isMarked_markAdd m a x
  rw [(isMarked_iff _ _).2 h] at this
  rcases (Bool.or_eq_true _ _).mp this.symm with h | h
  · exact .inl (eq_of_beq h).symm
  · exact .inr ((isMarked_iff _ _).1 h)

/-- A mark keeps the canonical form. -/
theorem markAdd_wf (m : Marks) (a : Nat) (h : m.wf) : (markAdd m a).wf := by
  induction m with
  | nil => simp [markAdd]
  | cons k t ih =>
    have ⟨h1, h2⟩ := List.pairwise_cons.1 h
    simp only [markAdd]
    split
    · rename_i hlt
      exact List.pairwise_cons.2 ⟨fun x hx => by
        rcases List.mem_cons.1 hx with rfl | hx
        · exact hlt
        · exact Nat.lt_trans hlt (h1 x hx), h⟩
    · split
      · exact h
      · refine List.pairwise_cons.2 ⟨fun x hx => ?_, ih h2⟩
        rcases mem_markAdd t a x hx with rfl | hx
        · omega
        · exact h1 x hx

/-- The first listed byte is a listed byte. -/
theorem mem_of_memRead (m : Memory) (a : Nat) (b : Byte) (h : memRead m a = some b) : (a, b) ∈ m := by
  induction m with
  | nil => simp [memRead] at h
  | cons c t ih =>
    obtain ⟨k, v⟩ := c
    simp only [memRead] at h
    split at h
    · subst_vars; simp_all
    · exact List.mem_cons_of_mem _ (ih h)

/-! ### The bytes of the state -/

theorem readMarked_writeByte (s : State) (a a' : Nat) (b : Byte) :
    readMarked (writeByte a b s) a' = if a = a' then some b else readMarked s a' := by
  simp only [readMarked, writeByte_mem, writeByte_marks, isMarked_markAdd, memRead_memWrite]
  by_cases h : a = a' <;> simp [h]

/-- A read depends on memory and marks alone. -/
theorem readMarked_congr {s t : State} (h1 : t.mem = s.mem) (h2 : t.marks = s.marks) (a : Nat) :
    readMarked t a = readMarked s a := by rw [readMarked, readMarked, h1, h2]

theorem readBytes_congr {s t : State} (h1 : t.mem = s.mem) (h2 : t.marks = s.marks) (a n : Nat) :
    readBytes t a n = readBytes s a n := by
  induction n generalizing a with
  | zero => rfl
  | succ n ih => simp only [readBytes, readMarked_congr h1 h2, ih]

theorem readBuffer_congr {s t : State} (h1 : t.mem = s.mem) (h2 : t.marks = s.marks) (b : Buffer) (n : Nat) :
    readBuffer t b n = readBuffer s b n := readBytes_congr h1 h2 _ _

/-- What a store of a byte string leaves at each offset. -/
theorem readMarked_writeBytes (bs : Bytes) (a : Nat) (s : State) (o : Nat) :
    readMarked (writeBytes a bs s) o = if a ≤ o then (bs[o - a]?).or (readMarked s o) else readMarked s o := by
  induction bs generalizing a s with
  | nil => simp [writeBytes]
  | cons b t ih =>
    rw [writeBytes, ih, readMarked_writeByte]
    by_cases h1 : a + 1 ≤ o
    · have h2 : o - a = (o - (a + 1)) + 1 := by omega
      have h3 : ¬ a = o := by omega
      have h4 : a ≤ o := by omega
      rw [if_pos h1, if_pos h4, if_neg h3, h2, List.getElem?_cons_succ]
    · by_cases h2 : a = o
      · subst h2; simp
      · have h4 : ¬ a ≤ o := by omega
        rw [if_neg h1, if_neg h2, if_neg h4]

/-- A byte outside the stored range reads as before. -/
theorem readMarked_writeBytes_outside (bs : Bytes) (a : Nat) (s : State) (o : Nat) (h : o < a ∨ a + bs.length ≤ o) :
    readMarked (writeBytes a bs s) o = readMarked s o := by
  rw [readMarked_writeBytes]
  split
  · rw [List.getElem?_eq_none (by omega)]; rfl
  · rfl

/-- A successful operand read, byte by byte. -/
theorem readBytes_eq_some_iff (s : State) (a n : Nat) (bs : Bytes) :
    readBytes s a n = some bs ↔ bs.length = n ∧ ∀ j, j < n → readMarked s (a + j) = bs[j]? := by
  induction n generalizing a bs with
  | zero => cases bs <;> simp [readBytes]
  | succ n ih =>
    simp only [readBytes]
    constructor
    · intro h
      split at h
      · rename_i b hb
        split at h
        · rename_i t ht
          obtain ⟨h1, h2⟩ := (ih _ _).1 ht
          obtain rfl := Option.some.inj h
          refine ⟨by simp [h1], fun j hj => ?_⟩
          cases j with
          | zero => simpa using hb
          | succ j =>
            rw [show a + (j + 1) = a + 1 + j by omega, h2 j (by omega), List.getElem?_cons_succ]
        · cases h
      · cases h
    · rintro ⟨h1, h2⟩
      cases bs with
      | nil => simp at h1
      | cons b t =>
        have hb : readMarked s a = some b := by simpa using h2 0 (by omega)
        have ht : readBytes s (a + 1) n = some t := by
          refine (ih _ _).2 ⟨by simpa using h1, fun j hj => ?_⟩
          have := h2 (j + 1) (by omega)
          rwa [List.getElem?_cons_succ, show a + (j + 1) = a + 1 + j by omega] at this
        rw [hb, ht]

theorem readBytes_length {s : State} {a n : Nat} {bs : Bytes} (h : readBytes s a n = some bs) : bs.length = n :=
  ((readBytes_eq_some_iff _ _ _ _).1 h).1

/-- An operand read that touches a byte without its mark gives nothing (10_state.md R32). -/
theorem readBytes_unwritten {s : State} {a n j : Nat} (hj : j < n) (hm : isMarked s.marks (a + j) = false) :
    readBytes s a n = none := by
  cases h : readBytes s a n with
  | none => rfl
  | some bs =>
    obtain ⟨hl, hb⟩ := (readBytes_eq_some_iff _ _ _ _).1 h
    have h1 := hb j hj
    rw [readMarked, hm, if_neg (by decide), List.getElem?_eq_getElem (by omega)] at h1
    cases h1

/-- What was stored is what an operand read gives. -/
theorem readBytes_writeBytes (a : Nat) (bs : Bytes) (s : State) : readBytes (writeBytes a bs s) a bs.length = some bs := by
  refine (readBytes_eq_some_iff _ _ _ _).2 ⟨rfl, fun j hj => ?_⟩
  rw [readMarked_writeBytes, if_pos (by omega), Nat.add_sub_cancel_left, List.getElem?_eq_getElem hj]
  rfl

theorem writeBytes_wf (bs : Bytes) (a : Nat) (s : State) (h : s.mem.wf ∧ s.marks.wf) :
    (writeBytes a bs s).mem.wf ∧ (writeBytes a bs s).marks.wf := by
  induction bs generalizing a s with
  | nil => exact h
  | cons b t ih => exact ih _ _ ⟨memWrite_wf _ _ _ h.1, markAdd_wf _ _ h.2⟩

/-- A byte listed after a store lay in the stored range or was listed before. -/
theorem mem_writeBytes (bs : Bytes) (a : Nat) (s : State) (x : Host.Cell) (h : x ∈ (writeBytes a bs s).mem) :
    (a ≤ x.1 ∧ x.1 < a + bs.length) ∨ x ∈ s.mem := by
  induction bs generalizing a s with
  | nil => exact .inr h
  | cons b t ih =>
    rcases ih _ _ h with h | h
    · left; simp only [List.length_cons]; omega
    · rcases mem_memWrite _ _ _ _ h with rfl | h
      · left; simp
      · exact .inr h

theorem mem_marks_writeBytes (bs : Bytes) (a : Nat) (s : State) (x : Nat) (h : x ∈ (writeBytes a bs s).marks) :
    (a ≤ x ∧ x < a + bs.length) ∨ x ∈ s.marks := by
  induction bs generalizing a s with
  | nil => exact .inr h
  | cons b t ih =>
    rcases ih _ _ h with h | h
    · left; simp only [List.length_cons]; omega
    · rcases mem_markAdd _ _ _ h with rfl | h
      · left; simp
      · exact .inr h

/-- A store depends on memory and marks alone. -/
theorem writeBytes_congr (bs : Bytes) (a : Nat) {s t : State} (h1 : s.mem = t.mem) (h2 : s.marks = t.marks) :
    (writeBytes a bs s).mem = (writeBytes a bs t).mem ∧ (writeBytes a bs s).marks = (writeBytes a bs t).marks := by
  induction bs generalizing a s t with
  | nil => exact ⟨h1, h2⟩
  | cons b u ih => exact ih (a + 1) (by simp [h1]) (by simp [h2])

theorem writeBuffer_congr (b : Buffer) (bs : Bytes) {s t : State} (h1 : s.mem = t.mem) (h2 : s.marks = t.marks) :
    (writeBuffer b bs s).mem = (writeBuffer b bs t).mem ∧ (writeBuffer b bs s).marks = (writeBuffer b bs t).marks :=
  writeBytes_congr bs _ h1 h2

/-- Reset's memory has the canonical form. -/
theorem reset_mem_wf : Memory.wf State.reset.mem ∧ Marks.wf State.reset.marks := by decide

end Sys2Proof.Machine
end

