-- ==== Sys2Proof/Laws/Control.lean ====
section
/-! SUPPORT. What the shared operations of the controller can do, said once: inversion of operand reads, of the curve choice and of a
response, and the frame of every controller step. Later proofs cite these instead of unfolding the controller. -/

namespace Sys2Proof.Machine

open Sys2Proof

/-! ### Inversion of the shared operations -/

theorem withOperand_next {o : Option Bytes} {k : Bytes → Result} {t : State} (h : withOperand o k = .next t) :
    ∃ b, o = some b ∧ k b = .next t := by
  cases o with
  | none => cases h
  | some b => exact ⟨b, rfl, h⟩

@[simp] theorem withOperand_some (b : Bytes) (k : Bytes → Result) : withOperand (some b) k = k b := rfl

@[simp] theorem withOperand_none (k : Bytes → Result) : withOperand none k = .fault .unwrittenOperand := rfl

theorem withCurve_next {s t : State} {k : CurveId → Result} (h : withCurve s k = .next t) :
    ∃ c, curveOfCode s.ctrl.curve = some c ∧ k c = .next t := by
  unfold withCurve at h
  split at h
  · exact ⟨_, by assumption, h⟩
  · cases h

theorem withCurve_some {s : State} {c : CurveId} (h : curveOfCode s.ctrl.curve = some c) (k : CurveId → Result) :
    withCurve s k = k c := by rw [withCurve, h]

/-- A response meets its request, or is discarded. -/
theorem receive_next {r : PortReq} {s t : State} {k : State → Result} (h : receive r s k = .next t) :
    (s.port = some r ∧ k s = .next t) ∨ (s.port ≠ some r ∧ t = s) := by
  unfold receive at h
  split at h
  · exact .inl ⟨by assumption, h⟩
  · exact .inr ⟨by assumption, by injection h with h; exact h.symm⟩

theorem receive_outstanding {r : PortReq} {s : State} (h : s.port = some r) (k : State → Result) :
    receive r s k = k s := by rw [receive, if_pos h]

theorem receive_stray {r : PortReq} {s : State} (h : s.port ≠ some r) (k : State → Result) :
    receive r s k = .next s := by rw [receive, if_neg h]

theorem startAttempt_cases (s : State) :
    (∃ code, startCheck s = some code ∧ startAttempt s = rejectStart code s) ∨
    (startCheck s = none ∧ startAttempt s = acceptStart s) := by
  unfold startAttempt
  cases startCheck s with
  | some code => exact .inl ⟨code, rfl, rfl⟩
  | none => exact .inr ⟨rfl, rfl⟩

/-- The identifier's length check (10_state.md R25). -/
theorem oidLenOk_iff (s : State) : oidLenOk s = true ↔ (s.ctrl.oidsel = true → s.oidLen.toNat ≤ 32) := by
  unfold oidLenOk
  cases s.ctrl.oidsel <;> simp

/-- The length checks of GENK (42_genk.md R108). -/
theorem lengthsOk_genk {c : CurveId} {s : State} (h : s.ctrl.cmd = 2) :
    lengthsOk c s = true ↔ s.digestLen.toNat = c.len ∧ s.tLen.toNat ≤ 64 ∧ (s.ctrl.oidsel = true → s.oidLen.toNat ≤ 32) := by
  rw [← oidLenOk_iff]
  unfold lengthsOk
  rw [h]
  simp [and_assoc]

/-- The length checks of SIGN (43_sign.md R117). -/
theorem lengthsOk_sign {c : CurveId} {s : State} (h : s.ctrl.cmd = 3) :
    lengthsOk c s = true ↔ s.digestLen.toNat ≤ 64 ∧ (s.ctrl.ksup = false ∧ s.ctrl.mode = false → s.digestLen.toNat = c.len) ∧
      (s.ctrl.oidsel = true → s.oidLen.toNat ≤ 32) := by
  rw [← oidLenOk_iff]
  unfold lengthsOk
  rw [h]
  cases s.ctrl.ksup <;> cases s.ctrl.mode <;> simp [and_assoc]

/-- The length checks of VERIFY (44_verify.md R127). -/
theorem lengthsOk_verify {c : CurveId} {s : State} (h : s.ctrl.cmd = 4) :
    lengthsOk c s = true ↔ s.digestLen.toNat ≤ 64 ∧ (s.ctrl.oidsel = true → s.oidLen.toNat ≤ 32) := by
  rw [← oidLenOk_iff]
  unfold lengthsOk
  rw [h]
  simp
/-! ### The frame of a controller step -/

/-- `t` differs from `s` in the controller's hidden registers, ITER_COUNT and the draw counter alone. -/
structure HiddenMove (s t : State) : Prop where
  ctrl : t.ctrl = s.ctrl
  done : t.done = s.done
  valid : t.valid = s.valid
  err : t.err = s.err
  digestLen : t.digestLen = s.digestLen
  tLen : t.tLen = s.tLen
  oidLen : t.oidLen = s.oidLen
  sigLen : t.sigLen = s.sigLen
  pubLen : t.pubLen = s.pubLen
  nonceCap : t.nonceCap = s.nonceCap
  mem : t.mem = s.mem
  marks : t.marks = s.marks
  events : t.events = s.events
  response : t.response = s.response
  epoch : t.epoch = s.epoch
  iterCount : t.iterCount = s.iterCount ∨ (s.site = .nonceStretch ∧ t.iterCount = iterNext s.iterCount)

/-- `t` is the end of the command that runs in `s`: an error without an output write, or a completion whose outputs are a byte string
stored in one buffer, or none. -/
structure CommandEnd (s t : State) : Prop where
  phase : t.phase = .idle
  site : t.site = .entry
  port : t.port = none
  scratch : t.scratch = Scratch.none
  done : t.done = true
  ctrl : t.ctrl = s.ctrl
  digestLen : t.digestLen = s.digestLen
  tLen : t.tLen = s.tLen
  oidLen : t.oidLen = s.oidLen
  nonceCap : t.nonceCap = s.nonceCap
  events : t.events = s.events
  response : t.response = s.response
  epoch : t.epoch = s.epoch
  iterCount : t.iterCount = s.iterCount ∨ (s.site = .nonceStretch ∧ t.iterCount = iterNext s.iterCount)
  outcome :
    (t.mem = s.mem ∧ t.marks = s.marks ∧ t.sigLen = s.sigLen ∧ t.pubLen = s.pubLen ∧
      (t.valid = true → t.err = .none ∧ s.site = .vfHash)) ∨
    (∃ b bs, t.mem = (writeBuffer b bs s).mem ∧ t.marks = (writeBuffer b bs s).marks ∧ t.err = .none ∧ t.valid = false)

/-- What a controller step or a response can do to the state. -/
def ControllerFrame (s t : State) : Prop := t = s ∨ HiddenMove s t ∨ CommandEnd s t

/-- A request sent, with new scratch registers and a new phase, is a hidden move. -/
theorem hiddenMove_send (site : Site) (r : PortReq) (scr : Scratch) (p : Phase) (s : State) :
    HiddenMove s (sendRequest site r (setScratch scr (setPhase p s))) := by
  constructor <;> first | rfl | exact .inl rfl

theorem setPhase_self (s : State) : setPhase s.phase s = s := rfl

theorem setScratch_self (s : State) : setScratch s.scratch s = s := rfl

/-- A raised error ends the command. -/
theorem commandEnd_raise (code : ErrCode) (s : State) : CommandEnd s (raiseErr code s) := by
  constructor <;> first | rfl | exact .inl rfl | exact .inl ⟨rfl, rfl, rfl, rfl, by simp⟩

/-- A completion without outputs and with VALID = 0 ends the command. -/
theorem commandEnd_finish (s : State) : CommandEnd s (finishCommand false s) := by
  constructor <;> first | rfl | exact .inl rfl | exact .inl ⟨rfl, rfl, rfl, rfl, by simp⟩

/-- The frame of a command's end from a state that differs in the scratch registers alone. -/
theorem CommandEnd.of_setScratch {scr : Scratch} {s t : State} (h : CommandEnd (setScratch scr s) t) : CommandEnd s t := by
  obtain ⟨h1, h2, h3, h4, h5, h6, h7, h8, h9, h10, h11, h12, h13, h14, h15⟩ := h
  refine ⟨h1, h2, h3, h4, h5, h6, h7, h8, h9, h10, h11, h12, h13, h14, ?_⟩
  rcases h15 with h15 | ⟨b, bs, h15, h16, h17⟩
  · exact .inl h15
  · have h := writeBuffer_congr b bs (s := setScratch scr s) (t := s) rfl rfl
    exact .inr ⟨b, bs, h15.trans h.1, h16.trans h.2, h17⟩

/-- Requests of PUBKEY. -/
theorem issuePubkey_frame {c : CurveId} {site : Site} {s t : State} (h : issuePubkey c site s = .next t) : HiddenMove s t := by
  unfold issuePubkey at h
  split at h <;> cases h <;> exact hiddenMove_send _ _ _ _ _

/-- Requests of the nonce loop and of the entropy draw. -/
theorem issueNonce_frame {c : CurveId} {site : Site} {s t : State} (h : issueNonce c site s = .next t) : HiddenMove s t := by
  unfold issueNonce at h
  split at h
  · obtain ⟨oid, -, h⟩ := withOperand_next h
    obtain ⟨prv, -, h⟩ := withOperand_next h
    obtain ⟨u, -, h⟩ := withOperand_next h
    cases h; exact hiddenMove_send _ _ _ _ _
  · cases h; exact hiddenMove_send _ _ _ _ _
  · cases h; exact hiddenMove_send .sgDraw _ s.scratch .waitEnt s
  · cases h

/-- Requests of SIGN. -/
theorem issueSign_frame {c : CurveId} {site : Site} {s t : State} (h : issueSign c site s = .next t) : HiddenMove s t := by
  unfold issueSign at h
  simp only at h
  split at h
  · cases h; exact hiddenMove_send _ _ _ _ _
  · cases h; exact hiddenMove_send _ _ _ _ _
  · cases h; exact hiddenMove_send _ _ _ _ _
  · cases h; exact hiddenMove_send _ _ _ _ _
  · obtain ⟨oid, -, h⟩ := withOperand_next h
    obtain ⟨dig, -, h⟩ := withOperand_next h
    cases h; exact hiddenMove_send _ _ _ _ _
  · cases h; exact hiddenMove_send _ _ _ _ _
  · obtain ⟨prv, -, h⟩ := withOperand_next h
    cases h; exact hiddenMove_send _ _ _ _ _
  · obtain ⟨dig, -, h⟩ := withOperand_next h
    cases h; exact hiddenMove_send _ _ _ _ _
  · cases h; exact hiddenMove_send _ _ _ _ _
  · cases h

/-- Requests of VERIFY. -/
theorem issueVerify_frame {c : CurveId} {site : Site} {s t : State} (h : issueVerify c site s = .next t) : HiddenMove s t := by
  unfold issueVerify at h
  simp only at h
  split at h
  · cases h; exact hiddenMove_send _ _ _ _ _
  · obtain ⟨dig, -, h⟩ := withOperand_next h
    cases h; exact hiddenMove_send _ _ _ _ _
  · cases h; exact hiddenMove_send _ _ _ _ _
  · cases h; exact hiddenMove_send _ _ _ _ _
  · cases h; exact hiddenMove_send _ _ _ _ _
  · cases h; exact hiddenMove_send _ _ _ _ _
  · cases h; exact hiddenMove_send _ _ _ _ _
  · cases h; exact hiddenMove_send _ _ _ _ _
  · cases h; exact hiddenMove_send _ _ _ _ _
  · obtain ⟨oid, -, h⟩ := withOperand_next h
    obtain ⟨dig, -, h⟩ := withOperand_next h
    cases h; exact hiddenMove_send _ _ _ _ _
  · cases h

theorem HiddenMove.of_setScratch {scr : Scratch} {s t : State} (h : HiddenMove (setScratch scr s) t) : HiddenMove s t :=
  ⟨h.ctrl, h.done, h.valid, h.err, h.digestLen, h.tLen, h.oidLen, h.sigLen, h.pubLen, h.nonceCap, h.mem, h.marks, h.events,
    h.response, h.epoch, h.iterCount⟩

theorem enterVerifyKey_frame {c : CurveId} {s t : State} (h : enterVerifyKey c s = .next t) : HiddenMove s t ∨ CommandEnd s t := by
  unfold enterVerifyKey at h
  split at h
  · cases h; exact .inr (commandEnd_raise _ _)
  · obtain ⟨tag, -, h⟩ := withOperand_next h
    split at h
    · cases h; exact .inr (commandEnd_raise _ _)
    · obtain ⟨xy, -, h⟩ := withOperand_next h
      exact .inl (issueVerify_frame h).of_setScratch

/-- A controller step with no request outstanding sends a request, or ends a VERIFY before its first call. -/
theorem advance_frame {s t : State} (h : advance s = .next t) : HiddenMove s t ∨ CommandEnd s t := by
  obtain ⟨c, -, h⟩ := withCurve_next h
  unfold issueAt at h
  split at h
  · unfold enterCommand at h
    split at h
    · obtain ⟨prv, -, h⟩ := withOperand_next h
      exact .inl (issuePubkey_frame h).of_setScratch
    · exact .inl (issueNonce_frame h)
    · unfold enterSign at h
      split at h
      · obtain ⟨kb, -, h⟩ := withOperand_next h
        exact .inl (issueSign_frame h).of_setScratch
      · split at h <;> exact .inl (issueNonce_frame h)
    · unfold enterVerify at h
      split at h
      · cases h; exact .inr (commandEnd_finish _)
      · obtain ⟨sig, -, h⟩ := withOperand_next h
        simp only at h
        split at h
        · cases h; exact .inr (commandEnd_finish _)
        · exact (enterVerifyKey_frame h).imp (·.of_setScratch) (·.of_setScratch)
    · cases h
  all_goals first
    | exact .inl (issuePubkey_frame h)
    | exact .inl (issueNonce_frame h)
    | exact .inl (issueSign_frame h)
    | exact .inl (issueVerify_frame h)

/-! ### The frame of a response -/

theorem hiddenMove_moveTo (site : Site) (scr : Scratch) (s : State) : HiddenMove s (moveTo site (setScratch scr s)) := by
  constructor <;> first | rfl | exact .inl rfl

theorem orRaise_frame {code : ErrCode} {P : Option Pt} {s : State} {k : Pt → State} (h : ∀ Q, HiddenMove s (k Q)) :
    HiddenMove s (orRaise code P s k) ∨ CommandEnd s (orRaise code P s k) := by
  cases P with
  | none => exact .inr (commandEnd_raise _ _)
  | some Q => exact .inl (h Q)

theorem afterBase_frame {P : Pt} {s t : State} (h : afterBase P s = .next t) : HiddenMove s t := by
  unfold afterBase at h
  simp only at h
  split at h <;> cases h <;> exact hiddenMove_moveTo _ _ _

theorem afterMul_frame {P : Option Pt} {s t : State} (h : afterMul P s = .next t) : HiddenMove s t ∨ CommandEnd s t := by
  unfold afterMul at h
  split at h <;> cases h
  · exact orRaise_frame fun _ => hiddenMove_moveTo _ _ _
  · exact orRaise_frame fun _ => hiddenMove_moveTo _ _ _
  · refine orRaise_frame fun Q => ?_
    unfold afterMulQ
    split <;> exact hiddenMove_moveTo _ _ _
  · exact orRaise_frame fun _ => hiddenMove_moveTo _ _ _

theorem afterAdd_frame {P : Pt} {s t : State} (h : afterAdd P s = .next t) : HiddenMove s t := by
  unfold afterAdd at h
  split at h <;> cases h
  exact hiddenMove_moveTo _ _ _

theorem afterFromAffine_frame {P : Option Pt} {s t : State} (h : afterFromAffine P s = .next t) :
    HiddenMove s t ∨ CommandEnd s t := by
  unfold afterFromAffine at h
  split at h <;> cases h
  exact orRaise_frame fun _ => hiddenMove_moveTo _ _ _

theorem afterIsId_frame {z : Bool} {s t : State} (h : afterIsId z s = .next t) : HiddenMove s t ∨ CommandEnd s t := by
  unfold afterIsId at h
  split at h <;> cases h <;> cases z
  · exact .inl (hiddenMove_moveTo _ _ _)
  · exact .inr (commandEnd_raise _ _)
  · exact .inl (hiddenMove_moveTo _ _ _)
  · exact .inr (commandEnd_raise _ _)
  · exact .inl (hiddenMove_moveTo _ _ _)
  · exact .inr (commandEnd_finish _)

theorem completePubkey_end (c : CurveId) (x y : Nat) (s : State) : CommandEnd s (completePubkey c x y s) := by
  refine ⟨rfl, rfl, rfl, rfl, rfl, ?_, ?_, ?_, ?_, ?_, ?_, ?_, ?_, .inl ?_, .inr ⟨.pub, _, rfl, rfl, rfl, rfl⟩⟩ <;>
    simp [completePubkey]

theorem completeSign_end (c : CurveId) (s0 : Bytes) (s1 : Nat) (s : State) : CommandEnd s (completeSign c s0 s1 s) := by
  refine ⟨rfl, rfl, rfl, rfl, rfl, ?_, ?_, ?_, ?_, ?_, ?_, ?_, ?_, .inl ?_, .inr ⟨.sig, _, rfl, rfl, rfl, rfl⟩⟩ <;>
    simp [completeSign]

theorem afterToAffine_frame {c : CurveId} {x y : Nat} {s t : State} (h : afterToAffine c x y s = .next t) :
    HiddenMove s t ∨ CommandEnd s t := by
  unfold afterToAffine at h
  split at h <;> cases h
  · exact .inr (completePubkey_end _ _ _ _)
  · exact .inl (hiddenMove_moveTo _ _ _)
  · exact .inl (hiddenMove_moveTo _ _ _)

theorem afterFnAdd_frame {a : Nat} {s t : State} (h : afterFnAdd a s = .next t) : HiddenMove s t := by
  unfold afterFnAdd at h
  split at h <;> cases h <;> exact hiddenMove_moveTo _ _ _

theorem afterFnMul_frame {a : Nat} {s t : State} (h : afterFnMul a s = .next t) : HiddenMove s t := by
  unfold afterFnMul at h
  split at h <;> cases h
  exact hiddenMove_moveTo _ _ _

theorem afterFnSub_frame {c : CurveId} {a : Nat} {s t : State} (h : afterFnSub c a s = .next t) :
    HiddenMove s t ∨ CommandEnd s t := by
  unfold afterFnSub at h
  split at h <;> cases h
  · exact .inl (hiddenMove_moveTo _ _ _)
  · exact .inr (completeSign_end _ _ _ _)

theorem afterHash_frame {m : Bytes} {s t : State} (h : afterHash m s = .next t) : HiddenMove s t ∨ CommandEnd s t := by
  obtain ⟨c, -, h⟩ := withCurve_next h
  split at h
  · obtain ⟨dig, -, h⟩ := withOperand_next h
    cases h
    left; constructor <;> first | rfl | exact .inl rfl
  · cases h; exact .inl (hiddenMove_moveTo _ _ _)
  · rename_i hs
    cases h
    right
    constructor <;> first
      | rfl
      | exact .inl rfl
      | exact .inl ⟨rfl, rfl, rfl, rfl, fun _ => ⟨rfl, hs⟩⟩
  · cases h

/-- An accepted candidate: GENK completes, SIGN goes on; in both, the frame is that of the state the candidate was found in. -/
theorem nonceReturn_frame (kb : Bytes) (s : State) :
    HiddenMove s (nonceReturn kb s) ∨ CommandEnd s (nonceReturn kb s) := by
  unfold nonceReturn
  split
  · right
    refine ⟨rfl, rfl, rfl, rfl, rfl, ?_, ?_, ?_, ?_, ?_, ?_, ?_, ?_, .inl ?_, .inr ⟨.k, kb, rfl, rfl, rfl, rfl⟩⟩ <;>
      simp [completeGenk]
  · left; constructor <;> first | rfl | exact .inl rfl

/-- Either frame, from a state that differs from `s` in THETA, CAND and one increment of ITER_COUNT. -/
theorem ControllerFrame.of_iteration {s t : State} {theta cand : Bytes} (hs : s.site = .nonceStretch)
    (h : HiddenMove (setIterCount (iterNext s.iterCount) (setNonce theta cand s)) t ∧
        t.iterCount = iterNext s.iterCount ∨
      CommandEnd (setIterCount (iterNext s.iterCount) (setNonce theta cand s)) t ∧ t.iterCount = iterNext s.iterCount) :
    HiddenMove s t ∨ CommandEnd s t := by
  rcases h with ⟨h, hi⟩ | ⟨h, hi⟩
  · left
    exact ⟨h.ctrl, h.done, h.valid, h.err, h.digestLen, h.tLen, h.oidLen, h.sigLen, h.pubLen, h.nonceCap, h.mem, h.marks,
      h.events, h.response, h.epoch, .inr ⟨hs, hi⟩⟩
  · right
    refine ⟨h.phase, h.site, h.port, h.scratch, h.done, h.ctrl, h.digestLen, h.tLen, h.oidLen, h.nonceCap, h.events,
      h.response, h.epoch, .inr ⟨hs, hi⟩, ?_⟩
    rcases h.outcome with h | ⟨b, bs, h1, h2, h3⟩
    · exact .inl h
    · have h4 := writeBuffer_congr b bs (s := setIterCount (iterNext s.iterCount) (setNonce theta cand s)) (t := s) rfl rfl
      exact .inr ⟨b, bs, h1.trans h4.1, h2.trans h4.2, h3⟩

@[simp] theorem nonceReturn_iterCount (kb : Bytes) (s : State) : (nonceReturn kb s).iterCount = s.iterCount := by
  unfold nonceReturn
  split
  · simp [completeGenk]
  · rfl

@[simp] theorem nonceTest_iterCount (c : CurveId) (cand : Bytes) (s : State) : (nonceTest c cand s).iterCount = s.iterCount := by
  unfold nonceTest
  split
  · simp
  · split <;> rfl

/-- The tests at the end of an iteration: a hidden move or the end of the command. -/
theorem nonceTest_frame (c : CurveId) (cand : Bytes) (s : State) :
    HiddenMove s (nonceTest c cand s) ∨ CommandEnd s (nonceTest c cand s) := by
  unfold nonceTest
  split
  · exact nonceReturn_frame _ _
  · split
    · exact .inr (commandEnd_raise _ _)
    · exact .inl (hiddenMove_moveTo _ s.scratch s)

theorem afterStretch_frame {cand : Bytes} {s t : State} (h : afterStretch cand s = .next t) :
    HiddenMove s t ∨ CommandEnd s t := by
  obtain ⟨c, -, h⟩ := withCurve_next h
  split at h
  · rename_i hs
    cases h
    refine ControllerFrame.of_iteration (theta := s.theta) (cand := cand) hs ?_
    have hi := nonceTest_iterCount c cand (setIterCount (iterNext s.iterCount) (setNonce s.theta cand s))
    exact (nonceTest_frame c cand _).imp (⟨·, hi⟩) (⟨·, hi⟩)
  · cases h

theorem afterDraw_frame {b : Bytes} {s t : State} (h : afterDraw b s = .next t) : HiddenMove s t := by
  unfold afterDraw at h
  split at h <;> cases h
  constructor <;> first | rfl | exact .inl rfl

end Sys2Proof.Machine
end

