-- ==== Sys2Proof/Laws/Step.lean ====
section
/-! SUPPORT. What a step can do, said once: the frame of a port request's meaning, and the inversion of `step`. -/

namespace Sys2Proof.Machine

open Sys2Proof

/-! ### Port requests -/

/-- The rows that are port requests. -/
def isPortInstr : Instr → Bool
  | .pubkey _ | .genk _ | .sign _ | .verify _ => false
  | .reservedCmd0 _ | .reservedCmd5 _ | .reservedCmd6 _ | .reservedCmd7 _ => false
  | .cfg _ _ | .abort _ | .doneClr => false
  | .cgBase _ | .cgMul _ _ _ | .cgAdd _ _ _ | .cgFromAffine _ _ _ | .cgIsId _ _ | .cgToAffine _ _ => true
  | .cgFnAdd _ _ _ | .cgFnSub _ _ _ | .cgFnMul _ _ _ | .deHash _ | .deStretch _ _ | .entDraw _ => true

theorem decodeCurveGroup_isPort {c : CurveId} {op : Nat} {xs : List Operand} {i : Instr}
    (h : decodeCurveGroup c op xs = .ok i) : isPortInstr i = true := by
  unfold decodeCurveGroup at h
  split at h <;> cases h <;> rfl

theorem decodeDigestEngine_isPort {op : Nat} {xs : List Operand} {i : Instr}
    (h : decodeDigestEngine op xs = .ok i) : isPortInstr i = true := by
  unfold decodeDigestEngine at h
  split at h <;> cases h <;> rfl

theorem decodeEntropy_isPort {op : Nat} {xs : List Operand} {i : Instr}
    (h : decodeEntropy op xs = .ok i) : isPortInstr i = true := by
  unfold decodeEntropy at h
  split at h <;> cases h
  rfl

/-- A port request carries a row of a port. -/
theorem decodePort_isPort {r : PortReq} {i : Instr} (h : decodePort r = .ok i) : isPortInstr i = true := by
  unfold decodePort at h
  split at h
  · split at h
    · exact decodeCurveGroup_isPort h
    · cases h
  · split at h
    · exact decodeDigestEngine_isPort h
    · cases h
  · split at h
    · exact decodeEntropy_isPort h
    · cases h

/-- What the meaning of a port request can do: nothing (the request is not outstanding), a hidden move, or the command's end. -/
theorem exec_port_frame {i : Instr} {s t : State} (hi : isPortInstr i = true) (h : exec i s = .next t) : ControllerFrame s t := by
  cases i with
  | cgBase c => exact (receive_next h).elim (fun h => .inr (.inl (afterBase_frame h.2))) (fun h => .inl h.2)
  | cgMul c P k => exact (receive_next h).elim (fun h => .inr (afterMul_frame h.2)) (fun h => .inl h.2)
  | cgAdd c P Q => exact (receive_next h).elim (fun h => .inr (.inl (afterAdd_frame h.2))) (fun h => .inl h.2)
  | cgFromAffine c x y => exact (receive_next h).elim (fun h => .inr (afterFromAffine_frame h.2)) (fun h => .inl h.2)
  | cgIsId c P => exact (receive_next h).elim (fun h => .inr (afterIsId_frame h.2)) (fun h => .inl h.2)
  | cgToAffine c P =>
    simp only [exec, execCgToAffine] at h
    rcases receive_next h with ⟨-, h⟩ | ⟨-, h⟩
    · cases P with
      | infinity => cases h
      | finite k => exact .inr (afterToAffine_frame h)
    · exact .inl h
  | cgFnAdd c a b => exact (receive_next h).elim (fun h => .inr (.inl (afterFnAdd_frame h.2))) (fun h => .inl h.2)
  | cgFnSub c a b => exact (receive_next h).elim (fun h => .inr (afterFnSub_frame h.2)) (fun h => .inl h.2)
  | cgFnMul c a b => exact (receive_next h).elim (fun h => .inr (.inl (afterFnMul_frame h.2))) (fun h => .inl h.2)
  | deHash m => exact (receive_next h).elim (fun h => .inr (afterHash_frame h.2)) (fun h => .inl h.2)
  | deStretch key b => exact (receive_next h).elim (fun h => .inr (afterStretch_frame h.2)) (fun h => .inl h.2)
  | entDraw m => exact (receive_next h).elim (fun h => .inr (.inl (afterDraw_frame h.2))) (fun h => .inl h.2)
  | pubkey => cases hi
  | genk => cases hi
  | sign => cases hi
  | verify => cases hi
  | reservedCmd0 => cases hi
  | reservedCmd5 => cases hi
  | reservedCmd6 => cases hi
  | reservedCmd7 => cases hi
  | cfg => cases hi
  | abort => cases hi
  | doneClr => cases hi

/-! ### The cases of a step -/

/-- Everything a step from `s` can do when it answers a next state. -/
inductive StepCase (s : State) : State → Prop where
  /-- nothing is scheduled and nothing is enabled -/
  | stutter : s.events = [] → StepCase s s
  /-- the event is taken and the block keeps all its state -/
  | took : StepCase s (takeEvent s)
  /-- a START while idle -/
  | start (cmd : BitVec 3) (f : CtrlFields) : s.busy = false → StepCase s (startAttempt (storeFields cmd f (takeEvent s)))
  /-- CFG while idle -/
  | configure (cmd : BitVec 3) (f : CtrlFields) : s.busy = false → StepCase s (storeFields cmd f (takeEvent s))
  /-- a CTRL write while busy without ABORT -/
  | busyWrite (ie : Bool) : s.busy = true → StepCase s (storeIe ie (takeEvent s))
  /-- ABORT while busy -/
  | aborted (ie : Bool) : s.busy = true → StepCase s (abortCommand (storeIe ie (takeEvent s)))
  /-- DONE clear -/
  | cleared : StepCase s (clearDone (takeEvent s))
  /-- a controller step or a response -/
  | controller (t : State) : s.busy = true → HiddenMove (takeEvent s) t ∨ CommandEnd (takeEvent s) t → StepCase s t
  /-- a host read, or a refused host access -/
  | responded (r : BusResponse) : StepCase s (respond r (takeEvent s))
  /-- a legal host write beside CTRL and STATUS -/
  | written (w : Width) (off : BitVec 12) (v : Word) : refusesWrite w off s = false →
    StepCase s (respond .written (writeData w off v (takeEvent s)))
  /-- reset -/
  | reset : s.events.head? = some .reset → StepCase s (resetBlock (takeEvent s))

/-- A CTRL word is fetched with the mode the block is in; a port request only while busy. -/
theorem fetch_busy {s : State} {t : Transaction} (h : fetch s = some t) :
    (∃ w, t = .ctrlWord s.busy w) ∨ (∃ w, t = .statusWord w) ∨ (∃ r, t = .portReq r ∧ s.busy = true ∧ s.port = some r) := by
  unfold fetch at h
  split at h
  · split at h
    · exact .inl ⟨_, (Option.some.inj h).symm⟩
    · split at h
      · exact .inr (.inl ⟨_, (Option.some.inj h).symm⟩)
      · cases h
  · split at h
    · unfold answerable at h
      split at h
      · split at h
        · cases h
        · exact .inr (.inr ⟨_, (Option.some.inj h).symm, by assumption, by assumption⟩)
      · cases h
    · cases h
  · split at h
    · unfold answerable at h
      split at h
      · split at h
        · cases h
        · exact .inr (.inr ⟨_, (Option.some.inj h).symm, by assumption, by assumption⟩)
      · cases h
    · cases h
  · split at h
    · unfold entropyOutstanding at h
      split at h
      · split at h
        · exact .inr (.inr ⟨_, (Option.some.inj h).symm, by assumption, by assumption⟩)
        · cases h
      · cases h
    · cases h
  · cases h

theorem startRow_exec (cmd : BitVec 3) (f : CtrlFields) (s : State) : exec (startRow cmd f) s = startWith cmd f s := by
  have h : ∀ k : Fin 8, exec (startRow (BitVec.ofFin k) f) s = startWith (BitVec.ofFin k) f s := by
    intro k
    match k with
    | 0 => rfl
    | 1 => rfl
    | 2 => rfl
    | 3 => rfl
    | 4 => rfl
    | 5 => rfl
    | 6 => rfl
    | 7 => rfl
  exact h cmd.toFin

/-- What a step that runs a CTRL word can do. -/
theorem ctrl_cases {s t : State} {w : Word} {i : Instr} (hi : decodeCtrl s.busy w = .ok i) (h : exec i (takeEvent s) = .next t) :
    StepCase s t := by
  unfold decodeCtrl at hi
  cases hb : s.busy with
  | true =>
    rw [hb, if_pos rfl] at hi
    split at hi
    · cases hi
      simp only [exec, execAbort, takeEvent_busy, hb, if_true] at h
      cases h; exact .aborted _ hb
    · cases hi
  | false =>
    rw [hb, if_neg (by decide)] at hi
    split at hi
    · cases hi
      rw [startRow_exec] at h
      simp only [startWith, takeEvent_busy, hb] at h
      cases h; exact .start _ _ hb
    · cases hi
      simp only [exec, execCfg, takeEvent_busy, hb] at h
      cases h; exact .configure _ _ hb

theorem controllerStep_cases {s t : State} (h : controllerStep (takeEvent s) = .next t) : StepCase s t := by
  unfold controllerStep at h
  split at h
  · rename_i hb
    simp only [takeEvent_busy, Bool.and_eq_true] at hb
    exact .controller _ hb.1 (advance_frame h)
  · cases h; exact .took

/-- A refused write does not depend on the schedule. -/
@[simp] theorem refusesWrite_takeEvent (w : Width) (off : BitVec 12) (s : State) :
    refusesWrite w off (takeEvent s) = refusesWrite w off s := by simp [refusesWrite]

theorem runEvent_cases {s t : State} (h : runEvent s = .next t) : StepCase s t := by
  unfold runEvent at h
  split at h
  · rename_i he
    split at h
    · exact controllerStep_cases h
    · cases h; exact .stutter he
  · exact controllerStep_cases h
  · cases h
    unfold busWrite
    split
    · exact .responded _
    · rename_i hr
      rw [refusesWrite_takeEvent] at hr
      exact .written _ _ _ (by simpa using hr)
  · cases h
    unfold busRead
    split <;> exact .responded _
  · cases h; exact .took
  · cases h; exact .took
  · rename_i he
    cases h; exact .reset (by rw [he]; rfl)

/-- Everything a step can do. -/
theorem step_cases {s t : State} (h : step s = .next t) : StepCase s t := by
  unfold step at h
  split at h
  · rename_i u hu
    rcases fetch_busy hu with ⟨w, rfl⟩ | ⟨w, rfl⟩ | ⟨r, rfl, hb, -⟩
    · split at h
      · rename_i hd; exact ctrl_cases hd h
      · rename_i hd
        cases h
        refine .busyWrite _ ?_
        cases hb : s.busy with
        | true => rfl
        | false =>
          rw [hb] at hd
          simp only [decode, decodeCtrl] at hd
          split at hd
          · contradiction
          · split at hd <;> cases hd
    · split at h
      · rename_i hd
        simp only [decode, decodeStatus] at hd
        split at hd <;> cases hd
        cases h; exact .cleared
      · cases h; exact .took
    · split at h
      · rename_i hd
        rcases exec_port_frame (decodePort_isPort hd) h with h | h
        · rw [h]; exact .took
        · exact .controller _ hb h
      · cases h
  · exact runEvent_cases h

end Sys2Proof.Machine
end

