-- ==== Sys2Proof/Laws/Invariants.lean ====
section
/-! SUPPORT. How the invariants of Safety.lean travel over the shared operations: lemmas for the proofs about every step. -/

namespace Sys2Proof.Machine

open Sys2Proof

/-! ### The form of the memory -/

theorem MemoryOk.congr {s t : State} (h : MemoryOk s) (h1 : t.mem = s.mem) (h2 : t.marks = s.marks) : MemoryOk t :=
  ⟨h1 ▸ h.cells, h2 ▸ h.marks, by rw [h1, h2]; exact h.listed⟩

theorem MemoryOk.writeByte {s : State} (h : MemoryOk s) (a : Nat) (b : Byte) : MemoryOk (writeByte a b s) := by
  refine ⟨memWrite_wf _ _ _ h.cells, markAdd_wf _ _ h.marks, fun x hx => ?_⟩
  simp only [writeByte_marks, isMarked_markAdd, writeByte_mem, memRead_memWrite] at *
  by_cases hax : a = x
  · simp [hax]
  · simp only [hax, if_false]
    apply h.listed
    simpa [hax] using hx

theorem MemoryOk.writeBytes {s : State} (h : MemoryOk s) (bs : Bytes) (a : Nat) : MemoryOk (writeBytes a bs s) := by
  induction bs generalizing a s with
  | nil => exact h
  | cons b t ih => exact ih (h.writeByte a b) _

theorem MemoryOk.writeLanes {s : State} (h : MemoryOk s) (n o : Nat) (v : Word) : MemoryOk (writeLanes o v n s) := by
  induction n generalizing o v s with
  | zero => exact h
  | succ n ih =>
    rw [Machine.writeLanes]
    apply ih
    split
    · exact h
    · exact h.writeByte _ _

theorem MemoryOk.writeData {s : State} (h : MemoryOk s) (w : Width) (off : BitVec 12) (v : Word) :
    MemoryOk (writeData w off v s) := by
  unfold Machine.writeData
  split
  · exact h.congr (by simp) (by simp)
  · exact h.writeLanes _ _ _

/-! ### Bytes inside the buffers -/

theorem InBuffers.congr {s t : State} (h : InBuffers s) (h1 : t.mem = s.mem) (h2 : t.marks = s.marks) : InBuffers t := by
  unfold InBuffers; rw [h1, h2]; exact h

theorem InBuffers.writeByte {s : State} (h : InBuffers s) {a : Nat} (ha : inBuffers a = true) (b : Byte) :
    InBuffers (writeByte a b s) := by
  refine ⟨fun x hx => ?_, fun x hx => ?_⟩
  · rcases mem_memWrite _ _ _ _ hx with rfl | hx
    · exact ha
    · exact h.1 x hx
  · rcases mem_markAdd _ _ _ hx with rfl | hx
    · exact ha
    · exact h.2 x hx

theorem InBuffers.writeBytes {s : State} (h : InBuffers s) (bs : Bytes) (a : Nat)
    (ha : ∀ i, i < bs.length → inBuffers (a + i) = true) : InBuffers (writeBytes a bs s) := by
  induction bs generalizing a s with
  | nil => exact h
  | cons b t ih =>
    refine ih (h.writeByte (ha 0 (by simp)) b) _ fun i hi => ?_
    have := ha (i + 1) (by simpa using hi)
    rwa [show a + 1 + i = a + (i + 1) by omega]

/-- A byte string that fits a buffer stays inside it. -/
theorem InBuffers.writeBuffer {s : State} (h : InBuffers s) (b : Buffer) (bs : Bytes) (hb : bs.length ≤ bufferSize b) :
    InBuffers (writeBuffer b bs s) := by
  refine h.writeBytes bs _ fun i hi => ?_
  simp only [inBuffers, Bool.or_eq_true, Bool.and_eq_true, decide_eq_true_eq]
  cases b <;> simp only [bufferSize, bufferBase] at * <;> omega

theorem InBuffers.writeLanes {s : State} (h : InBuffers s) (n o : Nat) (v : Word)
    (ho : ∀ i, i < n → inBuffers (o + i) = true ∨ inPad (o + i) = true) : InBuffers (writeLanes o v n s) := by
  induction n generalizing o v s with
  | zero => exact h
  | succ n ih =>
    rw [Machine.writeLanes]
    refine ih ?_ _ _ fun i hi => ?_
    · split
      · exact h
      · exact h.writeByte ((ho 0 (by omega)).resolve_right (by assumption)) _
    · have := ho (i + 1) (by omega)
      rwa [show o + 1 + i = o + (i + 1) by omega]

/-- Every byte of a mapped access is mapped. -/
theorem allMapped_iff (o n : Nat) : allMapped o n = true ↔ ∀ i, i < n → isMapped (o + i) = true := by
  induction n generalizing o with
  | zero => simp [allMapped]
  | succ n ih =>
    rw [allMapped, Bool.and_eq_true, ih]
    constructor
    · rintro ⟨h0, h⟩ i hi
      cases i with
      | zero => exact h0
      | succ i =>
        have := h i (by omega)
        rwa [show o + 1 + i = o + (i + 1) by omega] at this
    · intro h
      refine ⟨h 0 (by omega), fun i hi => ?_⟩
      have := h (i + 1) (by omega)
      rwa [show o + (i + 1) = o + 1 + i by omega] at this

/-- A width is 1, 2 or 4 bytes. -/
theorem widthBytes_cases (w : Width) : widthBytes w = 1 ∨ widthBytes w = 2 ∨ widthBytes w = 4 := by
  cases w <;> simp [widthBytes]

/-- An access that is not refused touches, outside the register range, buffer and pad bytes alone. -/
theorem buffer_access {w : Width} {off : BitVec 12} (h : refusesAccess w off = false) (hr : inRegisters off.toNat = false) :
    ∀ i, i < widthBytes w → inBuffers (off.toNat + i) = true ∨ inPad (off.toNat + i) = true := by
  intro i hi
  have h3 : allMapped off.toNat (widthBytes w) = true := by
    cases hm : allMapped off.toNat (widthBytes w) with
    | true => rfl
    | false => simp [refusesAccess, hm] at h
  have h4 := (allMapped_iff _ _).1 h3 i hi
  have h5 : inRegisters (off.toNat + i) = false := by
    simp only [inRegisters, decide_eq_false_iff_not, Nat.not_lt] at hr ⊢
    omega
  simpa [isMapped, h5, or_comm] using h4

/-- A write that is not refused while busy changes nothing: CTRL and STATUS are handled before, and ID and ITER_COUNT ignore it. -/
theorem writeData_busy_self {w : Width} {off : BitVec 12} {s : State} (v : Word) (hb : s.busy = true)
    (h : refusesWrite w off s = false) : writeData w off v s = s := by
  simp only [refusesWrite, hb, Bool.true_and, Bool.or_eq_false_iff] at h
  obtain ⟨h1, h2⟩ := h
  have h0 : inRegisters off.toNat = true := by
    cases hr : inRegisters off.toNat with
    | true => rfl
    | false =>
      have := buffer_access h1 hr 0 (by cases w <;> simp [widthBytes])
      simp only [isLocked, Bool.or_eq_false_iff] at h2
      simp_all
  simp only [writeData, h0, if_true]
  simp only [isLocked, Bool.or_eq_false_iff, Bool.and_eq_false_iff, decide_eq_false_iff_not, not_le, not_lt] at h2
  simp only [inRegisters, decide_eq_true_eq] at h0
  unfold writeRegister
  split <;> first | rfl | (exfalso; omega)

end Sys2Proof.Machine
end

