-- ==== Sys2Proof/Laws/Bus.lean ====
section
/-! SUPPORT. What a bus access can do: the lanes of a buffer read and of a buffer write, and the step of an access that carries no row
of the opcode table. -/

namespace Sys2Proof.Machine

open Sys2Proof

/-- Lane `i + 1` of a word is lane `i` of the word shifted by a byte. -/
theorem lane_shift (v : Word) (i : Nat) : (v >>> 8).extractLsb' (8 * i) 8 = v.extractLsb' (8 * (i + 1)) 8 := by
  apply BitVec.eq_of_toNat_eq
  simp only [BitVec.extractLsb'_toNat, BitVec.toNat_ushiftRight, Nat.shiftRight_eq_div_pow, Nat.div_div_eq_div_mul, ← pow_add]
  rw [show 8 + 8 * i = 8 * (i + 1) by ring]

/-- A lane write stores lane `i` at offset `o + i` and leaves every other offset (20_memory.md R41). -/
theorem readMarked_writeLanes (n o : Nat) (v : Word) (s : State) (h : ∀ i, i < n → inPad (o + i) = false) (a : Nat) :
    readMarked (writeLanes o v n s) a =
      if o ≤ a ∧ a < o + n then some (v.extractLsb' (8 * (a - o)) 8) else readMarked s a := by
  induction n generalizing o v s with
  | zero => rw [writeLanes, if_neg (by omega)]
  | succ n ih =>
    have h0 : inPad o = false := h 0 (by omega)
    rw [writeLanes, h0, if_neg (by decide), ih _ _ _ (fun i hi => by rw [Nat.add_assoc, Nat.add_comm 1]; exact h (i + 1) (by omega)),
      readMarked_writeByte]
    by_cases h1 : o = a
    · subst h1
      rw [if_neg (by omega), if_pos rfl, if_pos (by omega), Nat.sub_self]
    · rw [if_neg h1]
      by_cases h2 : o + 1 ≤ a ∧ a < o + 1 + n
      · rw [if_pos h2, if_pos (by omega), lane_shift, show a - (o + 1) + 1 = a - o by omega]
      · rw [if_neg h2, if_neg (by omega)]

/-- The lanes of marked buffer bytes are their little-endian number (20_memory.md R41). -/
theorem busLanes_of_readBytes {s : State} {n o : Nat} {bs : Bytes} (hp : ∀ i, i < n → inPad (o + i) = false)
    (h : readBytes s o n = some bs) : busLanes s o n = leNat bs := by
  induction n generalizing o bs with
  | zero => cases h; rfl
  | succ n ih =>
    rw [readBytes] at h
    cases hr : readMarked s o with
    | none => rw [hr] at h; cases h
    | some b =>
      cases ht : readBytes s (o + 1) n with
      | none => rw [hr, ht] at h; cases h
      | some t =>
        rw [hr, ht] at h
        cases h
        have h0 : inPad o = false := hp 0 (by omega)
        rw [busLanes, busByte, h0, if_neg (by decide), hr,
          ih (fun i hi => by rw [Nat.add_assoc, Nat.add_comm 1]; exact hp (i + 1) (by omega)) ht, leNat]

/-- The number read from `n` lanes has `n` base-256 digits. -/
theorem busLanes_lt (s : State) (n o : Nat) : busLanes s o n < 256 ^ n := by
  induction n generalizing o with
  | zero => exact Nat.one_pos
  | succ n ih =>
    have h1 := ih (o + 1)
    have h2 : (busByte s o).toNat < 256 := (busByte s o).isLt
    rw [busLanes, pow_succ]
    omega

/-- Lane `i` of the number read is the byte at offset `o + i` (20_memory.md R41). -/
theorem busLanes_lane (s : State) {n i : Nat} (o : Nat) (h : i < n) :
    busLanes s o n / 256 ^ i % 256 = (busByte s (o + i)).toNat := by
  induction n generalizing o i with
  | zero => omega
  | succ n ih =>
    have h2 : (busByte s o).toNat < 256 := (busByte s o).isLt
    cases i with
    | zero => rw [busLanes, pow_zero, Nat.div_one, Nat.add_mul_mod_self_left, Nat.mod_eq_of_lt h2, Nat.add_zero]
    | succ i =>
      rw [busLanes, pow_succ', ← Nat.div_div_eq_div_mul, Nat.add_mul_div_left _ _ (by decide),
        Nat.div_eq_of_lt h2, Nat.zero_add, ih (o + 1) (by omega), Nat.add_assoc, Nat.add_comm 1]

/-- A buffer offset is no register and no pad byte. -/
theorem inBuffers_disjoint {o : Nat} (h : inBuffers o = true) : inRegisters o = false ∧ inPad o = false ∧ isMapped o = true := by
  simp only [isMapped, inBuffers, inRegisters, inPad, Bool.or_eq_true, Bool.and_eq_true, decide_eq_true_eq, Bool.and_eq_false_iff,
    decide_eq_false_iff_not] at *
  omega

/-- A pad offset is no register and mapped. -/
theorem inPad_mapped {o : Nat} (h : inPad o = true) : inRegisters o = false ∧ isMapped o = true := by
  simp only [isMapped, inRegisters, inPad, Bool.or_eq_true, Bool.and_eq_true, decide_eq_true_eq, decide_eq_false_iff_not] at *
  omega

/-- An aligned access to buffer or pad bytes is refused in no mode but by the busy lock. -/
theorem refusesAccess_window {w : Width} {off : BitVec 12} (ha : off.toNat % widthBytes w = 0)
    (hb : ∀ i, i < widthBytes w → inBuffers (off.toNat + i) = true ∨ inPad (off.toNat + i) = true) :
    refusesAccess w off = false ∧ inRegisters off.toNat = false := by
  have key : ∀ i, i < widthBytes w → inRegisters (off.toNat + i) = false ∧ isMapped (off.toNat + i) = true := fun i hi =>
    (hb i hi).elim (fun h => ⟨(inBuffers_disjoint h).1, (inBuffers_disjoint h).2.2⟩) inPad_mapped
  have h1 : inRegisters off.toNat = false := (key 0 (by cases w <;> decide)).1
  have h2 : allMapped off.toNat (widthBytes w) = true := (allMapped_iff _ _).2 fun i hi => (key i hi).2
  exact ⟨by simp [refusesAccess, ha, h1, h2], h1⟩

/-- An aligned access to buffer bytes is refused in no mode but by the busy lock. -/
theorem refusesAccess_buffer {w : Width} {off : BitVec 12} (ha : off.toNat % widthBytes w = 0)
    (hb : ∀ i, i < widthBytes w → inBuffers (off.toNat + i) = true) : refusesAccess w off = false :=
  (refusesAccess_window ha fun i hi => .inl (hb i hi)).1

/-- A read is performed as an access. -/
theorem step_read {s : State} {w : Width} {off : BitVec 12} {es : List Event} (h : s.events = .read w off :: es) :
    step s = .next (busRead w off { s with events := es }) := by
  have hf : fetch s = none := by unfold fetch; rw [h]
  rw [step, hf]
  simp only [runEvent, takeEvent, h]

/-- A write other than a 4-byte write of CTRL or STATUS is performed as an access. -/
theorem step_write {s : State} {w : Width} {off : BitVec 12} {v : Word} {es : List Event} (h : s.events = .write w off v :: es)
    (hn : w = .four → off ≠ ctrlOffset ∧ off ≠ statusOffset) :
    step s = .next (busWrite w off v { s with events := es, epoch := s.epoch + 1, response := .written }) := by
  have hf : fetch s = none := by
    unfold fetch
    rw [h]
    cases w with
    | four => exact (if_neg (hn rfl).1).trans (if_neg (hn rfl).2)
    | one => rfl
    | two => rfl
  rw [step, hf]
  simp only [runEvent, takeEvent, h]

end Sys2Proof.Machine
end

