-- ==== Sys2Proof/Laws/Codec.lean ====
section
/-! SUPPORT. The integer codecs: lengths, bounds, and that each undoes the other (spec/00_scope.md R14). -/

namespace Sys2Proof.Machine

open Sys2Proof

@[simp] theorem leBytes_length (m x : Nat) : (leBytes m x).length = m := by
  induction m generalizing x with
  | zero => rfl
  | succ m ih => simp [leBytes, ih]

/-- `LE(LE_m(x)) = x mod 256^m`. -/
theorem leNat_leBytes_mod (m x : Nat) : leNat (leBytes m x) = x % 256 ^ m := by
  induction m generalizing x with
  | zero => simp [leBytes, leNat, Nat.mod_one]
  | succ m ih =>
    rw [leBytes, leNat, ih, Nat.pow_succ, Nat.mul_comm (256 ^ m), Nat.mod_mul, BitVec.toNat_ofNat]

theorem leNat_leBytes {m x : Nat} (h : x < 256 ^ m) : leNat (leBytes m x) = x := by
  rw [leNat_leBytes_mod, Nat.mod_eq_of_lt h]

theorem leNat_lt (b : Bytes) : leNat b < 256 ^ b.length := by
  induction b with
  | nil => simp [leNat]
  | cons x t ih =>
    have := x.isLt
    rw [leNat, List.length_cons, Nat.pow_succ]
    omega

/-- `LE_m(LE(b)) = b` for `|b| = m`. -/
theorem leBytes_leNat (b : Bytes) : leBytes b.length (leNat b) = b := by
  induction b with
  | nil => rfl
  | cons x t ih =>
    have hx := x.isLt
    rw [leNat, List.length_cons, leBytes]
    congr 1
    · apply BitVec.eq_of_toNat_eq
      rw [BitVec.toNat_ofNat]; omega
    · rw [show (x.toNat + 256 * leNat t) / 256 = leNat t by omega, ih]

theorem beNat_lt (b : Bytes) : beNat b < 256 ^ b.length := by
  rw [beNat, ← List.length_reverse]; exact leNat_lt _

@[simp] theorem beBytes_length (m x : Nat) : (beBytes m x).length = m := by simp [beBytes]

theorem beNat_beBytes {m x : Nat} (h : x < 256 ^ m) : beNat (beBytes m x) = x := by
  rw [beNat, beBytes, List.reverse_reverse, leNat_leBytes h]

/-- The least non-negative residue of an integer (00_scope.md R14). -/
theorem intMod_spec (x : Int) {n : Nat} (hn : 0 < n) : intMod x n < n ∧ (intMod x n : Int) = x % n := by
  have hn' : (0 : Int) < n := by exact_mod_cast hn
  have h1 := Int.emod_nonneg x hn'.ne'
  have h2 := Int.emod_lt_of_pos x hn'
  have h3 : ((x % (n : Int)).toNat : Int) = x % n := Int.toNat_of_nonneg h1
  exact ⟨by unfold intMod; omega, h3⟩

@[simp] theorem hash_length (m : Bytes) : (Config.hash m).length = Config.hlen := by simp [Config.hash]

/-- STRETCH_LEN (00_scope.md R8). -/
@[simp] theorem stretch_length (key b : Bytes) : (Config.stretch key b).length = b.length := by simp [Config.stretch]

/-- STRETCH_BIJ (00_scope.md R8): every byte string is the stretch of one of the same length. -/
theorem exists_stretch_eq (key b : Bytes) : ∃ b', b'.length = b.length ∧ Config.stretch key b' = b := by
  refine ⟨List.ofFn ((Config.stretchPerm key b.length).symm b.get), by simp, ?_⟩
  have key_step : ∀ (m : Nat) (f : Fin m → Byte) (l : Bytes) (hl : l.length = m), (∀ i : Fin m, l.get (i.cast hl.symm) = f i) →
      Config.stretch key l = List.ofFn (Config.stretchPerm key m f) := by
    intro m f l hl hf
    subst hl
    have : l.get = f := funext hf
    rw [Config.stretch, this]
  rw [key_step b.length ((Config.stretchPerm key b.length).symm b.get) _ (by simp) (by intro i; simp),
    Equiv.apply_symm_apply, List.ofFn_get]

theorem order_prime (c : CurveId) : (Config.order c).Prime := (Config.curve c).record.n_prime

theorem order_pos (c : CurveId) : 0 < Config.order c := (order_prime c).pos

/-- Invariant (iii) of 00_scope.md R6. -/
theorem order_large (c : CurveId) : 2 ^ (8 * c.half + 1) < Config.order c := (Config.curve c).record.n_large

/-- From invariant (i) of 00_scope.md R6: a scalar below `n` has L bytes. -/
theorem order_le (c : CurveId) : Config.order c ≤ 256 ^ c.len := by
  have h1 := (Config.curve c).record.size_lt
  have h2 := (order_prime c).pos
  have h3 : Config.order c ≤ max (Config.curve c).record.p (Config.curve c).record.n := Nat.le_max_right _ _
  omega

/-- A power of 256 is not prime, so a prime order lies strictly below it. -/
theorem order_lt (c : CurveId) : Config.order c < 256 ^ c.len := by
  refine lt_of_le_of_ne (order_le c) fun h => ?_
  have h1 : 2 ∣ Config.order c := by rw [h]; exact dvd_pow (by norm_num) (by cases c <;> decide)
  have h2 := (Nat.prime_dvd_prime_iff_eq Nat.prime_two (order_prime c)).1 h1
  have h3 := order_large c
  have h4 : 2 ^ 1 ≤ 2 ^ (8 * c.half + 1) := Nat.pow_le_pow_right (by norm_num) (by omega)
  omega

/-- From invariant (i) of 00_scope.md R6: a coordinate has L bytes. -/
theorem prime_le (c : CurveId) : (Config.curve c).record.p ≤ 256 ^ c.len := by
  have h1 := (Config.curve c).record.size_lt
  have h3 : (Config.curve c).record.p ≤ max (Config.curve c).record.p (Config.curve c).record.n := Nat.le_max_left _ _
  omega

end Sys2Proof.Machine
end

