-- ==== Sys2Proof/Laws/Encoding.lean ====
section
/-! SUPPORT. Reading back the fields of the words that the encoder builds: one lemma per field. -/

namespace Sys2Proof

theorem ctrlCmd_ctrlWord (cmd : BitVec 3) (f : CtrlFields) (a b : Bool) : ctrlCmd (ctrlWord cmd f a b) = cmd := by
  obtain ⟨c, m, k, o, ie⟩ := f
  revert cmd c m k o ie a b
  decide +kernel

theorem ctrlFields_ctrlWord (cmd : BitVec 3) (f : CtrlFields) (a b : Bool) : ctrlFields (ctrlWord cmd f a b) = f := by
  obtain ⟨c, m, k, o, ie⟩ := f
  revert cmd c m k o ie a b
  decide +kernel

/-- START, ABORT and IE of a CTRL word. -/
theorem ctrlWord_bits (cmd : BitVec 3) (f : CtrlFields) (a b : Bool) :
    (ctrlWord cmd f a b).getLsbD 0 = b ∧ (ctrlWord cmd f a b).getLsbD 1 = a ∧ (ctrlWord cmd f a b).getLsbD 10 = f.ie := by
  obtain ⟨c, m, k, o, ie⟩ := f
  revert cmd c m k o ie a b
  decide +kernel

@[simp] theorem reqOp_reqWord (c : BitVec 2) (op : BitVec 4) : reqOp (reqWord c op) = op.toNat := by
  revert c op; decide +kernel

@[simp] theorem reqCurve_reqWord (c : BitVec 2) (op : BitVec 4) : reqCurve (reqWord c op) = c := by
  revert c op; decide +kernel

@[simp] theorem curveOfCode_curveCode (c : CurveId) : curveOfCode (curveCode c) = some c := by
  cases c <;> rfl

/-- Curve code 3 is the only one without a curve (30_encoding.md R60). -/
theorem curveOfCode_eq_some (b : BitVec 2) (c : CurveId) : curveOfCode b = some c ↔ b = curveCode c := by
  revert b; cases c <;> decide

/-- A 6-bit request word is its curve code and its OP. -/
theorem reqWord_fields (w : BitVec 6) : reqWord (reqCurve w) (BitVec.ofNat 4 (reqOp w)) = w := by
  revert w; decide +kernel

theorem decodePort_curveGroup (c : CurveId) (op : BitVec 4) (xs : List Operand) :
    decodePort (curveGroupReq c op xs) = decodeCurveGroup c op.toNat xs := by
  simp [decodePort, curveGroupReq]

theorem decodePort_digest (op : BitVec 4) (xs : List Operand) : decodePort (digestReq op xs) = decodeDigestEngine op.toNat xs := by
  simp [decodePort, digestReq]

theorem decodePort_entropy (op : BitVec 4) (xs : List Operand) : decodePort (entropyReq op xs) = decodeEntropy op.toNat xs := by
  simp [decodePort, entropyReq]

end Sys2Proof
end

