-- ==== Sys2Proof/Laws/PerInstr.lean ====
section
/-! SUPPORT. A statement made per instruction: the word the encoder writes for it bears the fixed bits of its row of
spec/opcode_table.json. -/

namespace Sys2Proof.Laws.TableRow

open Sys2Proof

/-- The word of the transaction that carries an instruction, as a number. -/
def word (i : Instr) : Nat :=
  match encode i with
  | .ctrlWord _ w => w.toNat
  | .statusWord w => w.toNat
  | .portReq r => r.word.toNat

/-- The mask and the match of the instruction's row. -/
def pattern : Instr → Nat × Nat
  | .pubkey _ => (0x1D, 0x5)
  | .genk _ => (0x1D, 0x9)
  | .sign _ => (0x1D, 0xD)
  | .verify _ => (0x1D, 0x11)
  | .reservedCmd0 _ => (0x1D, 0x1)
  | .reservedCmd5 _ => (0x1D, 0x15)
  | .reservedCmd6 _ => (0x1D, 0x19)
  | .reservedCmd7 _ => (0x1D, 0x1D)
  | .cfg _ _ => (0x1, 0x0)
  | .abort _ => (0x2, 0x2)
  | .doneClr => (0x2, 0x2)
  | .cgBase _ => (0xF, 0x0)
  | .cgMul _ _ _ => (0xF, 0x1)
  | .cgAdd _ _ _ => (0xF, 0x2)
  | .cgFromAffine _ _ _ => (0xF, 0x3)
  | .cgIsId _ _ => (0xF, 0x4)
  | .cgToAffine _ _ => (0xF, 0x5)
  | .cgFnAdd _ _ _ => (0xF, 0x6)
  | .cgFnSub _ _ _ => (0xF, 0x7)
  | .cgFnMul _ _ _ => (0xF, 0x8)
  | .deHash _ => (0xF, 0x0)
  | .deStretch _ _ => (0xF, 0x1)
  | .entDraw _ => (0xF, 0x0)

/-- The fixed bits of the row stand in the encoded word (30_encoding.md R59, R65 to R67). -/
def Statement (i : Instr) : Prop := word i &&& (pattern i).1 = (pattern i).2

/-- Bits 4:0 of a CTRL word are its CMD, its ABORT and its START bit. -/
theorem ctrlWord_low (cmd : BitVec 3) (f : CtrlFields) (a b : Bool) :
    (ctrlWord cmd f a b).toNat &&& 0x1D = 4 * cmd.toNat + b.toNat ∧ (ctrlWord cmd f a b).toNat &&& 0x1 = b.toNat ∧
      (ctrlWord cmd f a b).toNat &&& 0x2 = 2 * a.toNat := by
  obtain ⟨c, m, k, o, ie⟩ := f
  revert cmd c m k o ie a b
  decide +kernel

/-- Bits 3:0 of a request are its OP. -/
theorem reqWord_low (c : BitVec 2) (op : BitVec 4) : (reqWord c op).toNat &&& 0xF = op.toNat := by
  revert c op
  decide

theorem pubkey (f : CtrlFields) : Statement (.pubkey f) := (ctrlWord_low _ f _ _).1
theorem genk (f : CtrlFields) : Statement (.genk f) := (ctrlWord_low _ f _ _).1
theorem sign (f : CtrlFields) : Statement (.sign f) := (ctrlWord_low _ f _ _).1
theorem verify (f : CtrlFields) : Statement (.verify f) := (ctrlWord_low _ f _ _).1
theorem reservedCmd0 (f : CtrlFields) : Statement (.reservedCmd0 f) := (ctrlWord_low _ f _ _).1
theorem reservedCmd5 (f : CtrlFields) : Statement (.reservedCmd5 f) := (ctrlWord_low _ f _ _).1
theorem reservedCmd6 (f : CtrlFields) : Statement (.reservedCmd6 f) := (ctrlWord_low _ f _ _).1
theorem reservedCmd7 (f : CtrlFields) : Statement (.reservedCmd7 f) := (ctrlWord_low _ f _ _).1
theorem cfg (cmd : BitVec 3) (f : CtrlFields) : Statement (.cfg cmd f) := (ctrlWord_low _ f _ _).2.1
theorem abort (ie : Bool) : Statement (.abort ie) := (ctrlWord_low _ (bareFields ie) _ _).2.2
theorem doneClr : Statement .doneClr := rfl
theorem cgBase (c : CurveId) : Statement (.cgBase c) := reqWord_low _ _
theorem cgMul (c : CurveId) (P : Pt) (k : Nat) : Statement (.cgMul c P k) := reqWord_low _ _
theorem cgAdd (c : CurveId) (P : Pt) (Q : Pt) : Statement (.cgAdd c P Q) := reqWord_low _ _
theorem cgFromAffine (c : CurveId) (x : Nat) (y : Nat) : Statement (.cgFromAffine c x y) := reqWord_low _ _
theorem cgIsId (c : CurveId) (P : Pt) : Statement (.cgIsId c P) := reqWord_low _ _
theorem cgToAffine (c : CurveId) (P : Pt) : Statement (.cgToAffine c P) := reqWord_low _ _
theorem cgFnAdd (c : CurveId) (a : Nat) (b : Nat) : Statement (.cgFnAdd c a b) := reqWord_low _ _
theorem cgFnSub (c : CurveId) (a : Nat) (b : Nat) : Statement (.cgFnSub c a b) := reqWord_low _ _
theorem cgFnMul (c : CurveId) (a : Nat) (b : Nat) : Statement (.cgFnMul c a b) := reqWord_low _ _
theorem deHash (m : Bytes) : Statement (.deHash m) := reqWord_low _ _
theorem deStretch (key : Bytes) (b : Bytes) : Statement (.deStretch key b) := reqWord_low _ _
theorem entDraw (m : Nat) : Statement (.entDraw m) := reqWord_low _ _

end Sys2Proof.Laws.TableRow
end

