-- ==== Sys2Proof/Laws/Runs.lean ====
section
/-! SUPPORT. Runs of the controller alone, with nothing scheduled: one equation per kind of step, and how runs join. -/

namespace Sys2Proof.Machine

open Sys2Proof

/-- The epoch moves on. -/
def tick (s : State) : State := { s with epoch := s.epoch + 1 }

@[simp] theorem tick_ctrl (s : State) : (tick s).ctrl = s.ctrl := rfl
@[simp] theorem tick_done (s : State) : (tick s).done = s.done := rfl
@[simp] theorem tick_valid (s : State) : (tick s).valid = s.valid := rfl
@[simp] theorem tick_err (s : State) : (tick s).err = s.err := rfl
@[simp] theorem tick_digestLen (s : State) : (tick s).digestLen = s.digestLen := rfl
@[simp] theorem tick_tLen (s : State) : (tick s).tLen = s.tLen := rfl
@[simp] theorem tick_oidLen (s : State) : (tick s).oidLen = s.oidLen := rfl
@[simp] theorem tick_sigLen (s : State) : (tick s).sigLen = s.sigLen := rfl
@[simp] theorem tick_pubLen (s : State) : (tick s).pubLen = s.pubLen := rfl
@[simp] theorem tick_nonceCap (s : State) : (tick s).nonceCap = s.nonceCap := rfl
@[simp] theorem tick_iterCount (s : State) : (tick s).iterCount = s.iterCount := rfl
@[simp] theorem tick_mem (s : State) : (tick s).mem = s.mem := rfl
@[simp] theorem tick_marks (s : State) : (tick s).marks = s.marks := rfl
@[simp] theorem tick_phase (s : State) : (tick s).phase = s.phase := rfl
@[simp] theorem tick_site (s : State) : (tick s).site = s.site := rfl
@[simp] theorem tick_theta (s : State) : (tick s).theta = s.theta := rfl
@[simp] theorem tick_cand (s : State) : (tick s).cand = s.cand := rfl
@[simp] theorem tick_scratch (s : State) : (tick s).scratch = s.scratch := rfl
@[simp] theorem tick_port (s : State) : (tick s).port = s.port := rfl
@[simp] theorem tick_events (s : State) : (tick s).events = s.events := rfl
@[simp] theorem tick_response (s : State) : (tick s).response = s.response := rfl
@[simp] theorem tick_draws (s : State) : (tick s).draws = s.draws := rfl
@[simp] theorem tick_epoch (s : State) : (tick s).epoch = s.epoch + 1 := rfl
@[simp] theorem tick_busy (s : State) : (tick s).busy = s.busy := rfl

@[simp] theorem readMarked_tick (s : State) (a : Nat) : readMarked (tick s) a = readMarked s a := rfl
@[simp] theorem readBytes_tick (s : State) (a n : Nat) : readBytes (tick s) a n = readBytes s a n :=
  readBytes_congr (s := s) (t := tick s) rfl rfl a n
@[simp] theorem readBuffer_tick (s : State) (b : Buffer) (n : Nat) : readBuffer (tick s) b n = readBuffer s b n :=
  readBytes_tick s _ n
@[simp] theorem readOid_tick (s : State) : readOid (tick s) = readOid s := by simp [readOid]
@[simp] theorem readDigest_tick (s : State) : readDigest (tick s) = readDigest s := by simp [readDigest]

theorem takeEvent_nil {s : State} (h : s.events = []) : takeEvent s = tick s := by
  unfold takeEvent tick; split <;> simp_all

/-- With no request outstanding the controller issues. -/
theorem step_issue {s : State} (he : s.events = []) (hb : s.busy = true) (hp : s.port = none) : step s = advance (tick s) := by
  have hf : fetch s = none := by
    unfold fetch; rw [he]; simp [hb, answerable, hp]
  rw [step, hf]
  simp only [runEvent, he, hb, hp, decide_true, Bool.and_self, if_true, takeEvent_nil he, controllerStep]
  have h1 : (tick s).busy = true := hb
  have h2 : (tick s).port = none := hp
  rw [h1, h2]; rfl

/-- An outstanding CurveGroup or DigestEngine request is answered. -/
theorem step_answer {s : State} {r : PortReq} {i : Instr} (he : s.events = []) (hb : s.busy = true) (hp : s.port = some r)
    (hr : r.port ≠ .entropy) (hd : decodePort r = .ok i) : step s = exec i (tick s) := by
  have hf : fetch s = some (.portReq r) := by
    unfold fetch; rw [he]; simp [hb, answerable, hp, hr]
  rw [step, hf]
  simp only [decode, hd, takeEvent_nil he]

/-- What an issue step computes, by the place in the command's rule. -/
theorem advance_eq {s : State} {c : CurveId} (h : curveOfCode s.ctrl.curve = some c) : advance s = issueAt c s :=
  withCurve_some h _

/-- Idle with nothing scheduled, the block keeps all its state (60_exceptions.md R153). -/
theorem step_idle {s : State} (he : s.events = []) (hb : s.busy = false) : step s = .next s := by
  have hf : fetch s = none := by
    unfold fetch; rw [he]; simp [hb]
  rw [step, hf]
  simp only [runEvent, he, hb, Bool.false_and, Bool.false_eq_true, if_false]

/-- One step of a run. -/
theorem run_step (M : Host.Core) (k : Nat) (s : M.State) : M.run (k + 1) s =
    match M.step s with
    | .next t => M.run k t
    | .fault r => .fault r
    | .refused r => .refused r := rfl

/-- Runs join. -/
theorem run_join (M : Host.Core) {s t : M.State} {m : Nat} (h : M.run m s = .next t) (n : Nat) : M.run (m + n) s = M.run n t := by
  induction m generalizing s with
  | zero => cases h; rw [Nat.zero_add]
  | succ m ih =>
    rw [run_step] at h
    rw [Nat.succ_add, run_step]
    cases hs : M.step s with
    | next u => rw [hs] at h; exact ih h
    | fault r => rw [hs] at h; cases h
    | refused r => rw [hs] at h; cases h

theorem run_succ {s t : State} (h : step s = .next t) (k : Nat) : Sys2Proof.core.run (k + 1) s = Sys2Proof.core.run k t :=
  have h : Sys2Proof.core.step s = .next t := h
  (run_step Sys2Proof.core k s).trans (by rw [h])

theorem run_idle {s : State} (he : s.events = []) (hb : s.busy = false) (k : Nat) : Sys2Proof.core.run k s = .next s := by
  induction k with
  | zero => rfl
  | succ k ih => exact (run_succ (step_idle he hb) k).trans ih

end Sys2Proof.Machine
end

