-- ==== Sys2Proof/Laws/Schedule.lean ====
section
/-! SUPPORT. A controller step and a response do not look at the schedule: with other events still to come they do the same, and leave
those events in place. -/

namespace Sys2Proof.Machine

open Sys2Proof

/-- The state with another schedule still to come. -/
def scheduled (es : List Event) (s : State) : State := { s with events := es }

/-- A result with another schedule still to come. -/
def rescheduled (es : List Event) : Result → Result
  | .next t => .next (scheduled es t)
  | .fault f => .fault f
  | .refused r => .refused r

@[simp] theorem rescheduled_next (es : List Event) (t : State) : rescheduled es (.next t) = .next (scheduled es t) := rfl

@[simp] theorem rescheduled_fault (es : List Event) (f : Fault) : rescheduled es (.fault f) = .fault f := rfl

/-! ### Operands and stores -/

@[simp] theorem readBuffer_scheduled (es : List Event) (s : State) (b : Buffer) (n : Nat) :
    readBuffer (scheduled es s) b n = readBuffer s b n := readBuffer_congr (s := s) (t := scheduled es s) rfl rfl b n

@[simp] theorem readBytes_scheduled (es : List Event) (s : State) (a n : Nat) : readBytes (scheduled es s) a n = readBytes s a n :=
  readBytes_congr (s := s) (t := scheduled es s) rfl rfl a n

@[simp] theorem readPrv_scheduled (c : CurveId) (es : List Event) (s : State) : readPrv c (scheduled es s) = readPrv c s :=
  readBuffer_scheduled es s _ _

@[simp] theorem readK_scheduled (c : CurveId) (es : List Event) (s : State) : readK c (scheduled es s) = readK c s :=
  readBuffer_scheduled es s _ _

@[simp] theorem readDigest_scheduled (es : List Event) (s : State) : readDigest (scheduled es s) = readDigest s :=
  readBuffer_scheduled es s _ _

@[simp] theorem readOid_scheduled (es : List Event) (s : State) : readOid (scheduled es s) = readOid s := by
  unfold readOid; rw [readBuffer_scheduled]; rfl

@[simp] theorem readContext_scheduled (es : List Event) (s : State) : readContext (scheduled es s) = readContext s := by
  unfold readContext; rw [readBuffer_scheduled]; rfl

@[simp] theorem readNonceDigest_scheduled (c : CurveId) (es : List Event) (s : State) :
    readNonceDigest c (scheduled es s) = readNonceDigest c s := by
  unfold readNonceDigest; rw [readBuffer_scheduled, readDigest_scheduled]; rfl

theorem writeBytes_scheduled (bs : Bytes) (a : Nat) (es : List Event) (s : State) :
    writeBytes a bs (scheduled es s) = scheduled es (writeBytes a bs s) := by
  induction bs generalizing a s with
  | nil => rfl
  | cons b t ih => exact ih (a + 1) (writeByte a b s)

/-- An operand read and what follows it. -/
theorem withOperand_scheduled {es : List Event} {o : Option Bytes} {k k' : Bytes → Result} (h : ∀ b, k' b = rescheduled es (k b)) :
    withOperand o k' = rescheduled es (withOperand o k) := by
  cases o with
  | none => rfl
  | some b => exact h b

/-! ### Issue -/

theorem issuePubkey_scheduled (c : CurveId) (site : Site) (es : List Event) (s : State) :
    issuePubkey c site (scheduled es s) = rescheduled es (issuePubkey c site s) := by cases site <;> rfl

theorem issueNonce_scheduled (c : CurveId) (site : Site) (es : List Event) (s : State) :
    issueNonce c site (scheduled es s) = rescheduled es (issueNonce c site s) := by
  cases site <;> first
    | rfl
    | (unfold issueNonce
       simp only [readOid_scheduled, readPrv_scheduled, readContext_scheduled]
       exact withOperand_scheduled fun _ => withOperand_scheduled fun _ => withOperand_scheduled fun _ => rfl)

theorem issueSign_scheduled (c : CurveId) (site : Site) (es : List Event) (s : State) :
    issueSign c site (scheduled es s) = rescheduled es (issueSign c site s) := by
  cases site <;> first
    | rfl
    | (unfold issueSign
       simp only [readOid_scheduled, readPrv_scheduled, readDigest_scheduled]
       first
         | exact withOperand_scheduled fun _ => rfl
         | exact withOperand_scheduled fun _ => withOperand_scheduled fun _ => rfl)

theorem issueVerify_scheduled (c : CurveId) (site : Site) (es : List Event) (s : State) :
    issueVerify c site (scheduled es s) = rescheduled es (issueVerify c site s) := by
  cases site <;> first
    | rfl
    | (unfold issueVerify
       simp only [readOid_scheduled, readDigest_scheduled]
       first
         | exact withOperand_scheduled fun _ => rfl
         | exact withOperand_scheduled fun _ => withOperand_scheduled fun _ => rfl)

theorem enterSign_scheduled (c : CurveId) (es : List Event) (s : State) :
    enterSign c (scheduled es s) = rescheduled es (enterSign c s) := by
  unfold enterSign
  rw [readK_scheduled, show (scheduled es s).ctrl = s.ctrl from rfl]
  split
  · exact withOperand_scheduled fun kb => issueSign_scheduled c .sgBase es (chooseKey kb s)
  · split
    · exact issueNonce_scheduled c .sgDraw es s
    · exact issueNonce_scheduled c .nonceHash es s

theorem enterVerifyKey_scheduled (c : CurveId) (es : List Event) (s : State) :
    enterVerifyKey c (scheduled es s) = rescheduled es (enterVerifyKey c s) := by
  unfold enterVerifyKey
  simp only [readBytes_scheduled, show (scheduled es s).pubLen = s.pubLen from rfl]
  split
  · rfl
  · refine withOperand_scheduled fun tag => ?_
    split
    · rfl
    · exact withOperand_scheduled fun xy => issueVerify_scheduled c .vfFromAffine es (setScratch _ s)

theorem enterVerify_scheduled (c : CurveId) (es : List Event) (s : State) :
    enterVerify c (scheduled es s) = rescheduled es (enterVerify c s) := by
  unfold enterVerify
  simp only [readBuffer_scheduled, show (scheduled es s).sigLen = s.sigLen from rfl]
  split
  · rfl
  · refine withOperand_scheduled fun sig => ?_
    split
    · rfl
    · exact enterVerifyKey_scheduled c es (setScratch _ s)

theorem enterCommand_scheduled (c : CurveId) (es : List Event) (s : State) :
    enterCommand c (scheduled es s) = rescheduled es (enterCommand c s) := by
  unfold enterCommand
  rw [show (scheduled es s).ctrl = s.ctrl from rfl]
  split
  · unfold enterPubkey
    rw [readPrv_scheduled]
    exact withOperand_scheduled fun prv => issuePubkey_scheduled c .pkBase es (setScratch _ s)
  · exact issueNonce_scheduled c .nonceHash es s
  · exact enterSign_scheduled c es s
  · exact enterVerify_scheduled c es s
  · rfl

/-- An issue step does the same whatever the schedule holds after it (45_control.md R135 (a)). -/
theorem advance_scheduled (es : List Event) (s : State) : advance (scheduled es s) = rescheduled es (advance s) := by
  unfold advance withCurve
  rw [show (scheduled es s).ctrl = s.ctrl from rfl]
  split
  · rename_i c _
    unfold issueAt
    rw [show (scheduled es s).site = s.site from rfl]
    split <;> first
      | exact enterCommand_scheduled c es s
      | exact issuePubkey_scheduled c _ es s
      | exact issueNonce_scheduled c _ es s
      | exact issueSign_scheduled c _ es s
      | exact issueVerify_scheduled c _ es s
  · rfl

/-! ### Responses -/

/-- A response finds its request, or is discarded, under any schedule. -/
theorem receive_scheduled {es : List Event} {r : PortReq} {s : State} {k : State → Result}
    (h : k (scheduled es s) = rescheduled es (k s)) : receive r (scheduled es s) k = rescheduled es (receive r s k) := by
  unfold receive
  rw [show (scheduled es s).port = s.port from rfl]
  split
  · exact h
  · rfl

theorem afterMul_scheduled (P : Option Pt) (es : List Event) (s : State) :
    afterMul P (scheduled es s) = rescheduled es (afterMul P s) := by
  unfold afterMul
  rw [show (scheduled es s).site = s.site from rfl]
  cases P with
  | none => split <;> rfl
  | some P =>
    split <;> first
      | rfl
      | (simp only [orRaise, afterMulQ, show (scheduled es s).scratch = s.scratch from rfl]
         split <;> rfl)

theorem afterIsId_scheduled (z : Bool) (es : List Event) (s : State) :
    afterIsId z (scheduled es s) = rescheduled es (afterIsId z s) := by
  unfold afterIsId
  rw [show (scheduled es s).site = s.site from rfl]
  cases z <;> split <;> rfl

/-- A completion that stores its output in a buffer. -/
theorem writeBuffer_scheduled (b : Buffer) (bs : Bytes) (es : List Event) (s : State) :
    writeBuffer b bs (scheduled es s) = scheduled es (writeBuffer b bs s) := writeBytes_scheduled bs _ es s

theorem afterToAffine_scheduled (c : CurveId) (x y : Nat) (es : List Event) (s : State) :
    afterToAffine c x y (scheduled es s) = rescheduled es (afterToAffine c x y s) := by
  unfold afterToAffine completePubkey
  rw [show (scheduled es s).site = s.site from rfl, writeBuffer_scheduled]
  split <;> rfl

theorem afterFnSub_scheduled (c : CurveId) (a : Nat) (es : List Event) (s : State) :
    afterFnSub c a (scheduled es s) = rescheduled es (afterFnSub c a s) := by
  unfold afterFnSub completeSign
  rw [show (scheduled es s).site = s.site from rfl, writeBuffer_scheduled]
  split <;> rfl

theorem afterHash_scheduled (h : Bytes) (es : List Event) (s : State) :
    afterHash h (scheduled es s) = rescheduled es (afterHash h s) := by
  unfold afterHash withCurve
  rw [show (scheduled es s).ctrl = s.ctrl from rfl]
  split
  · rename_i c _
    simp only [readNonceDigest_scheduled, show (scheduled es s).site = s.site from rfl]
    split <;> first
      | rfl
      | exact withOperand_scheduled fun _ => rfl
  · rfl

theorem nonceTest_scheduled (c : CurveId) (cand : Bytes) (es : List Event) (s : State) :
    nonceTest c cand (scheduled es s) = scheduled es (nonceTest c cand s) := by
  unfold nonceTest nonceReturn completeGenk
  rw [writeBuffer_scheduled]
  show (if _ then if s.ctrl.cmd = 2 then _ else _ else if capReached s.nonceCap s.iterCount then _ else _) = _
  split
  · split <;> rfl
  · split <;> rfl

theorem afterStretch_scheduled (cand : Bytes) (es : List Event) (s : State) :
    afterStretch cand (scheduled es s) = rescheduled es (afterStretch cand s) := by
  unfold afterStretch withCurve
  rw [show (scheduled es s).ctrl = s.ctrl from rfl]
  split
  · rename_i c _
    rw [show (scheduled es s).site = s.site from rfl]
    split
    · exact congrArg Host.Outcome.next (nonceTest_scheduled c cand es (setIterCount (iterNext s.iterCount) (setNonce s.theta cand s)))
    · rfl
  · rfl

/-- The meaning of a port request does the same whatever the schedule holds after it (45_control.md R135 (b)). -/
theorem exec_port_scheduled {i : Instr} (hi : isPortInstr i = true) (es : List Event) (s : State) :
    exec i (scheduled es s) = rescheduled es (exec i s) := by
  cases i with
  | cgBase c => exact receive_scheduled (by unfold afterBase; rw [show (scheduled es s).site = s.site from rfl]; split <;> rfl)
  | cgMul c P k => exact receive_scheduled (afterMul_scheduled _ es s)
  | cgAdd c P Q => exact receive_scheduled (by unfold afterAdd; rw [show (scheduled es s).site = s.site from rfl]; split <;> rfl)
  | cgFromAffine c x y =>
    refine receive_scheduled ?_
    unfold afterFromAffine
    rw [show (scheduled es s).site = s.site from rfl]
    unfold orRaise
    split <;> first | rfl | (split <;> rfl)
  | cgIsId c P => exact receive_scheduled (afterIsId_scheduled _ es s)
  | cgToAffine c P =>
    simp only [exec, execCgToAffine]
    refine receive_scheduled ?_
    cases P with
    | infinity => rfl
    | finite k => exact afterToAffine_scheduled c _ _ es s
  | cgFnAdd c a b => exact receive_scheduled (by unfold afterFnAdd; rw [show (scheduled es s).site = s.site from rfl]; split <;> rfl)
  | cgFnSub c a b => exact receive_scheduled (afterFnSub_scheduled c _ es s)
  | cgFnMul c a b => exact receive_scheduled (by unfold afterFnMul; rw [show (scheduled es s).site = s.site from rfl]; split <;> rfl)
  | deHash m => exact receive_scheduled (afterHash_scheduled _ es s)
  | deStretch key b => exact receive_scheduled (afterStretch_scheduled _ es s)
  | entDraw m =>
    refine receive_scheduled ?_
    unfold afterDraw
    rw [show (scheduled es s).site = s.site from rfl]
    split <;> rfl
  | pubkey => cases hi
  | genk => cases hi
  | sign => cases hi
  | verify => cases hi
  | reservedCmd0 => cases hi
  | reservedCmd5 => cases hi
  | reservedCmd6 => cases hi
  | reservedCmd7 => cases hi
  | cfg => cases hi
  | abort => cases hi
  | doneClr => cases hi

end Sys2Proof.Machine
end

