-- ==== Sys2Proof/Tests/Slice0.lean ====
section
/-! SUPPORT. Tests: well-formedness, decoding of words written out from spec/30_encoding.md, the vectors of
spec/95_test_vectors.md as single steps, and for each statement with hypotheses a state that meets them. Expected results are
those of the vector or rule named in the comment. -/

namespace Sys2Proof.Tests

open Sys2Proof Sys2Proof.Machine

/-! ### Helpers -/

/-- The state a step answers. -/
def after (r : Result) : Option State :=
  match r with
  | .next s => some s
  | _ => none

/-- A 4-byte write of a word as the next event. -/
def writing (off : BitVec 12) (v : Word) (s : State) : State := { s with events := [.write .four off v] }

/-- STATUS after one step. -/
def statusAfter (s : State) : Option Word := (after (step s)).map statusWord

/-- The bus response after one step. -/
def responseAfter (s : State) : Option BusResponse := (after (step s)).map (·.response)

/-- Zero bytes. -/
def zeros (n : Nat) : Bytes := List.replicate n 0

/-- A running command of curve 0 at a place of its rule, with an outstanding request. -/
def running (cmd : BitVec 3) (site : Site) (r : Option PortReq) : State :=
  { State.reset with ctrl := ⟨cmd, 0, false, false, false, false⟩, phase := .run, site := site, port := r }

/-- The same, at its beginning. -/
def begun (cmd : BitVec 3) : State := running cmd .entry none

/-- Fields of a CTRL word with everything clear. -/
def plain : CtrlFields := ⟨0, false, false, false, false⟩

/-! ### Well-formedness: each check refuses an ill-formed term -/

/-- 30_encoding.md R65: CG_TO_AFFINE takes P ≠ O. -/
theorem test_wf_toAffine : Instr.wellFormed (.cgToAffine .bign128 .infinity) = false ∧
    Instr.wellFormed (.cgToAffine .bign128 (.finite 3)) = true := by decide

/-- 40_primitives.md R94: the candidate has L bytes. -/
theorem test_wf_stretch_candidate : Instr.wellFormed (.deStretch [] (zeros 31)) = false := by decide

/-- 40_primitives.md R94: the key has HLEN bytes. HLEN is at least 32 (00_scope.md R7), so the empty key has not. -/
theorem test_wf_stretch_key : Instr.wellFormed (.deStretch [] (zeros 32)) = false ∧
    Instr.wellFormed (.deStretch (Config.hash []) (zeros 32)) = true := by
  constructor
  · have h : ([] : Bytes).length ≠ Config.hlen := by rw [Config.hlen, List.length_nil]; omega
    show (isElementLength (zeros 32).length && decide (([] : Bytes).length = Config.hlen)) = false
    rw [decide_eq_false h, Bool.and_false]
  · show (isElementLength (zeros 32).length && decide ((Config.hash []).length = Config.hlen)) = true
    rw [decide_eq_true (hash_length []), Bool.and_true]; decide

/-- 40_primitives.md R95: a draw has L bytes. -/
theorem test_wf_draw : Instr.wellFormed (.entDraw 33) = false ∧ Instr.wellFormed (.entDraw 48) = true := by decide

/-! ### Decoding: words written out from the formats of 30_encoding.md R58 and the vectors V50 to V58 -/

theorem test_decode_pubkey : decode (.ctrlWord false 0b00000000000000000000000000000101) = .ok (.pubkey plain) := by decide
theorem test_decode_genk : decode (.ctrlWord false 0b00000000000000000000000000101001) =
    .ok (.genk ⟨1, false, false, false, false⟩) := by decide
theorem test_decode_sign : decode (.ctrlWord false 0b00000000000000000000010011001101) =
    .ok (.sign ⟨2, true, false, false, true⟩) := by decide
theorem test_decode_verify : decode (.ctrlWord false 0b00000000000000000000001000010001) =
    .ok (.verify ⟨0, false, false, true, false⟩) := by decide
theorem test_decode_reserved0 : decode (.ctrlWord false 0x00000001) = .ok (.reservedCmd0 plain) := by decide
theorem test_decode_reserved5 : decode (.ctrlWord false 0x00000015) = .ok (.reservedCmd5 plain) := by decide
theorem test_decode_reserved6 : decode (.ctrlWord false 0x00000019) = .ok (.reservedCmd6 plain) := by decide
theorem test_decode_reserved7 : decode (.ctrlWord false 0x0000001D) = .ok (.reservedCmd7 plain) := by decide
theorem test_decode_cfg : decode (.ctrlWord false 0x0000008C) = .ok (.cfg 3 ⟨0, true, false, false, false⟩) := by decide
theorem test_decode_abort : decode (.ctrlWord true 0x00000402) = .ok (.abort true) ∧
    decode (.ctrlWord true 0x00000401) = .error .busyWithoutAbort := by decide
theorem test_decode_doneClr : decode (.statusWord 0x00000002) = .ok .doneClr ∧
    decode (.statusWord 0xFFFFFFFD) = .error .statusWithoutClear := by decide
theorem test_decode_cgBase : decode (.portReq ⟨.curveGroup, 0b010000, []⟩) = .ok (.cgBase .bign192) := by decide
theorem test_decode_cgMul : decode (.portReq ⟨.curveGroup, 0b100001, [.point (.finite 7), .nat 5]⟩) =
    .ok (.cgMul .bign256 (.finite 7) 5) := by decide
theorem test_decode_cgAdd : decode (.portReq ⟨.curveGroup, 0b000010, [.point .infinity, .point (.finite 1)]⟩) =
    .ok (.cgAdd .bign128 .infinity (.finite 1)) := by decide
theorem test_decode_cgFromAffine : decode (.portReq ⟨.curveGroup, 0b000011, [.nat 1, .nat 2]⟩) =
    .ok (.cgFromAffine .bign128 1 2) := by decide
theorem test_decode_cgIsId : decode (.portReq ⟨.curveGroup, 0b000100, [.point (.finite 1)]⟩) =
    .ok (.cgIsId .bign128 (.finite 1)) := by decide
theorem test_decode_cgToAffine : decode (.portReq ⟨.curveGroup, 0b000101, [.point (.finite 1)]⟩) =
    .ok (.cgToAffine .bign128 (.finite 1)) := by decide
theorem test_decode_cgFnAdd : decode (.portReq ⟨.curveGroup, 0b000110, [.nat 3, .nat 5]⟩) =
    .ok (.cgFnAdd .bign128 3 5) := by decide
theorem test_decode_cgFnSub : decode (.portReq ⟨.curveGroup, 0b000111, [.nat 3, .nat 5]⟩) =
    .ok (.cgFnSub .bign128 3 5) := by decide
theorem test_decode_cgFnMul : decode (.portReq ⟨.curveGroup, 0b001000, [.nat 3, .nat 5]⟩) =
    .ok (.cgFnMul .bign128 3 5) := by decide
theorem test_decode_deHash : decode (.portReq ⟨.digestEngine, 0b000000, [.bytes []]⟩) = .ok (.deHash []) := by decide
theorem test_decode_deStretch : decode (.portReq ⟨.digestEngine, 0b000001, [.bytes [1], .bytes [2]]⟩) =
    .ok (.deStretch [1] [2]) := by decide
theorem test_decode_entDraw : decode (.portReq ⟨.entropy, 0b000000, [.nat 64]⟩) = .ok (.entDraw 64) := by decide
/-- R60, R65, R66: curve code 3, a reserved OP, curve bits on the entropy port, operands of another type. -/
theorem test_decode_reserved_requests :
    decode (.portReq ⟨.curveGroup, 0b110000, []⟩) = .error .reservedCurve ∧
    decode (.portReq ⟨.curveGroup, 0b001001, []⟩) = .error .reservedOp ∧
    decode (.portReq ⟨.entropy, 0b010000, [.nat 32]⟩) = .error .reservedCurve ∧
    decode (.portReq ⟨.digestEngine, 0b000000, [.nat 32]⟩) = .error .operandTypes := by decide
/-- Numbers of the opcode table (log entry 12). -/
theorem test_table_words : decodeTableWord 32 0x5 = some (.pubkey plain) ∧ decodeTableWord 32 0x2 = some (.abort false) ∧
    decodeTableWord 32 0x0 = some (.cfg 0 plain) ∧ decodeTableWord 8 0x16 = some (.cgFnAdd .bign192 0 0) ∧
    decodeTableWord 8 0x9 = none := by decide

/-! ### Vectors of 95_test_vectors.md as single steps -/

/-- V10, V11. -/
theorem test_codecs : leNat [1, 2] = 0x0201 ∧ beNat [1, 2] = 0x0102 ∧ leNat [] = 0 ∧ leBytes 4 1 = [1, 0, 0, 0] ∧
    beBytes 4 1 = [0, 0, 0, 1] := by decide

/-- V12, with n = 11. -/
theorem test_negative_residue : intMod (3 - 5) 11 = 9 := by decide

/-- V13, V17, V18: keys and signatures are little-endian. -/
theorem test_framing : encPub .bign128 0 5 = 4 :: zeros 32 ++ 5 :: zeros 31 ∧
    encSig .bign128 (List.replicate 16 0xAA) 1 = List.replicate 16 0xAA ++ 1 :: zeros 31 ∧
    decSig .bign128 (zeros 16 ++ zeros 31 ++ [1]) = (zeros 16, 2 ^ 248) := by decide

/-- V19, V19a to V19c. -/
theorem test_hash_inputs : truncS0 .bign128 ((List.range 32).map (BitVec.ofNat 8)) = (List.range 16).map (BitVec.ofNat 8) ∧
    hinS .bign128 [6] 0 [7] = 6 :: zeros 32 ++ [7] ∧ hinTheta [6] [1, 2] [] = [6, 1, 2] ∧
    [wOf .bign128, wOf .bign192, wOf .bign256] = [2 ^ 128, 2 ^ 192, 2 ^ 256] := by decide

/-- V59: a CTRL word's reserved bits are ignored, START and ABORT read 0. -/
theorem test_ctrl_reads_back : (after (step (writing 0x004 0xFFFFF804 State.reset))).map (readRegister · 0x004) = some 4 := by decide

/-- V60 to V62: ILLEGAL_CMD, before BAD_LENGTH. -/
theorem test_start_illegal : statusAfter (writing 0x004 0x00000001 State.reset) = some 0x12 ∧
    statusAfter (writing 0x004 0x00000065 State.reset) = some 0x12 ∧
    statusAfter (writing 0x004 0x0000001D { State.reset with digestLen := 200 }) = some 0x12 := by decide

/-- V63 to V65: the lengths of GENK. -/
theorem test_start_genk : statusAfter (writing 0x004 0x09 { State.reset with digestLen := 31 }) = some 0x22 ∧
    statusAfter (writing 0x004 0x09 { State.reset with digestLen := 32, tLen := 65 }) = some 0x22 ∧
    statusAfter (writing 0x004 0x209 { State.reset with digestLen := 32, oidLen := 33 }) = some 0x22 := by decide

/-- V66, V67: the lengths of SIGN; an accepted START clears ITER_COUNT. -/
theorem test_start_sign : statusAfter (writing 0x004 0x0D { State.reset with digestLen := 20 }) = some 0x22 ∧
    statusAfter (writing 0x004 0x10D { State.reset with digestLen := 20 }) = some 0x01 ∧
    (after (step (writing 0x004 0x10D { State.reset with digestLen := 20, iterCount := 5 }))).map (·.iterCount) = some 0 := by decide

/-- V68, V69: the lengths of VERIFY. -/
theorem test_start_verify : statusAfter (writing 0x004 0x11 { State.reset with digestLen := 65 }) = some 0x22 ∧
    statusAfter (writing 0x004 0x11 State.reset) = some 0x01 := by decide

/-- V70, V71: PUBKEY checks no length; an accepted START clears DONE and ERR. -/
theorem test_start_pubkey : statusAfter (writing 0x004 0x05 { State.reset with digestLen := 255 }) = some 0x01 ∧
    statusAfter (writing 0x004 0x05 { State.reset with done := true, err := .invalidScalar }) = some 0x01 := by decide

/-- V72, V73: a CTRL write while busy stores IE alone. -/
theorem test_busy_ctrl : (after (step (writing 0x004 0x401 (begun 1)))).map (·.ctrl) = some ⟨1, 0, false, false, false, true⟩ ∧
    (after (step (writing 0x004 0x009 (begun 1)))).map (·.ctrl) = some ⟨1, 0, false, false, false, false⟩ := by decide

/-- V74, V79: ABORT; its word's IE is stored before the end of the command. -/
theorem test_abort : statusAfter (writing 0x004 0x2 (begun 2)) = some 0x72 ∧
    (after (step (writing 0x004 0x2 { begun 2 with ctrl := ⟨2, 0, false, false, false, true⟩ }))).map State.irq = some false := by
  decide

/-- V75: ABORT while idle stores the word's fields. -/
theorem test_abort_idle : (after (step (writing 0x004 0x2 { State.reset with ctrl := ⟨3, 1, true, true, true, true⟩ }))).map
    (fun t => (t.ctrl, statusWord t)) = some (Ctrl.reset, 0) := by decide

/-- V76: DONE clear keeps ERR. -/
theorem test_done_clear : statusAfter (writing 0x008 0x2 { State.reset with done := true, err := .nonceExhausted }) = some 0x60 := by
  decide

/-- V78: a rejected START asserts IRQ with IE = 1. -/
theorem test_reject_interrupts : (after (step (writing 0x004 0x401 State.reset))).map State.irq = some true := by decide

/-- PRV[i] = i + 1 for four bytes, PUB[128] = 0xAB. -/
def sample : State := writeBuffer .prv [1, 2, 3, 4] (writeByte 0x380 0xAB State.reset)

/-- One bus read. -/
def reading (w : Width) (off : BitVec 12) (s : State) : State := { s with events := [.read w off] }

/-- V80, V85: lanes are little-endian; pad bytes read 0. -/
theorem test_bus_lanes : responseAfter (reading .four 0x100 sample) = some (.data 0x04030201) ∧
    responseAfter (reading .two 0x102 sample) = some (.data 0x0403) ∧
    responseAfter (reading .four 0x380 sample) = some (.data 0x000000AB) := by decide

/-- V81, V86: a write stores its lanes; pad bytes ignore it. -/
theorem test_bus_write : (after (step (writing 0x100 0x11223344 sample))).bind
      (fun t => responseAfter (reading .one 0x101 t)) = some (.data 0x33) ∧
    (after (step (writing 0x380 0xFFFFFFFF sample))).bind
      (fun t => responseAfter (reading .four 0x380 t)) = some (.data 0xFF) := by decide

/-- V82 to V84. -/
theorem test_bus_errors : responseAfter (reading .two 0x101 sample) = some .busError ∧
    responseAfter (reading .one 0x004 sample) = some .busError ∧
    responseAfter (reading .four 0x028 sample) = some .busError ∧
    responseAfter (reading .one 0x220 sample) = some .busError ∧
    responseAfter { sample with events := [.write .one 0x384 0] } = some .busError := by decide

/-- V87, V88, V8C: ID and ITER_COUNT ignore writes; a length register keeps bits 7:0. -/
theorem test_register_writes : responseAfter (writing 0x000 0 sample) = some .written ∧
    (after (step (writing 0x00C 0x1FF sample))).map (readRegister · 0x00C) = some 0xFF ∧
    (after (step (writing 0x024 7 sample))).map (·.iterCount) = some 0 := by decide

/-- V89, V8A: the busy lock refuses writes, not reads. -/
theorem test_busy_lock : responseAfter { begun 1 with events := [.write .one 0x140 0] } = some .busError ∧
    responseAfter (writing 0x020 1 (begun 1)) = some .busError ∧
    responseAfter (reading .four 0x024 { begun 2 with iterCount := 9 }) = some (.data 9) := by decide

/-- V91: reset while a GENK loops. -/
theorem test_reset_in_loop : (after (step { running 2 .nonceStretch none with
    phase := .loop, mem := [(0x180, 7)], marks := [0x180], events := [.reset] })).map (fun t => (statusWord t, t.mem, readMarked t 0x180)) = some (0, [(0x180, 7)], none) := by decide

/-- V40, V47: the length guard of VERIFY, before the key. -/
theorem test_verify_guard : statusAfter { begun 4 with sigLen := 47 } = some 0x02 := by decide

/-- V102: the identity. -/
theorem test_pubkey_identity : statusAfter (running 1 .pkIsId (some (curveGroupReq .bign128 4 [.point .infinity]))) = some 0x52 := by
  decide

/-- V19e. -/
theorem test_identity_laws (c : CurveId) : (Config.curve c).group.add .infinity (Config.curve c).group.base =
    (Config.curve c).group.base := (Config.curve c).group.infinity_add _

/-- V22, V23, V25: the bounds of the acceptance test. -/
theorem test_nonce_bounds (c : CurveId) : nonceAccepted c (zeros c.len) = false ∧
    nonceAccepted c (beBytes c.len (Config.order c)) = false ∧
    nonceAccepted c (beBytes c.len (Config.order c - 1)) = true := by
  have h1 := order_lt c
  have h2 := order_large c
  have h3 : 1 ≤ 2 ^ (8 * c.half + 1) := Nat.one_le_two_pow
  refine ⟨by cases c <;> rfl, ?_, ?_⟩
  · simp [nonceAccepted, beNat_beBytes h1]
  · simp only [nonceAccepted, beNat_beBytes (show Config.order c - 1 < 256 ^ c.len by omega), Bool.and_eq_true, decide_eq_true_eq]
    omega

/-! ### Witnesses: for each statement with hypotheses, states and operands that meet them, clause by clause -/

theorem test_witness_PortRequestsHaveOneMeaning :
    decodePort ⟨.curveGroup, 0b101000, [.nat 0, .nat 1]⟩ = .ok (.cgFnMul .bign256 0 1) := by decide

theorem test_witness_StepRunsDecodedInstruction :
    (fetch (writing 0x004 0x5 State.reset) = some (.ctrlWord false 5) ∧ decode (.ctrlWord false 5) = .ok (.pubkey plain)) ∧
    (fetch (writing 0x008 0x2 (begun 1)) = some (.statusWord 2) ∧ decode (.statusWord 2) = .ok .doneClr) ∧
    (fetch (running 1 .pkBase (some (curveGroupReq .bign128 0 []))) = some (.portReq (curveGroupReq .bign128 0 [])) ∧
      decode (.portReq (curveGroupReq .bign128 0 [])) = .ok (.cgBase .bign128)) := by decide

theorem test_witness_FetchIsTheNextTransaction :
    (writing 0x004 0x5 State.reset).events = [.write .four 0x004 5] ∧ (writing 0x008 0x2 (begun 1)).events = [.write .four 0x008 2] ∧
    ((begun 1).busy = true ∧ (running 3 .sgDraw (some (entropyReq 0 [.nat 32]))).port = some (entropyReq 0 [.nat 32]) ∧
      (begun 1).events = []) ∧
    ({ running 1 .pkBase (some (curveGroupReq .bign128 0 [])) with events := [.controller] }.events = [.controller] ∧
      { running 3 .sgDraw (some (entropyReq 0 [.nat 32])) with events := [.entropy] }.events = [.entropy]) := by decide

/-- A busy state with no request outstanding, and one with a request of the DigestEngine, between host reads. -/
theorem test_witness_FetchIsTheNextTransaction_controller :
    ({ begun 2 with events := [.controller, .read .four 0x008] }.busy = true ∧
      { begun 2 with events := [.controller, .read .four 0x008] }.port = none ∧
      { begun 2 with events := [.controller, .read .four 0x008] }.events = [.controller, .read .four 0x008]) ∧
    (running 2 .nonceHash (some (digestReq 0 [.bytes []]))).port = some (digestReq 0 [.bytes []]) ∧
    (digestReq 0 [.bytes []]).port ≠ .entropy := by decide

theorem test_witness_PubkeyStartAccepted : State.reset.busy = false ∧ curveOfCode plain.curve = some .bign128 ∧
    curveOfCode 2 = some .bign256 := by decide

/-- At the bounds of R108: accepted at T_LEN = 64 and OID_LEN = 32, rejected one above. -/
theorem test_witness_GenkStartChecksLengths :
    { State.reset with digestLen := 32, tLen := 64, oidLen := 32 }.busy = false ∧ curveOfCode plain.curve = some .bign128 ∧
    statusAfter (writing 0x004 0x209 { State.reset with digestLen := 32, tLen := 64, oidLen := 32 }) = some 0x01 ∧
    statusAfter (writing 0x004 0x209 { State.reset with digestLen := 33, tLen := 64, oidLen := 32 }) = some 0x22 ∧
    statusAfter (writing 0x004 0x009 { State.reset with digestLen := 32, tLen := 64, oidLen := 33 }) = some 0x01 := by decide

/-- At the bounds of R117. -/
theorem test_witness_SignStartChecksLengths :
    { State.reset with digestLen := 64 }.busy = false ∧ curveOfCode plain.curve = some .bign128 ∧
    statusAfter (writing 0x004 0x10D { State.reset with digestLen := 64 }) = some 0x01 ∧
    statusAfter (writing 0x004 0x10D { State.reset with digestLen := 65 }) = some 0x22 ∧
    statusAfter (writing 0x004 0x00D { State.reset with digestLen := 32 }) = some 0x01 := by decide

/-- At the bounds of R127. -/
theorem test_witness_VerifyStartChecksLengths :
    { State.reset with digestLen := 64 }.busy = false ∧ curveOfCode plain.curve = some .bign128 ∧
    statusAfter (writing 0x004 0x211 { State.reset with digestLen := 64, oidLen := 32 }) = some 0x01 ∧
    statusAfter (writing 0x004 0x211 { State.reset with digestLen := 64, oidLen := 33 }) = some 0x22 := by decide

theorem test_witness_IllegalStartRejected : State.reset.busy = false ∧ ({ plain with curve := 3 } : CtrlFields).curve = 3 := by decide

theorem test_witness_CfgStoresFields : State.reset.busy = false := by decide

/-- With ABORT set and with START alone set. -/
theorem test_witness_BusyCtrlWriteStoresIeAndAborts :
    ((writing 0x004 0x402 (begun 1)).busy = true ∧ (writing 0x004 0x402 (begun 1)).events = [.write .four 0x004 0x402] ∧
      (0x402 : Word).getLsbD 1 = true) ∧
    ((writing 0x004 0x01D (begun 1)).busy = true ∧ (writing 0x004 0x01D (begun 1)).events = [.write .four 0x004 0x01D] ∧
      (0x01D : Word).getLsbD 1 = false) := by decide

theorem test_witness_AbortEndsRunningCommand : (begun 2).busy = true := by decide

theorem test_witness_DoneClearKeepsTheRest : (writing 0x008 0x2 (begun 1)).events = [.write .four 0x008 0x2] ∧
    (writing 0x008 0xFFFFFFFD State.reset).events = [.write .four 0x008 0xFFFFFFFD] ∧ (begun 1).busy = true := by decide

theorem test_witness_DoneClearKeepsTheRest_busy : StatusOk (begun 1) := ⟨fun _ => by decide, by decide⟩

/-- Misaligned, of a wrong width, unmapped at the bounds of the holes, and locked. -/
theorem test_witness_RefusedAccessChangesNothing :
    refusesWrite .two 0x101 sample = true ∧ refusesWrite .two 0x004 sample = true ∧ refusesWrite .one 0x028 sample = true ∧
    refusesWrite .one 0x0FF sample = true ∧ refusesWrite .one 0x220 sample = true ∧ refusesWrite .one 0x23F sample = true ∧
    refusesWrite .one 0x2A0 sample = true ∧ refusesWrite .one 0x2FF sample = true ∧ refusesWrite .one 0x384 sample = true ∧
    refusesWrite .one 0xFFF sample = true ∧ refusesWrite .four 0x00C (begun 1) = true ∧ refusesWrite .four 0x020 (begun 1) = true ∧
    refusesWrite .one 0x383 (begun 1) = true ∧ refusesAccess .four 0xFFC = true ∧ refusesAccess .one 0x020 = true ∧
    refusesAccess .two 0x383 = true := by decide

theorem test_witness_RegisterWrites : State.reset.busy = false ∧ (writing 0x000 1 State.reset).events = [.write .four 0x000 1] ∧
    (writing 0x020 0xFFFFFFFF State.reset).events = [.write .four 0x020 0xFFFFFFFF] := by decide

/-- A write of ITER_COUNT while busy (log entry 7), beside the last locked register. -/
theorem test_witness_RegisterWrites_busy : (begun 2).busy = true ∧
    (writing 0x024 7 (begun 2)).events = [.write .four 0x024 7] ∧ responseAfter (writing 0x024 7 (begun 2)) = some .written ∧
    (after (step (writing 0x024 7 { begun 2 with iterCount := 9 }))).map (·.iterCount) = some 9 ∧
    responseAfter (writing 0x020 7 (begun 2)) = some .busError := by decide

theorem test_witness_RegisterReads : (reading .four 0x000 (begun 1)).events = [.read .four 0x000] ∧
    (reading .four 0x024 State.reset).events = [.read .four 0x024] := by decide

/-- At the last byte of PUB and the last word of OID. -/
theorem test_witness_BufferWriteStoresLanes : (sample.busy = false ∧ (0x380 : BitVec 12).toNat % widthBytes .one = 0 ∧
      ∀ i, i < widthBytes .one → inBuffers ((0x380 : BitVec 12).toNat + i) = true) ∧
    ((0x21C : BitVec 12).toNat % widthBytes .four = 0 ∧
      ∀ i, i < widthBytes .four → inBuffers ((0x21C : BitVec 12).toNat + i) = true) := by decide

/-- Every byte of an access is a buffer or a pad byte. -/
def inWindow (w : Width) (off : BitVec 12) : Bool :=
  (List.range (widthBytes w)).all fun i =>
    inBuffers (off.toNat + i) || (0x381 ≤ off.toNat + i && off.toNat + i ≤ 0x383)

/-- Written bytes; the last buffer byte with its pad; the last pad byte; bytes that nothing has written; two reads in a row. -/
theorem test_witness_BufferReadGivesLanes :
    ((0x100 : BitVec 12).toNat % widthBytes .four = 0 ∧ inWindow .four 0x100 = true ∧
      (∀ i, i < widthBytes .four → inBuffers ((0x100 : BitVec 12).toNat + i) = true) ∧
      readBytes sample 0x100 (widthBytes .four) = some [1, 2, 3, 4]) ∧
    ((0x380 : BitVec 12).toNat % widthBytes .four = 0 ∧ inWindow .four 0x380 = true) ∧
    inWindow .one 0x383 = true ∧ (inWindow .two 0x29E = true ∧ readMarked sample 0x29E = none) ∧
    { begun 1 with events := [.read .four 0x100, .read .four 0x100] }.events = [.read .four 0x100, .read .four 0x100] := by decide

/-- The first and the last pad byte, the halfword of pad bytes, and the accesses at PUB[128]. -/
theorem test_witness_PadBytesReadZero :
    ((0x381 ≤ (0x381 : BitVec 12).toNat ∧ (0x381 : BitVec 12).toNat ≤ 0x383) ∧
      (0x381 ≤ (0x383 : BitVec 12).toNat ∧ (0x383 : BitVec 12).toNat ≤ 0x383)) ∧
    ((reading .one 0x383 sample).events = [.read .one 0x383] ∧ (reading .two 0x382 sample).events = [.read .two 0x382] ∧
      { sample with events := [.write .two 0x382 7] }.events = [.write .two 0x382 7] ∧ sample.busy = false) ∧
    readMarked (reading .four 0x380 sample) 0x380 = some 0xAB ∧ readMarked (reading .two 0x380 sample) 0x380 = some 0xAB ∧
    (reading .four 0x380 sample).events = [.read .four 0x380] ∧ (writing 0x380 5 sample).busy = false ∧
    { sample with events := [.write .two 0x380 5] }.events = [.write .two 0x380 5] := by decide

/-- V85, V86 with halfwords. -/
theorem test_pad_halfwords : responseAfter (reading .two 0x380 sample) = some (.data 0xAB) ∧
    responseAfter (reading .two 0x382 sample) = some (.data 0) ∧
    (after (step { sample with events := [.write .two 0x380 0xCDEF] })).bind
      (fun t => responseAfter (reading .four 0x380 t)) = some (.data 0xEF) := by decide

theorem test_witness_ResetEvent : { begun 2 with events := [.reset] }.events = [.reset] ∧
    { begun 2 with events := [.lateResponse] }.events = [.lateResponse] := by decide

theorem test_witness_StrayResponseDiscarded : encode (.cgBase .bign128) = .portReq (curveGroupReq .bign128 0 []) ∧
    (begun 1).port ≠ some (curveGroupReq .bign128 0 []) ∧ encode (.entDraw 32) = .portReq (entropyReq 0 [.nat 32]) := by decide

/-! Places with their outstanding requests -/

/-- A state waits at a place for the answer to a request. -/
def waits (s : State) (site : Site) (r : PortReq) : Bool := s.port = some r && s.site = site

theorem test_witness_CgBaseAnswers : [Site.pkBase, .sgBase, .vfBase].all (fun x =>
    waits (running 1 x (some (curveGroupReq .bign128 0 []))) x (curveGroupReq .bign128 0 [])) = true := by decide

theorem test_witness_CgMulAnswers : [Site.pkMul, .sgMul, .vfMulG, .vfMulQ].all (fun x =>
      waits (running 1 x (some (curveGroupReq .bign128 1 [.point .infinity, .nat 0]))) x
        (curveGroupReq .bign128 1 [.point .infinity, .nat 0])) = true ∧
    (running 4 .vfMulQ none).scratch.u = 0 ∧ { running 4 .vfMulQ none with scratch := { Scratch.none with u := 1 } }.scratch.u ≠ 0 := by
  decide

/-- The base point has the order n; n and 0 are its multiples. -/
theorem test_witness_CgMulAnswers_order (c : CurveId) :
    scalarMul (Config.curve c).group.add (Config.order c) (Config.curve c).group.base = .infinity ∧
    Config.order c % Config.order c = 0 ∧ 0 % Config.order c = 0 :=
  ⟨(Config.curve c).group.base_order, Nat.mod_self _, Nat.zero_mod _⟩

theorem test_witness_CgAddAnswers : waits (running 4 .vfAdd (some (curveGroupReq .bign128 2 [.point .infinity, .point .infinity])))
    .vfAdd (curveGroupReq .bign128 2 [.point .infinity, .point .infinity]) = true := by decide

/-- The coordinates of the base point are valid. -/
theorem test_witness_CgFromAffineAnswers (c : CurveId) :
    waits (running 4 .vfFromAffine (some (curveGroupReq .bign128 3 [.nat 0, .nat 5]))) .vfFromAffine
      (curveGroupReq .bign128 3 [.nat 0, .nat 5]) = true ∧
    ∃ x y, (Config.curve c).group.valid x y = true := by
  refine ⟨by decide, ?_⟩
  have h : scalarMul (Config.curve c).group.add 1 (Config.curve c).group.base ≠ .infinity := by
    rw [scalarMul, scalarMul, (Config.curve c).group.infinity_add]; exact (Config.curve c).group.base_ne
  exact ⟨_, _, (Config.curve c).group.valid_to 1 h⟩

theorem test_witness_CgIsIdAnswers : [Site.pkIsId, .sgIsId, .vfIsId].all (fun x =>
    waits (running 1 x (some (curveGroupReq .bign128 4 [.point .infinity]))) x (curveGroupReq .bign128 4 [.point .infinity])) =
      true := by decide

theorem test_witness_CgToAffineAnswers : Pt.finite 0 ≠ .infinity ∧ [Site.pkToAffine, .sgToAffine, .vfToAffine].all (fun x =>
      waits (running 1 x (some (curveGroupReq .bign128 5 [.point (.finite 0)]))) x (curveGroupReq .bign128 5 [.point (.finite 0)])) =
        true ∧
    (running 1 .pkToAffine (some (curveGroupReq .bign128 5 [.point .infinity]))).port =
      some (curveGroupReq .bign128 5 [.point .infinity]) := by decide

theorem test_witness_CgFnAddMulAnswer : [Site.sgAddW, .vfAddE, .vfAddW].all (fun x =>
      waits (running 3 x (some (curveGroupReq .bign128 6 [.nat 0, .nat 1]))) x (curveGroupReq .bign128 6 [.nat 0, .nat 1])) = true ∧
    waits (running 3 .sgMulD (some (curveGroupReq .bign128 8 [.nat 0, .nat 1]))) .sgMulD (curveGroupReq .bign128 8 [.nat 0, .nat 1]) =
      true := by decide

theorem test_witness_CgFnSubAnswers : [Site.sgSubE, .sgSubT].all (fun x =>
      waits (running 3 x (some (curveGroupReq .bign128 7 [.nat 3, .nat 5]))) x (curveGroupReq .bign128 7 [.nat 3, .nat 5])) = true ∧
    { running 3 .sgSubT none with scratch := { Scratch.none with s0 := zeros 16 } }.scratch.s0.length = CurveId.bign128.half := by decide

/-- DIG[0..32) written, DIGEST_LEN = 32. -/
def digested (s : State) (dig : Bytes) : State := { writeBuffer .dig dig s with digestLen := 32 }

theorem test_witness_DeHashAnswers : [Site.nonceHash, .sgHash, .vfHash].all (fun x =>
      waits (running 2 x (some (digestReq 0 [.bytes []]))) x (digestReq 0 [.bytes []])) = true ∧
    curveOfCode (begun 2).ctrl.curve = some .bign128 ∧ (begun 2).ctrl.cmd = 2 ∧ (begun 3).ctrl.cmd = 3 ∧
    readBuffer (digested (begun 2) (zeros 32)) .dig (digested (begun 2) (zeros 32)).digestLen.toNat = some (zeros 32) ∧
    readBuffer (digested (begun 3) (zeros 32)) .dig CurveId.bign128.len = some (zeros 32) := by decide

/-- The candidate whose value is 1. -/
def oneCandidate : Bytes := zeros 31 ++ [1]

theorem accepted_one : 1 ≤ beNat oneCandidate ∧ beNat oneCandidate < Config.order .bign128 := by
  rw [show beNat oneCandidate = 1 by decide]
  exact ⟨le_refl 1, lt_trans (by norm_num [CurveId.half, CurveId.len]) (order_large .bign128)⟩

/-- The values 1 (accepted) and 0 (rejected) are both the stretch of something; the cap at its bounds. -/
theorem test_witness_DeStretchIterates (key : Bytes) :
    waits (running 2 .nonceStretch (some (digestReq 1 [.bytes [], .bytes []]))) .nonceStretch (digestReq 1 [.bytes [], .bytes []]) =
      true ∧
    (begun 2).ctrl.cmd = 2 ∧ (begun 3).ctrl.cmd ≠ 2 ∧
    (∃ b, 1 ≤ beNat (Config.stretch key b) ∧ beNat (Config.stretch key b) < Config.order .bign128) ∧
    (∃ b, ¬ (1 ≤ beNat (Config.stretch key b) ∧ beNat (Config.stretch key b) < Config.order .bign128)) ∧
    (({ begun 2 with nonceCap := 1 }.nonceCap ≠ 0 ∧ { begun 2 with nonceCap := 1 }.nonceCap ≤ 0 + 1) ∧ (begun 2).nonceCap = 0 ∧
      (0 : BitVec 32) + 1 < { begun 2 with nonceCap := 2 }.nonceCap) := by
  refine ⟨by decide, by decide, by decide, ?_, ?_, by decide⟩
  · obtain ⟨b, -, h⟩ := exists_stretch_eq key oneCandidate
    exact ⟨b, by rw [h]; exact accepted_one⟩
  · obtain ⟨b, -, h⟩ := exists_stretch_eq key (zeros 32)
    refine ⟨b, ?_⟩
    rw [h, show beNat (zeros 32) = 0 by decide]; omega

theorem test_witness_EntDrawBecomesKey : waits (running 3 .sgDraw (some (entropyReq 0 [.nat 32]))) .sgDraw (entropyReq 0 [.nat 32]) =
    true := by decide

/-! Runs -/

/-- PRV[0..32) = 0^32, written. -/
def keyed (s : State) : State := writeBuffer .prv (zeros 32) s

/-- What the run statements ask of their first state. -/
def fresh (s : State) (cmd : BitVec 3) (site : Site) : Bool :=
  s.phase = .run && s.site = site && s.port = none && s.events = [] && s.ctrl.cmd = cmd && curveOfCode s.ctrl.curve = some .bign128

theorem test_witness_PubkeyRunsToItsResult : fresh (keyed (begun 1)) 1 .entry = true ∧
    readBuffer (keyed (begun 1)) .prv CurveId.bign128.len = some (zeros 32) := by decide

theorem test_witness_SignRunsToItsResult : fresh (keyed (running 3 .sgBase none)) 3 .sgBase = true ∧
    (keyed (running 3 .sgBase none)).scratch.k = leNat (keyed (running 3 .sgBase none)).scratch.kb ∧
    readOid (keyed (running 3 .sgBase none)) = some Config.defaultOid ∧ readDigest (keyed (running 3 .sgBase none)) = some [] ∧
    readBuffer (keyed (running 3 .sgBase none)) .prv CurveId.bign128.len = some (zeros 32) :=
  ⟨by decide, by decide, rfl, by decide, by decide⟩

/-- CG_BASE already sent, as where K is supplied. -/
theorem test_witness_SignRunsToItsResult_sent :
    let s := keyed (running 3 .sgBase (some (curveGroupReq .bign128 0 [])))
    s.phase = .run ∧ s.site = .sgBase ∧ s.port = some (curveGroupReq .bign128 0 []) ∧ s.events = [] ∧ s.ctrl.cmd = 3 ∧
    curveOfCode s.ctrl.curve = some .bign128 ∧ s.scratch.k = leNat s.scratch.kb ∧ readDigest s = some [] ∧
    readBuffer s .prv CurveId.bign128.len = some (zeros 32) := by decide

/-- A controller step before a host read, in SIGN and in VERIFY. -/
theorem test_witness_controller_events :
    { keyed (begun 3) with events := [.controller, .read .four 0x008] }.events = [.controller, .read .four 0x008] ∧
    { begun 4 with sigLen := 47, events := [.controller, .read .four 0x008] }.events.head? = some .controller := by decide

theorem test_witness_SignChoosesItsKey :
    (fresh { keyed (begun 3) with ctrl := ⟨3, 0, false, true, false, false⟩ } 3 .entry = true ∧
      readBuffer (writeBuffer .k (zeros 32) (begun 3)) .k CurveId.bign128.len = some (zeros 32)) ∧
    (fresh (keyed (begun 3)) 3 .entry = true ∧ (keyed (begun 3)).ctrl.ksup = false ∧ (keyed (begun 3)).ctrl.mode = false ∧
      readOid (keyed (begun 3)) = some Config.defaultOid ∧
      readBuffer (keyed (begun 3)) .prv CurveId.bign128.len = some (zeros 32)) ∧
    fresh { begun 3 with ctrl := ⟨3, 0, true, false, false, false⟩ } 3 .entry = true :=
  ⟨⟨by decide, by decide⟩, ⟨by decide, by decide, by decide, rfl, by decide⟩, by decide⟩

theorem test_witness_VerifyRunsToItsResult : fresh (begun 4) 4 .entry = true ∧ readOid (begun 4) = some Config.defaultOid ∧
    readDigest (begun 4) = some [] ∧ readBuffer (begun 4) .sig (begun 4).sigLen.toNat = some [] ∧
    readBuffer (begun 4) .pub (begun 4).pubLen.toNat = some [] := ⟨by decide, rfl, by decide, by decide, by decide⟩

/-- The same with operands of the lengths of BIGN128. -/
theorem test_witness_VerifyRunsToItsResult_long :
    let s := { writeBuffer .sig (zeros 48) (writeBuffer .pub (zeros 65) (begun 4)) with sigLen := 48, pubLen := 65 }
    fresh s 4 .entry = true ∧ readBuffer s .sig s.sigLen.toNat = some (zeros 48) ∧
      readBuffer s .pub s.pubLen.toNat = some (zeros 65) := by decide

/-- The right lengths with the tag 0x02. -/
theorem test_witness_VerifyGuardsInOrder_tag :
    let s := { writeByte 0x300 0x02 (writeBuffer .sig (zeros 48) (begun 4)) with sigLen := 48, pubLen := 65 }
    fresh s 4 .entry = true ∧ s.sigLen.toNat = 3 * CurveId.bign128.half ∧
    readBuffer s .sig (3 * CurveId.bign128.half) = some (zeros 48) ∧ s.pubLen.toNat = 1 + 2 * CurveId.bign128.len ∧
    readMarked s 0x300 = some 0x02 ∧ (0x02 : Byte) ≠ 0x04 := by decide

/-- SIG_LEN one below 48; S1 at its greatest value and at 0; PUB_LEN one below 65. -/
theorem test_witness_VerifyGuardsInOrder :
    let s := fun sig : Bytes => { writeBuffer .sig sig (begun 4) with sigLen := 48, pubLen := 64 }
    (fresh { begun 4 with sigLen := 47 } 4 .entry = true ∧
      { begun 4 with sigLen := 47 }.sigLen.toNat ≠ 3 * CurveId.bign128.half) ∧
    (fresh (s (List.replicate 48 0xFF)) 4 .entry = true ∧
      readBuffer (s (List.replicate 48 0xFF)) .sig (3 * CurveId.bign128.half) = some (List.replicate 48 0xFF) ∧
      Config.order .bign128 ≤ leNat ((List.replicate 48 0xFF : Bytes).drop CurveId.bign128.half)) ∧
    ((s (zeros 48)).sigLen.toNat = 3 * CurveId.bign128.half ∧
      readBuffer (s (zeros 48)) .sig (3 * CurveId.bign128.half) = some (zeros 48) ∧
      leNat ((zeros 48).drop CurveId.bign128.half) < Config.order .bign128 ∧
      (s (zeros 48)).pubLen.toNat ≠ 1 + 2 * CurveId.bign128.len) := by
  refine ⟨by decide, ⟨by decide, by decide, ?_⟩, by decide, by decide, ?_, by decide⟩
  · have h := order_lt .bign128
    rw [show leNat ((List.replicate 48 0xFF : Bytes).drop CurveId.bign128.half) = 256 ^ CurveId.bign128.len - 1 by decide]
    omega
  · rw [show leNat ((zeros 48).drop CurveId.bign128.half) = 0 by decide]; exact order_pos _

/-- A started GENK with the digest `dig` and a cap. -/
def looping (cap : BitVec 32) (dig : Bytes) : State := { digested (keyed (begun 2)) dig with nonceCap := cap }

theorem looping_reads (cap : BitVec 32) (dig : Bytes) (h : dig.length = 32) :
    fresh (looping cap dig) 2 .entry = true ∧ (looping cap dig).iterCount = 0 ∧
    readOid (looping cap dig) = some Config.defaultOid ∧
    readBuffer (looping cap dig) .prv CurveId.bign128.len = some (zeros 32) ∧
    readBuffer (looping cap dig) .t (looping cap dig).tLen.toNat = some [] ∧
    readBuffer (looping cap dig) .dig (looping cap dig).digestLen.toNat = some dig := by
  refine ⟨?_, ?_, ?_, ?_, ?_, ?_⟩
  · simp [fresh, looping, digested, keyed, begun, running, curveOfCode, State.reset]
  · simp [looping, digested, keyed, begun, running, State.reset]
  · simp [readOid, looping, digested, keyed, begun, running]
  · have hp : readBuffer (keyed (begun 2)) .prv CurveId.bign128.len = some (zeros 32) := by decide
    refine (readBytes_eq_some_iff _ _ _ _).2 ⟨by decide, fun j hj => ?_⟩
    rw [← ((readBytes_eq_some_iff _ _ _ _).1 hp).2 j hj]
    refine (readMarked_congr rfl rfl _).trans (readMarked_writeBytes_outside _ _ _ _ (.inl ?_))
    simp only [bufferBase, CurveId.len] at *; omega
  · simp [readBuffer, readBytes, looping, digested, keyed, begun, running, State.reset]
  · have := readBytes_writeBytes (bufferBase .dig) dig (keyed (begun 2))
    rw [h] at this
    exact (readBytes_congr rfl rfl _ _).trans this

/-- The first candidate can be accepted, without a cap and at the cap 1. -/
theorem test_witness_GenkFindsFirstAcceptedCandidate (cap : BitVec 32) (hcap : cap = 0 ∨ cap = 1) : ∃ dig : Bytes,
    fresh (looping cap dig) 2 .entry = true ∧ (looping cap dig).iterCount = 0 ∧
    readOid (looping cap dig) = some Config.defaultOid ∧
    readBuffer (looping cap dig) .prv CurveId.bign128.len = some (zeros 32) ∧
    readBuffer (looping cap dig) .t (looping cap dig).tLen.toNat = some [] ∧
    readBuffer (looping cap dig) .dig (looping cap dig).digestLen.toNat = some dig ∧
    ((looping cap dig).nonceCap = 0 ∨ 1 ≤ (looping cap dig).nonceCap.toNat) ∧
    nonceAccepted .bign128 (nonceCandidate (Config.hash (Config.defaultOid ++ zeros 32 ++ [])) dig 1) = true := by
  obtain ⟨dig, hl, h⟩ := exists_stretch_eq (Config.hash (Config.defaultOid ++ zeros 32 ++ [])) oneCandidate
  obtain ⟨h1, h2, h3, h4, h5, h6⟩ := looping_reads cap dig hl
  refine ⟨dig, h1, h2, h3, h4, h5, h6, ?_, ?_⟩
  · show cap = 0 ∨ 1 ≤ cap.toNat
    rcases hcap with rfl | rfl <;> decide
  · rw [nonceCandidate, nonceCandidate, h]
    simpa [nonceAccepted] using accepted_one

/-- The first candidate can be rejected. -/
theorem test_witness_UncappedLoopStaysBusy : ∃ dig : Bytes,
    fresh (looping 0 dig) 2 .entry = true ∧ (looping 0 dig).iterCount = 0 ∧ (looping 0 dig).nonceCap = 0 ∧
    readOid (looping 0 dig) = some Config.defaultOid ∧
    readBuffer (looping 0 dig) .prv CurveId.bign128.len = some (zeros 32) ∧
    readBuffer (looping 0 dig) .t (looping 0 dig).tLen.toNat = some [] ∧
    readBuffer (looping 0 dig) .dig (looping 0 dig).digestLen.toNat = some dig ∧
    ∀ i, 1 ≤ i → i ≤ 1 → nonceAccepted .bign128 (nonceCandidate (Config.hash (Config.defaultOid ++ zeros 32 ++ [])) dig i) = false := by
  obtain ⟨dig, hl, h⟩ := exists_stretch_eq (Config.hash (Config.defaultOid ++ zeros 32 ++ [])) (zeros 32)
  obtain ⟨h1, h2, h3, h4, h5, h6⟩ := looping_reads 0 dig hl
  refine ⟨dig, h1, h2, rfl, h3, h4, h5, h6, fun i hi1 hi2 => ?_⟩
  obtain rfl : i = 1 := by omega
  rw [nonceCandidate, nonceCandidate, h]
  exact (test_nonce_bounds .bign128).1

/-- A started deterministic SIGN with the digest `dig`. -/
def signing (dig : Bytes) : State := digested (keyed (begun 3)) dig

theorem signing_reads (dig : Bytes) (h : dig.length = 32) :
    fresh (signing dig) 3 .entry = true ∧ (signing dig).iterCount = 0 ∧ (signing dig).nonceCap = 0 ∧
    (signing dig).ctrl.ksup = false ∧ (signing dig).ctrl.mode = false ∧
    readOid (signing dig) = some Config.defaultOid ∧
    readBuffer (signing dig) .prv CurveId.bign128.len = some (zeros 32) ∧
    readBuffer (signing dig) .dig CurveId.bign128.len = some dig := by
  refine ⟨?_, ?_, ?_, ?_, ?_, ?_, ?_, ?_⟩
  · simp [fresh, signing, digested, keyed, begun, running, curveOfCode, State.reset]
  · simp [signing, digested, keyed, begun, running, State.reset]
  · simp [signing, digested, keyed, begun, running, State.reset]
  · simp [signing, digested, keyed, begun, running]
  · simp [signing, digested, keyed, begun, running]
  · simp [readOid, signing, digested, keyed, begun, running]
  · have hp : readBuffer (keyed (begun 3)) .prv CurveId.bign128.len = some (zeros 32) := by decide
    refine (readBytes_eq_some_iff _ _ _ _).2 ⟨by decide, fun j hj => ?_⟩
    rw [← ((readBytes_eq_some_iff _ _ _ _).1 hp).2 j hj]
    refine (readMarked_congr rfl rfl _).trans (readMarked_writeBytes_outside _ _ _ _ (.inl ?_))
    simp only [bufferBase, CurveId.len] at *; omega
  · have := readBytes_writeBytes (bufferBase .dig) dig (keyed (begun 3))
    rw [h] at this
    exact (readBytes_congr rfl rfl _ _).trans this

/-- The first candidate of SIGN can be accepted, and it can be rejected; t is empty. -/
theorem test_witness_nonce_loop_of_sign : ∃ dig dig' : Bytes, dig.length = 32 ∧ dig'.length = 32 ∧
    nonceAccepted .bign128 (nonceCandidate (Config.hash (Config.defaultOid ++ zeros 32 ++ [])) dig 1) = true ∧
    nonceAccepted .bign128 (nonceCandidate (Config.hash (Config.defaultOid ++ zeros 32 ++ [])) dig' 1) = false := by
  obtain ⟨dig, hl, h⟩ := exists_stretch_eq (Config.hash (Config.defaultOid ++ zeros 32 ++ [])) oneCandidate
  obtain ⟨dig', hl', h'⟩ := exists_stretch_eq (Config.hash (Config.defaultOid ++ zeros 32 ++ [])) (zeros 32)
  refine ⟨dig, dig', hl, hl', ?_, ?_⟩
  · rw [nonceCandidate, nonceCandidate, h]; simpa [nonceAccepted] using accepted_one
  · rw [nonceCandidate, nonceCandidate, h']; exact (test_nonce_bounds .bign128).1

/-- A GENK whose outstanding stretch gives an accepted candidate. -/
theorem test_witness_GenkKeyInRange : ∃ (b : Bytes) (t : State),
    waits (running 2 .nonceStretch (some (digestReq 1 [.bytes [], .bytes b]))) .nonceStretch (digestReq 1 [.bytes [], .bytes b]) = true ∧
    (begun 2).busy = true ∧ b.length = CurveId.bign128.len ∧
    exec (.deStretch [] b) (running 2 .nonceStretch (some (digestReq 1 [.bytes [], .bytes b]))) = .next t ∧
    t.busy = false ∧ t.err = .none := by
  obtain ⟨b, hl, h⟩ := exists_stretch_eq [] oneCandidate
  have ha : nonceAccepted .bign128 oneCandidate = true := by simpa [nonceAccepted] using accepted_one
  have hs : afterStretch oneCandidate (running 2 .nonceStretch (some (digestReq 1 [.bytes [], .bytes b]))) =
      .next (completeGenk oneCandidate (setIterCount (iterNext 0)
        (setNonce [] oneCandidate (running 2 .nonceStretch (some (digestReq 1 [.bytes [], .bytes b])))))) := by
    unfold afterStretch
    rw [withCurve_some (c := .bign128) rfl]
    show Host.Outcome.next (nonceTest .bign128 oneCandidate _) = _
    rw [nonceTest, if_pos ha]
    rfl
  have he : exec (.deStretch [] b) (running 2 .nonceStretch (some (digestReq 1 [.bytes [], .bytes b]))) =
      afterStretch (Config.stretch [] b) (running 2 .nonceStretch (some (digestReq 1 [.bytes [], .bytes b]))) :=
    receive_outstanding rfl _
  rw [h] at he
  exact ⟨b, _, by simp [waits, running], by decide, hl, he.trans hs, rfl, rfl⟩

/-- A SIGN that waits for its draw, with the next event. -/
def waitingWith (es : List Event) : State :=
  { running 3 .sgDraw (some (entropyReq 0 [.nat 32])) with phase := .waitEnt, events := es }

/-- Each kind of event, and none; a CTRL word that asks for a START without ABORT. -/
theorem test_witness_EntropyWaitKeepsState :
    [[], [.read .four 0x024], [.write .one 0x100 7], [.write .four 0x004 0x01D], [.write .four 0x008 2], [.controller],
      [.lateResponse]].all (fun es =>
        (waitingWith es).phase = .waitEnt && (waitingWith es).port = some (entropyReq 0 [.nat 32]) &&
        (waitingWith es).events.head? != some .entropy && (waitingWith es).events.head? != some .reset) = true ∧
    (0x01D : Word).getLsbD 1 = false := by decide

/-- What the statement asks of its first state, with the place and the request. -/
def stalls (s : State) (cmd : BitVec 3) (site : Site) (r : Option PortReq) : Bool :=
  s.busy && s.events = [] && s.ctrl.cmd = cmd && curveOfCode s.ctrl.curve = some .bign128 && s.site = site && s.port = r

/-- A byte of a buffer has no written mark. -/
def lacks (s : State) (b : Buffer) (j : Nat) : Bool := !isMarked s.marks (bufferBase b + j)

/-- A command whose OID buffer is an operand. -/
def withOid (s : State) : State := { s with ctrl := { s.ctrl with oidsel := true }, oidLen := 32 }

/-- V92: the last byte of PRV; in GENK the first of OID and the last of T; in SIGN the last of K, and PRV with the nonce loop. -/
theorem test_witness_UnwrittenOperandFaults :
    (stalls (writeBuffer .prv (zeros 31) (begun 1)) 1 .entry none = true ∧
      lacks (writeBuffer .prv (zeros 31) (begun 1)) .prv 31 = true ∧ 31 < CurveId.bign128.len) ∧
    (stalls (withOid (begun 2)) 2 .entry none = true ∧ lacks (withOid (begun 2)) .oid 0 = true ∧ 0 < (withOid (begun 2)).oidLen.toNat ∧
      (withOid (begun 2)).ctrl.oidsel = true) ∧
    (stalls { keyed (begun 2) with tLen := 64 } 2 .entry none = true ∧ lacks { keyed (begun 2) with tLen := 64 } .t 63 = true) ∧
    (stalls { begun 3 with ctrl := ⟨3, 0, false, true, false, false⟩ } 3 .entry none = true ∧
      lacks { begun 3 with ctrl := ⟨3, 0, false, true, false, false⟩ } .k 31 = true) ∧
    (stalls (begun 3) 3 .entry none = true ∧ (begun 3).ctrl.ksup = false ∧ (begun 3).ctrl.mode = false ∧
      lacks (begun 3) .prv 31 = true) := by decide

/-- The places of SIGN and VERIFY that read DIG, OID or PRV, and the answer to the seed of the nonce loop. -/
theorem test_witness_UnwrittenOperandFaults_later :
    [((3 : BitVec 3), Site.sgHash), (4, .vfHash), (3, .sgSubE), (4, .vfAddE)].all (fun x =>
      stalls { running x.1 x.2 none with digestLen := 64 } x.1 x.2 none && lacks { running x.1 x.2 none with digestLen := 64 } .dig 63) =
        true ∧
    (stalls (withOid (running 3 .sgHash none)) 3 .sgHash none = true ∧ lacks (withOid (running 3 .sgHash none)) .oid 31 = true) ∧
    (stalls (running 3 .sgMulD none) 3 .sgMulD none = true ∧ lacks (running 3 .sgMulD none) .prv 31 = true) ∧
    [(2 : BitVec 3), 3].all (fun k =>
      stalls { running k .nonceHash (some (digestReq 0 [.bytes []])) with digestLen := 32 } k .nonceHash (some (digestReq 0 [.bytes []])) &&
      lacks { running k .nonceHash (some (digestReq 0 [.bytes []])) with digestLen := 32 } .dig 31) = true := by decide

/-- The operands of a VERIFY: a SIG without its last byte; a SIG of zeros, no tag, and a tag alone. -/
theorem test_witness_UnwrittenOperandFaults_verify :
    let s := { writeBuffer .sig (zeros 48) (begun 4) with sigLen := 48, pubLen := 65 }
    let short := { writeBuffer .sig (zeros 47) (begun 4) with sigLen := 48 }
    (stalls short 4 .entry none = true ∧ short.sigLen.toNat = 3 * CurveId.bign128.half ∧ lacks short .sig 47 = true) ∧
    (stalls s 4 .entry none = true ∧ s.sigLen.toNat = 3 * CurveId.bign128.half ∧
      readBuffer s .sig (3 * CurveId.bign128.half) = some (zeros 48) ∧ s.pubLen.toNat = 1 + 2 * CurveId.bign128.len) ∧
    isMarked s.marks 0x300 = false ∧
    (readMarked (writeByte 0x300 0x04 s) 0x300 = some 0x04 ∧ lacks (writeByte 0x300 0x04 s) .pub 64 = true) ∧
    leNat ((zeros 48).drop CurveId.bign128.half) < Config.order .bign128 := by
  refine ⟨by decide, by decide, by decide, by decide, ?_⟩
  rw [show leNat ((zeros 48).drop CurveId.bign128.half) = 0 by decide]; exact order_pos _

/-! Invariants -/

/-- A PUBKEY that waits for CG_IS_ID is a legal controller state. -/
theorem running_isId_ok : ControllerOk (running 1 .pkIsId (some (curveGroupReq .bign128 4 [.point .infinity]))) := by
  refine ⟨fun h => (by cases h), fun _ => ⟨.bign128, ?_⟩⟩
  exact {
    curve := rfl
    command := rfl
    lengths := by decide
    request := fun r hr => ⟨.cgIsId .bign128 .infinity, by cases hr; rfl, rfl, rfl⟩
    waiting := by decide
    looping := by decide
    nonce := fun h => by cases h
    affine := by decide
    s0 := by decide }

/-- A step of it: INFINITY. -/
theorem running_isId_step : ∃ t, step (running 1 .pkIsId (some (curveGroupReq .bign128 4 [.point .infinity]))) = .next t ∧
    t.err = .infinity := ⟨_, rfl, rfl⟩

theorem test_witness_StepKeepsMemoryForm : MemoryOk (writing 0x100 5 sample) ∧ ∃ t, step (writing 0x100 5 sample) = .next t :=
  ⟨((MemoryOk.congr (s := State.reset) ⟨by decide, by decide, fun a h => by cases h⟩ rfl rfl).writeByte 0x380 0xAB
    |>.writeBytes [1, 2, 3, 4] 0x100).congr rfl rfl, _, rfl⟩

theorem test_witness_StepKeepsStatusLegal : StatusOk { begun 4 with sigLen := 1 } ∧
    ∃ t, step { begun 4 with sigLen := 1 } = .next t := ⟨⟨fun _ => by decide, by decide⟩, _, rfl⟩

theorem test_witness_StepKeepsControllerLegal :
    ControllerOk (running 1 .pkIsId (some (curveGroupReq .bign128 4 [.point .infinity]))) ∧
    ∃ t, step (running 1 .pkIsId (some (curveGroupReq .bign128 4 [.point .infinity]))) = .next t :=
  ⟨running_isId_ok, running_isId_step.imp fun _ h => h.1⟩

theorem test_witness_StepKeepsBytesInBuffers :
    ControllerOk (running 1 .pkIsId (some (curveGroupReq .bign128 4 [.point .infinity]))) ∧
    InBuffers (running 1 .pkIsId (some (curveGroupReq .bign128 4 [.point .infinity]))) ∧
    ∃ t, step (running 1 .pkIsId (some (curveGroupReq .bign128 4 [.point .infinity]))) = .next t :=
  ⟨running_isId_ok, ⟨by decide, by decide⟩, running_isId_step.imp fun _ h => h.1⟩

theorem test_witness_OnlyUnwrittenOperandsStop :
    ControllerOk (running 1 .pkIsId (some (curveGroupReq .bign128 4 [.point .infinity]))) := running_isId_ok

theorem test_witness_BusyLockKeepsOperands : { begun 3 with ctrl := ⟨3, 0, true, false, false, false⟩ }.busy = true ∧ ∃ t,
    step { begun 3 with ctrl := ⟨3, 0, true, false, false, false⟩ } = .next t ∧ t.busy = true := ⟨by decide, _, rfl, rfl⟩

/-- The completion of a PUBKEY changes PUB_LEN. -/
theorem test_witness_OutputsAppearOnlyAtCompletion :
    let s := running 1 .pkToAffine (some (curveGroupReq .bign128 5 [.point (.finite 0)]))
    s.busy = true ∧ s.events.head? ≠ some .reset ∧ ∃ t, step s = .next t ∧ t.pubLen ≠ s.pubLen :=
  ⟨by decide, by decide, completePubkey .bign128 _ _ _, rfl, by
    simp [completePubkey, running, State.reset, pubLenOf, CurveId.len]⟩

theorem test_witness_ValidOnlyFromVerify : ∃ s t : State, s.valid = false ∧ step s = .next t ∧ t.valid = true := by
  refine ⟨{ running 4 .vfHash (some (digestReq 0 [.bytes []])) with
    scratch := { Scratch.none with s0 := truncS0 .bign128 (Config.hash []) } }, _, rfl, rfl, ?_⟩
  show signatureMatches .bign128 (Config.hash []) (truncS0 .bign128 (Config.hash [])) = true
  simp [signatureMatches]

/-! The protocol -/

/-- V13, V17: the coordinates (0, 5), and S0 = AA^16 with S1 = 1. -/
theorem test_witness_FramingRoundTrips : (5 : Nat) < 256 ^ CurveId.bign128.len ∧
    (List.replicate 16 (0xAA : Byte)).length = CurveId.bign128.half ∧ (zeros 32).length = CurveId.bign128.len := by decide

/-- On the example curve with a constant hash, d = 1 and k = 2 give a key and a signature. -/
theorem test_witness_SignedMessageVerifies : ∃ pub sig : Bytes,
    (∀ m : Bytes, CurveId.bign128.half ≤ ((fun _ => zeros 32 : Bytes → Bytes) m).length) ∧
    pubkeyResult (exampleCurve .bign128) 1 = .ok pub ∧
    signResult (exampleCurve .bign128) (fun _ => zeros 32) [6] [7] [2] 1 = .ok sig := by
  refine ⟨(match pubkeyResult (exampleCurve .bign128) 1 with | .ok p => p | .error _ => []),
    (match signResult (exampleCurve .bign128) (fun _ => zeros 32) [6] [7] [2] 1 with | .ok p => p | .error _ => []),
    fun _ => (show 16 ≤ (zeros 32).length by decide), ?_, ?_⟩ <;> decide +kernel

end Sys2Proof.Tests
end

section
/-! PROOFS (10_state.md). The invariants that hold of every step whatever the controller does: the form of the memory and STATUS. Each
follows from the cases of a step (`step_cases`) and from what each case keeps. -/

namespace Sys2Proof.Machine

open Sys2Proof

/-! ### A START attempt, in the frame -/

@[simp] theorem startAttempt_mem (s : State) : (startAttempt s).mem = s.mem := by
  rcases startAttempt_cases s with ⟨code, -, h⟩ | ⟨-, h⟩ <;> rw [h] <;> rfl

@[simp] theorem startAttempt_marks (s : State) : (startAttempt s).marks = s.marks := by
  rcases startAttempt_cases s with ⟨code, -, h⟩ | ⟨-, h⟩ <;> rw [h] <;> rfl

@[simp] theorem startAttempt_valid (s : State) : (startAttempt s).valid = false := by
  rcases startAttempt_cases s with ⟨code, -, h⟩ | ⟨-, h⟩ <;> rw [h] <;> rfl

/-! ### The form of the memory -/

/-- Clearing every mark keeps the form of the memory (70_reset_and_hazards.md R157). -/
theorem MemoryOk.resetBlock {s : State} (h : MemoryOk s) : MemoryOk (resetBlock s) :=
  ⟨h.cells, reset_mem_wf.2, fun a ha => by cases ha⟩

/-- The end of a command stores one byte string at most. -/
theorem MemoryOk.commandEnd {s t : State} (h : MemoryOk s) (he : CommandEnd s t) : MemoryOk t := by
  rcases he.outcome with ⟨hmem, hmarks, -⟩ | ⟨b, bs, hmem, hmarks, -⟩
  · exact h.congr hmem hmarks
  · exact (h.writeBytes bs (bufferBase b)).congr hmem hmarks

theorem MemoryOk.step {s t : State} (h : MemoryOk s) (hs : StepCase s t) : MemoryOk t := by
  have htaken : MemoryOk (takeEvent s) := h.congr (by simp) (by simp)
  cases hs with
  | stutter => exact h
  | took => exact htaken
  | start cmd f => exact htaken.congr (by simp) (by simp)
  | configure cmd f => exact htaken.congr rfl rfl
  | busyWrite ie => exact htaken.congr rfl rfl
  | aborted ie => exact htaken.congr rfl rfl
  | cleared => exact htaken.congr rfl rfl
  | controller _ _ hc => exact hc.elim (fun hm => htaken.congr hm.mem hm.marks) htaken.commandEnd
  | responded r => exact htaken.congr rfl rfl
  | written w off v => exact (htaken.writeData w off v).congr rfl rfl
  | reset => exact htaken.resetBlock

/-- Settles O50: every case of a step stores bytes with their marks, or leaves memory and marks, or clears the marks. -/
theorem stepKeepsMemoryForm : Obligations.StepKeepsMemoryForm := fun _ _ h hs => h.step (step_cases hs)

/-! ### STATUS -/

/-- STATUS is legal after anything that leaves VALID and ERR and does not set DONE or BUSY. -/
theorem StatusOk.congr {s t : State} (h : StatusOk s) (hb : t.busy = s.busy) (hd : s.done = false → t.done = false)
    (hv : t.valid = s.valid) (he : t.err = s.err) : StatusOk t := by
  refine ⟨fun hbusy => ?_, fun hvalid => he.trans (h.valid (hv ▸ hvalid))⟩
  obtain ⟨hdone, hval, herr⟩ := h.busy (hb ▸ hbusy)
  exact ⟨hd hdone, hv.trans hval, he.trans herr⟩

/-- STATUS is legal in an idle state without VALID. -/
theorem StatusOk.of_idle {t : State} (hb : t.busy = false) (hv : t.valid = true → t.err = .none) : StatusOk t :=
  ⟨fun h => absurd (hb.symm.trans h) Bool.false_ne_true, hv⟩

theorem StatusOk.acceptStart (s : State) : StatusOk (acceptStart s) := ⟨fun _ => ⟨rfl, rfl, rfl⟩, fun _ => rfl⟩

theorem StatusOk.startAttempt {s : State} (hb : s.busy = false) : StatusOk (startAttempt s) := by
  rcases startAttempt_cases s with ⟨code, -, h⟩ | ⟨-, h⟩ <;> rw [h]
  · exact .of_idle hb nofun
  · exact .acceptStart s

theorem StatusOk.commandEnd {s t : State} (he : CommandEnd s t) : StatusOk t := by
  refine .of_idle ((busy_eq_false_iff t).2 he.phase) fun hv => ?_
  rcases he.outcome with ⟨-, -, -, -, hvalid⟩ | ⟨_, _, -, -, herr, -⟩
  · exact (hvalid hv).1
  · exact herr

/-- A hidden move of a running command leaves STATUS, and BUSY was 1 before it. -/
theorem StatusOk.hiddenMove {s t : State} (h : StatusOk s) (hb : s.busy = true) (hm : HiddenMove s t) : StatusOk t := by
  obtain ⟨hdone, hval, herr⟩ := h.busy hb
  exact ⟨fun _ => ⟨hm.done.trans hdone, hm.valid.trans hval, hm.err.trans herr⟩, fun _ => hm.err.trans herr⟩

theorem StatusOk.step {s t : State} (h : StatusOk s) (hs : StepCase s t) : StatusOk t := by
  have htaken : StatusOk (takeEvent s) := h.congr (by simp) (by simp) (by simp) (by simp)
  cases hs with
  | stutter => exact h
  | took => exact htaken
  | start cmd f hb => exact .startAttempt (by simpa using hb)
  | configure cmd f => exact htaken.congr rfl id rfl rfl
  | busyWrite ie => exact htaken.congr rfl id rfl rfl
  | aborted ie => exact .of_idle rfl nofun
  | cleared => exact htaken.congr rfl (fun _ => rfl) rfl rfl
  | controller _ hb hc => exact hc.elim (htaken.hiddenMove (by simpa using hb)) .commandEnd
  | responded r => exact htaken.congr rfl id rfl rfl
  | written w off v => exact htaken.congr (by simp) (by simp) (by simp) (by simp)
  | reset => exact .of_idle rfl nofun

/-- Settles O51: while busy only hidden moves happen to STATUS, and every end of a command leaves ERR = 0 beside VALID = 1. -/
theorem stepKeepsStatusLegal : Obligations.StepKeepsStatusLegal := fun _ _ h hs => h.step (step_cases hs)

/-! ### VALID -/

/-- VALID rises in the end of a command alone. -/
theorem commandEnd_of_valid_rises {s t : State} (hv : s.valid = false) (hs : StepCase s t) (ht : t.valid = true) :
    s.busy = true ∧ CommandEnd (takeEvent s) t := by
  cases hs with
  | stutter => rw [hv] at ht; cases ht
  | took => simp [hv] at ht
  | start cmd f => simp at ht
  | configure cmd f => simp [hv] at ht
  | busyWrite ie => simp [hv] at ht
  | aborted ie => cases ht
  | cleared => simp [hv] at ht
  | controller _ hb hc =>
    refine ⟨hb, hc.resolve_left fun hm => ?_⟩
    rw [hm.valid, takeEvent_valid, hv] at ht
    cases ht
  | responded r => simp [hv] at ht
  | written w off v => simp [hv] at ht
  | reset => cases ht

/-- Settles O57: among the ends of a command only the comparison of S0 in VERIFY sets VALID (44_verify.md R126). -/
theorem validOnlyFromVerify : Obligations.ValidOnlyFromVerify := by
  intro s t hv hs ht
  obtain ⟨hb, he⟩ := commandEnd_of_valid_rises hv (step_cases hs) ht
  rcases he.outcome with ⟨-, -, -, -, hvalid⟩ | ⟨_, _, -, -, -, hfalse⟩
  · obtain ⟨herr, hsite⟩ := hvalid ht
    exact ⟨hb, by simpa using hsite, (busy_eq_false_iff t).2 he.phase, he.done, herr⟩
  · rw [hfalse] at ht
    cases ht

end Sys2Proof.Machine
end

section
/-! PROOFS (10_state.md). Where a step comes from: like `step_cases`, but a controller step is told apart as an issue (45_control.md
R135 (a)) or the answer to the outstanding request (b), so that a proof can follow the command's rule. -/

namespace Sys2Proof.Machine

open Sys2Proof

/-- What makes a step from `s` answer its next state. -/
inductive StepOrigin (s : State) : State → Prop where
  /-- nothing is scheduled and nothing is enabled -/
  | stutter : StepOrigin s s
  /-- the event is taken and the block keeps all its state -/
  | took : StepOrigin s (takeEvent s)
  /-- a START while idle -/
  | start (cmd : BitVec 3) (f : CtrlFields) : s.busy = false → StepOrigin s (startAttempt (storeFields cmd f (takeEvent s)))
  /-- CFG while idle -/
  | configure (cmd : BitVec 3) (f : CtrlFields) : s.busy = false → StepOrigin s (storeFields cmd f (takeEvent s))
  /-- a CTRL write while busy without ABORT -/
  | busyWrite (ie : Bool) : StepOrigin s (storeIe ie (takeEvent s))
  /-- ABORT while busy -/
  | aborted (ie : Bool) : StepOrigin s (abortCommand (storeIe ie (takeEvent s)))
  /-- DONE clear -/
  | cleared : StepOrigin s (clearDone (takeEvent s))
  /-- the issue step (a) -/
  | issued (t : State) : s.busy = true → s.port = none → advance (takeEvent s) = .next t → StepOrigin s t
  /-- the response step (b) -/
  | answered (r : PortReq) (i : Instr) (t : State) : s.busy = true → s.port = some r → decodePort r = .ok i →
    exec i (takeEvent s) = .next t → StepOrigin s t
  /-- a host read, or a refused host access -/
  | responded (r : BusResponse) : StepOrigin s (respond r (takeEvent s))
  /-- a legal host write beside CTRL and STATUS -/
  | written (w : Width) (off : BitVec 12) (v : Word) : refusesWrite w off s = false →
    StepOrigin s (respond .written (writeData w off v (takeEvent s)))
  /-- reset -/
  | reset : StepOrigin s (resetBlock (takeEvent s))

/-- The meaning of a transaction: that of its row, or what the block does where there is none. -/
def performs (u : Transaction) (s : State) : Result :=
  match decode u with
  | .ok i => exec i s
  | .error _ => runUndecoded u s

theorem step_eq_performs {s : State} {u : Transaction} (h : fetch s = some u) : step s = performs u (takeEvent s) := by
  rw [step, h]; rfl

theorem step_eq_runEvent {s : State} (h : fetch s = none) : step s = runEvent s := by
  rw [step, h]

/-- A CTRL word while busy (45_control.md R131, R132). -/
theorem performs_ctrlWord_busy {s : State} (w : Word) (hb : s.busy = true) :
    performs (.ctrlWord true w) s =
      .next (if w.getLsbD 1 then abortCommand (storeIe (w.getLsbD 10) s) else storeIe (w.getLsbD 10) s) := by
  unfold performs
  simp only [decode, decodeCtrl, if_true]
  cases w.getLsbD 1 with
  | true => simp [exec, execAbort, hb]
  | false => simp [runUndecoded]

/-- A CTRL word while idle (45_control.md R128). -/
theorem performs_ctrlWord_idle {s : State} (w : Word) (hb : s.busy = false) :
    performs (.ctrlWord false w) s =
      .next (if w.getLsbD 0 then startAttempt (storeFields (ctrlCmd w) (ctrlFields w) s)
        else storeFields (ctrlCmd w) (ctrlFields w) s) := by
  unfold performs
  simp only [decode, decodeCtrl]
  cases w.getLsbD 0 with
  | true => simp [startRow_exec, startWith, hb]
  | false => simp [exec, execCfg, hb]

/-- A STATUS word (45_control.md R133). -/
theorem performs_statusWord (w : Word) (s : State) :
    performs (.statusWord w) s = .next (if w.getLsbD 1 then clearDone s else s) := by
  unfold performs
  simp only [decode, decodeStatus]
  cases w.getLsbD 1 with
  | true => simp [exec, execDoneClr]
  | false => simp [runUndecoded]

theorem ctrlWord_origin {s t : State} {w : Word} (h : performs (.ctrlWord s.busy w) (takeEvent s) = .next t) : StepOrigin s t := by
  cases hb : s.busy with
  | true =>
    rw [hb, performs_ctrlWord_busy w (by simpa using hb)] at h
    cases h
    split
    · exact .aborted _
    · exact .busyWrite _
  | false =>
    rw [hb, performs_ctrlWord_idle w (by simpa using hb)] at h
    cases h
    split
    · exact .start _ _ hb
    · exact .configure _ _ hb

theorem statusWord_origin {s t : State} {w : Word} (h : performs (.statusWord w) (takeEvent s) = .next t) : StepOrigin s t := by
  rw [performs_statusWord] at h
  cases h
  split
  · exact .cleared
  · exact .took

/-- A port request that carries no row is never performed (30_encoding.md R67). -/
theorem portReq_origin {s t : State} {r : PortReq} (hb : s.busy = true) (hp : s.port = some r)
    (h : performs (.portReq r) (takeEvent s) = .next t) : StepOrigin s t := by
  unfold performs at h
  split at h
  · rename_i hd; exact .answered r _ t hb hp hd h
  · cases h

theorem controllerStep_origin {s t : State} (h : controllerStep (takeEvent s) = .next t) : StepOrigin s t := by
  unfold controllerStep at h
  split at h
  · rename_i hc
    simp only [takeEvent_busy, takeEvent_port, Bool.and_eq_true, decide_eq_true_eq] at hc
    exact .issued t hc.1 hc.2 h
  · cases h; exact .took

theorem busWrite_origin (w : Width) (off : BitVec 12) (v : Word) (s : State) : StepOrigin s (busWrite w off v (takeEvent s)) := by
  unfold busWrite
  split
  · exact .responded _
  · rename_i hr
    exact .written w off v (by simpa using hr)

theorem busRead_origin (w : Width) (off : BitVec 12) (s : State) : StepOrigin s (busRead w off (takeEvent s)) := by
  unfold busRead
  split <;> exact .responded _

theorem runEvent_origin {s t : State} (h : runEvent s = .next t) : StepOrigin s t := by
  unfold runEvent at h
  split at h
  · split at h
    · exact controllerStep_origin h
    · cases h; exact .stutter
  · exact controllerStep_origin h
  · cases h; exact busWrite_origin _ _ _ s
  · cases h; exact busRead_origin _ _ s
  · cases h; exact .took
  · cases h; exact .took
  · cases h; exact .reset

/-- Every step has one of the origins. -/
theorem step_origin {s t : State} (h : step s = .next t) : StepOrigin s t := by
  cases hf : fetch s with
  | none => exact runEvent_origin (step_eq_runEvent hf ▸ h)
  | some u =>
    rw [step_eq_performs hf] at h
    rcases fetch_busy hf with ⟨w, rfl⟩ | ⟨w, rfl⟩ | ⟨r, rfl, hb, hp⟩
    · exact ctrlWord_origin h
    · exact statusWord_origin h
    · exact portReq_origin hb hp h

/-- The decoder reads back the request that carries a row (30_encoding.md R65, R66). -/
theorem decodePort_of_encode {i : Instr} {r : PortReq} (h : encode i = .portReq r) : decodePort r = .ok i := by
  cases i with
  | cgBase c => cases h; exact decodePort_curveGroup c 0 _
  | cgMul c P k => cases h; exact decodePort_curveGroup c 1 _
  | cgAdd c P Q => cases h; exact decodePort_curveGroup c 2 _
  | cgFromAffine c x y => cases h; exact decodePort_curveGroup c 3 _
  | cgIsId c P => cases h; exact decodePort_curveGroup c 4 _
  | cgToAffine c P => cases h; exact decodePort_curveGroup c 5 _
  | cgFnAdd c a b => cases h; exact decodePort_curveGroup c 6 _
  | cgFnSub c a b => cases h; exact decodePort_curveGroup c 7 _
  | cgFnMul c a b => cases h; exact decodePort_curveGroup c 8 _
  | deHash m => cases h; exact decodePort_digest 0 _
  | deStretch key b => cases h; exact decodePort_digest 1 _
  | entDraw m => cases h; exact decodePort_entropy 0 _
  | pubkey | genk | sign | verify | reservedCmd0 | reservedCmd5 | reservedCmd6 | reservedCmd7 | cfg | abort | doneClr => cases h

end Sys2Proof.Machine
end

section
/-! PROOFS (10_state.md R33 to R36). A legal controller stays legal: a running command goes from a place of its rule to the next one
(`Live`), or it ends (`Stopped`) with an output that fits its buffer. One lemma per issue function and per response. -/

namespace Sys2Proof.Machine

open Sys2Proof

/-! ### Live and stopped -/

/-- PHASE at each place of the rules (10_state.md R33). -/
def phaseAt : Site → Phase
  | .sgDraw => .waitEnt
  | .nonceStretch => .loop
  | _ => .run

theorem phaseAt_eq_waitEnt_iff (x : Site) : phaseAt x = .waitEnt ↔ x = .sgDraw := by cases x <;> decide

theorem phaseAt_eq_loop_iff (x : Site) : phaseAt x = .loop ↔ x = .nonceStretch := by cases x <;> decide

theorem phaseAt_ne_idle (x : Site) : phaseAt x ≠ .idle := by cases x <;> decide

/-- A command runs on the curve `c`, and PHASE is that of its place. -/
structure Live (c : CurveId) (s : State) : Prop where
  running : RunningOk c s
  phase : s.phase = phaseAt s.site

theorem Live.of_running {c : CurveId} {s : State} (h : RunningOk c s) (hb : s.phase ≠ .idle) : Live c s := by
  refine ⟨h, ?_⟩
  cases hp : s.phase with
  | idle => exact absurd hp hb
  | waitEnt => rw [h.waiting.1 hp]; rfl
  | loop => rw [h.looping.1 hp]; rfl
  | run =>
    have hdraw : s.site ≠ .sgDraw := fun hs => by simpa [hp] using h.waiting.2 hs
    have hloop : s.site ≠ .nonceStretch := fun hs => by simpa [hp] using h.looping.2 hs
    cases hs : phaseAt s.site with
    | run => rfl
    | idle => exact absurd hs (phaseAt_ne_idle _)
    | waitEnt => exact absurd ((phaseAt_eq_waitEnt_iff _).1 hs) hdraw
    | loop => exact absurd ((phaseAt_eq_loop_iff _).1 hs) hloop

theorem Live.phase_ne_idle {c : CurveId} {s : State} (h : Live c s) : s.phase ≠ .idle := h.phase ▸ phaseAt_ne_idle _

/-- Nothing of a command is left. -/
structure Stopped (t : State) : Prop where
  phase : t.phase = .idle
  site : t.site = .entry
  port : t.port = none
  scratch : t.scratch = Scratch.none

theorem Live.controllerOk {c : CurveId} {t : State} (h : Live c t) : ControllerOk t :=
  ⟨fun hi => absurd hi h.phase_ne_idle, fun _ => ⟨c, h.running⟩⟩

theorem Stopped.controllerOk {t : State} (h : Stopped t) : ControllerOk t :=
  ⟨fun _ => ⟨h.site, h.port, h.scratch⟩, fun hb => absurd h.phase hb⟩

theorem stopped_raiseErr (code : ErrCode) (s : State) : Stopped (raiseErr code s) := ⟨rfl, rfl, rfl, rfl⟩

theorem stopped_finishCommand (v : Bool) (s : State) : Stopped (finishCommand v s) := ⟨rfl, rfl, rfl, rfl⟩

/-- A legal move of the controller: the command lives on, or it stops with an output inside its buffer. -/
def LegalMove (c : CurveId) (s t : State) : Prop := Live c t ∨ (Stopped t ∧ (InBuffers s → InBuffers t))

theorem legalMove_raiseErr (c : CurveId) (code : ErrCode) (s : State) : LegalMove c s (raiseErr code s) :=
  .inr ⟨stopped_raiseErr code s, fun h => h.congr rfl rfl⟩

theorem legalMove_finishCommand (c : CurveId) (v : Bool) (s : State) : LegalMove c s (finishCommand v s) :=
  .inr ⟨stopped_finishCommand v s, fun h => h.congr rfl rfl⟩

/-! ### From place to place -/

/-- A hidden move to a place whose conditions hold keeps the command running. -/
theorem Live.of_hiddenMove {c : CurveId} {s t : State} (h : RunningOk c s) (hm : HiddenMove s t) (hp : t.phase = phaseAt t.site)
    (hc : commandAt s.ctrl t.site) (hr : ∀ r, t.port = some r → ∃ i, encode i = .portReq r ∧ sentAt c t.scratch t.site i)
    (hn : t.site = .nonceStretch → t.theta.length = Config.hlen ∧ t.cand.length = c.len)
    (ha : asksAffine t.site = true → t.scratch.ptR ≠ .infinity) (h0 : t.scratch.s0.length ≤ c.half) : Live c t where
  running := {
    curve := hm.ctrl ▸ h.curve
    command := hm.ctrl ▸ hc
    lengths := by
      have := h.lengths
      unfold lengthsOk oidLenOk at *
      rw [hm.ctrl, hm.digestLen, hm.tLen, hm.oidLen]
      exact this
    request := hr
    waiting := by rw [hp]; exact phaseAt_eq_waitEnt_iff _
    looping := by rw [hp]; exact phaseAt_eq_loop_iff _
    nonce := hn
    affine := ha
    s0 := h0 }
  phase := hp

section
variable {c : CurveId} {s : State}

/-- A response at the place `a` goes on to the place `x`, both outside the nonce loop and the draw. -/
theorem Live.moveTo_affine (h : Live c s) {a : Site} (hs : s.site = a) (x : Site) (hpa : phaseAt a = .run) (hpx : phaseAt x = .run)
    (hc : commandAt s.ctrl a → commandAt s.ctrl x) (scr : Scratch) (h0 : scr.s0.length ≤ c.half)
    (ha : asksAffine x = true → scr.ptR ≠ .infinity) : Live c (moveTo x (setScratch scr s)) := by
  have hp : s.phase = phaseAt x := by rw [h.phase, hs, hpa, hpx]
  refine .of_hiddenMove h.running (hiddenMove_moveTo x scr s) hp (hc (hs ▸ h.running.command)) nofun (fun hx => ?_) ha h0
  have hx : x = .nonceStretch := hx
  rw [hx] at hpx
  cases hpx

/-- The same, where the place `x` asks for no coordinates. -/
theorem Live.moveTo (h : Live c s) {a : Site} (hs : s.site = a) (x : Site) (hpa : phaseAt a = .run) (hpx : phaseAt x = .run)
    (hx : asksAffine x = false) (hc : commandAt s.ctrl a → commandAt s.ctrl x) (scr : Scratch) (h0 : scr.s0.length ≤ c.half) :
    Live c (moveTo x (setScratch scr s)) :=
  h.moveTo_affine hs x hpa hpx hc scr h0 fun ha => by rw [hx] at ha; cases ha

/-- The call of a place is sent from a state that may stand there. -/
theorem Live.send {x : Site} (h : Live c (Machine.moveTo x s)) {i : Instr} {r : PortReq} (he : encode i = .portReq r) (scr : Scratch)
    (hs : sentAt c scr x i) (hR : scr.ptR = s.scratch.ptR) (h0 : scr.s0 = s.scratch.s0) :
    Live c (sendRequest x r (setScratch scr s)) where
  running := {
    curve := h.running.curve
    command := h.running.command
    lengths := h.running.lengths
    request := fun r' hr => ⟨i, by cases hr; exact he, hs⟩
    waiting := h.running.waiting
    looping := h.running.looping
    nonce := h.running.nonce
    affine := fun ha => hR ▸ h.running.affine ha
    s0 := h0 ▸ h.running.s0 }
  phase := h.phase

/-- With no request outstanding a command may stand where it stands. -/
theorem moveTo_self (hp : s.port = none) : Machine.moveTo s.site s = s := by
  cases s; cases hp; rfl

/-! ### (a) Issue -/

/-- A command may stand at its first call, whatever it put into the scratch registers before. -/
theorem Live.first (h : Live c s) (he : s.site = .entry) (x : Site) (hpx : phaseAt x = .run) (hx : asksAffine x = false)
    (hc : commandAt s.ctrl x) (scr : Scratch) (h0 : scr.s0.length ≤ c.half) : Live c (Machine.moveTo x (setScratch scr s)) :=
  h.moveTo he x rfl hpx hx (fun _ => hc) scr h0

theorem issuePubkey_live {x : Site} {t : State} (h : Live c (Machine.moveTo x s)) (ht : issuePubkey c x s = .next t) : Live c t := by
  unfold issuePubkey at ht
  simp only at ht
  split at ht
  · cases ht; exact h.send (i := .cgBase c) rfl s.scratch rfl rfl rfl
  · cases ht; exact h.send (i := .cgMul c _ _) rfl s.scratch rfl rfl rfl
  · cases ht; exact h.send (i := .cgIsId c _) rfl s.scratch ⟨rfl, rfl⟩ rfl rfl
  · cases ht; exact h.send (i := .cgToAffine c _) rfl s.scratch ⟨rfl, h.running.affine rfl⟩ rfl rfl
  · cases ht

theorem issueSign_live {x : Site} {t : State} (h : Live c (Machine.moveTo x s)) (ht : issueSign c x s = .next t) : Live c t := by
  unfold issueSign at ht
  simp only at ht
  split at ht
  · cases ht; exact h.send (i := .cgBase c) rfl s.scratch rfl rfl rfl
  · cases ht; exact h.send (i := .cgMul c _ _) rfl s.scratch rfl rfl rfl
  · cases ht; exact h.send (i := .cgIsId c _) rfl s.scratch ⟨rfl, rfl⟩ rfl rfl
  · cases ht; exact h.send (i := .cgToAffine c _) rfl s.scratch ⟨rfl, h.running.affine rfl⟩ rfl rfl
  · obtain ⟨oid, -, ht⟩ := withOperand_next ht
    obtain ⟨dig, -, ht⟩ := withOperand_next ht
    cases ht; exact h.send (i := .deHash _) rfl s.scratch trivial rfl rfl
  · cases ht; exact h.send (i := .cgFnAdd c _ _) rfl s.scratch rfl rfl rfl
  · obtain ⟨prv, -, ht⟩ := withOperand_next ht
    cases ht; exact h.send (i := .cgFnMul c _ _) rfl _ rfl rfl rfl
  · obtain ⟨dig, -, ht⟩ := withOperand_next ht
    cases ht; exact h.send (i := .cgFnSub c _ _) rfl _ rfl rfl rfl
  · cases ht; exact h.send (i := .cgFnSub c _ _) rfl s.scratch rfl rfl rfl
  · cases ht

theorem issueVerify_live {x : Site} {t : State} (h : Live c (Machine.moveTo x s)) (ht : issueVerify c x s = .next t) : Live c t := by
  unfold issueVerify at ht
  simp only at ht
  split at ht
  · cases ht; exact h.send (i := .cgFromAffine c _ _) rfl s.scratch rfl rfl rfl
  · obtain ⟨dig, -, ht⟩ := withOperand_next ht
    cases ht; exact h.send (i := .cgFnAdd c _ _) rfl _ rfl rfl rfl
  · cases ht; exact h.send (i := .cgFnAdd c _ _) rfl s.scratch rfl rfl rfl
  · cases ht; exact h.send (i := .cgBase c) rfl s.scratch rfl rfl rfl
  · cases ht; exact h.send (i := .cgMul c _ _) rfl s.scratch rfl rfl rfl
  · cases ht; exact h.send (i := .cgMul c _ _) rfl s.scratch rfl rfl rfl
  · cases ht; exact h.send (i := .cgAdd c _ _) rfl s.scratch rfl rfl rfl
  · cases ht; exact h.send (i := .cgIsId c _) rfl s.scratch ⟨rfl, rfl⟩ rfl rfl
  · cases ht; exact h.send (i := .cgToAffine c _) rfl s.scratch ⟨rfl, h.running.affine rfl⟩ rfl rfl
  · obtain ⟨oid, -, ht⟩ := withOperand_next ht
    obtain ⟨dig, -, ht⟩ := withOperand_next ht
    cases ht; exact h.send (i := .deHash _) rfl s.scratch trivial rfl rfl
  · cases ht

/-- The calls of the nonce loop; for the draw, a state that may stand there already waits for the port. -/
theorem issueNonce_live {x : Site} {t : State} (h : Live c (Machine.moveTo x (setPhase (phaseAt x) s)))
    (hs : x ≠ .sgDraw → s.phase = phaseAt x) (ht : issueNonce c x s = .next t) : Live c t := by
  unfold issueNonce at ht
  split at ht
  · obtain ⟨oid, -, ht⟩ := withOperand_next ht
    obtain ⟨prv, -, ht⟩ := withOperand_next ht
    obtain ⟨u, -, ht⟩ := withOperand_next ht
    cases ht
    rw [← hs (by decide), setPhase_self] at h
    exact h.send (i := .deHash _) rfl s.scratch trivial rfl rfl
  · cases ht
    rw [← hs (by decide), setPhase_self] at h
    exact h.send (i := .deStretch _ _) rfl s.scratch (h.running.nonce rfl) rfl rfl
  · cases ht
    exact h.send (i := .entDraw c.len) rfl s.scratch rfl rfl rfl
  · cases ht

theorem hiddenMove_setPhase (x : Site) (p : Phase) (scr : Scratch) (s : State) :
    HiddenMove s (moveTo x (setPhase p (setScratch scr s))) := by
  constructor <;> first | rfl | exact .inl rfl

/-- From the beginning of SIGN to its draw. -/
theorem Live.firstDraw (h : Live c s) (hc : commandAt s.ctrl .sgDraw) :
    Live c (Machine.moveTo .sgDraw (setPhase .waitEnt s)) :=
  .of_hiddenMove h.running (hiddenMove_setPhase .sgDraw .waitEnt s.scratch s) rfl hc nofun nofun nofun h.running.s0

/-- From the beginning of GENK or SIGN to the nonce loop. -/
theorem firstNonceHash_live {t : State} (h : Live c s) (he : s.site = .entry) (hc : commandAt s.ctrl .nonceHash)
    (ht : issueNonce c .nonceHash s = .next t) : Live c t := by
  have hp : s.phase = .run := by rw [h.phase, he]; rfl
  refine issueNonce_live (x := .nonceHash) ?_ (fun _ => hp) ht
  rw [show phaseAt .nonceHash = s.phase from hp.symm, setPhase_self]
  exact h.first he .nonceHash rfl rfl hc s.scratch h.running.s0

theorem enterPubkey_live {t : State} (h : Live c s) (he : s.site = .entry) (hc : s.ctrl.cmd = 1)
    (ht : enterPubkey c s = .next t) : Live c t := by
  obtain ⟨prv, -, ht⟩ := withOperand_next ht
  refine issuePubkey_live ?_ ht
  exact h.first he .pkBase rfl rfl hc _ h.running.s0

theorem enterSign_live {t : State} (h : Live c s) (he : s.site = .entry) (hc : s.ctrl.cmd = 3)
    (ht : enterSign c s = .next t) : Live c t := by
  unfold enterSign at ht
  split at ht
  · obtain ⟨kb, -, ht⟩ := withOperand_next ht
    refine issueSign_live ?_ ht
    exact h.first he .sgBase rfl rfl hc _ h.running.s0
  · rename_i hk
    split at ht
    · rename_i hm
      exact issueNonce_live (h.firstDraw ⟨hc, by simpa using hk, hm⟩) (fun hx => absurd rfl hx) ht
    · rename_i hm
      exact firstNonceHash_live h he (.inr ⟨hc, by simpa using hk, by simpa using hm⟩) ht

/-- VERIFY from its step 3 on, with S0 and S1 in the scratch registers. -/
theorem enterVerifyKey_legal {t : State} (h : Live c s) (he : s.site = .entry) (hc : s.ctrl.cmd = 4) (scr : Scratch)
    (h0 : scr.s0.length ≤ c.half) (ht : enterVerifyKey c (setScratch scr s) = .next t) : LegalMove c s t := by
  unfold enterVerifyKey at ht
  split at ht
  · cases ht; exact legalMove_raiseErr c _ (setScratch scr s)
  · obtain ⟨tag, -, ht⟩ := withOperand_next ht
    split at ht
    · cases ht; exact legalMove_raiseErr c _ (setScratch scr s)
    · obtain ⟨xy, -, ht⟩ := withOperand_next ht
      refine .inl (issueVerify_live ?_ ht)
      exact h.first he .vfFromAffine rfl rfl hc _ h0

theorem enterVerify_legal {t : State} (h : Live c s) (he : s.site = .entry) (hc : s.ctrl.cmd = 4)
    (ht : enterVerify c s = .next t) : LegalMove c s t := by
  unfold enterVerify at ht
  split at ht
  · cases ht; exact legalMove_finishCommand c _ s
  · obtain ⟨sig, -, ht⟩ := withOperand_next ht
    simp only at ht
    split at ht
    · cases ht; exact legalMove_finishCommand c _ s
    · exact enterVerifyKey_legal h he hc _ (List.length_take_le _ _) ht

theorem enterCommand_legal {t : State} (h : Live c s) (he : s.site = .entry) (ht : enterCommand c s = .next t) :
    LegalMove c s t := by
  unfold enterCommand at ht
  split at ht
  · rename_i hc; exact .inl (enterPubkey_live h he (BitVec.eq_of_toNat_eq hc) ht)
  · rename_i hc; exact .inl (firstNonceHash_live h he (.inl (BitVec.eq_of_toNat_eq hc)) ht)
  · rename_i hc; exact .inl (enterSign_live h he (BitVec.eq_of_toNat_eq hc) ht)
  · rename_i hc; exact enterVerify_legal h he (BitVec.eq_of_toNat_eq hc) ht
  · cases ht

/-- The issue step of a running command is a legal move. -/
theorem advance_legal {t : State} (h : Live c s) (hp : s.port = none) (ht : advance s = .next t) : LegalMove c s t := by
  rw [advance_eq h.running.curve] at ht
  have hself : Live c (Machine.moveTo s.site s) := by rw [moveTo_self hp]; exact h
  unfold issueAt at ht
  split at ht
  · rename_i he; exact enterCommand_legal h he ht
  -- the places of PUBKEY, of the nonce loop and the draw, of SIGN, of VERIFY
  iterate 4 exact .inl (issuePubkey_live hself ht)
  iterate 3
    refine .inl (issueNonce_live (x := s.site) ?_ (fun _ => h.phase) ht)
    rw [← h.phase, setPhase_self]
    exact hself
  iterate 9 exact .inl (issueSign_live hself ht)
  iterate 10 exact .inl (issueVerify_live hself ht)

/-! ### (b) Respond -/

theorem afterBase_live {P : Pt} {t : State} (h : Live c s) (ht : afterBase P s = .next t) : Live c t := by
  unfold afterBase at ht
  simp only at ht
  split at ht <;> rename_i hs <;> cases ht
  · exact h.moveTo hs .pkMul rfl rfl rfl id _ h.running.s0
  · exact h.moveTo hs .sgMul rfl rfl rfl id _ h.running.s0
  · exact h.moveTo hs .vfMulQ rfl rfl rfl id _ h.running.s0

theorem orRaise_legal {code : ErrCode} {P : Option Pt} {k : Pt → State} (h : ∀ Q, Live c (k Q)) :
    LegalMove c s (orRaise code P s k) := by
  cases P with
  | none => exact legalMove_raiseErr c code s
  | some Q => exact .inl (h Q)

theorem afterMulQ_live (h : Live c s) (hs : s.site = .vfMulQ) (Q : Pt) : Live c (afterMulQ Q s) := by
  unfold afterMulQ
  split
  · exact h.moveTo hs .vfIsId rfl rfl rfl id _ h.running.s0
  · exact h.moveTo hs .vfMulG rfl rfl rfl id _ h.running.s0

theorem afterMul_legal {P : Option Pt} {t : State} (h : Live c s) (ht : afterMul P s = .next t) : LegalMove c s t := by
  unfold afterMul at ht
  split at ht <;> rename_i hs <;> cases ht
  · exact orRaise_legal fun Q => h.moveTo hs .pkIsId rfl rfl rfl id _ h.running.s0
  · exact orRaise_legal fun Q => h.moveTo hs .sgIsId rfl rfl rfl id _ h.running.s0
  · exact orRaise_legal fun Q => afterMulQ_live h hs Q
  · exact orRaise_legal fun Q => h.moveTo hs .vfAdd rfl rfl rfl id _ h.running.s0

theorem afterAdd_live {P : Pt} {t : State} (h : Live c s) (ht : afterAdd P s = .next t) : Live c t := by
  unfold afterAdd at ht
  split at ht <;> rename_i hs <;> cases ht
  exact h.moveTo hs .vfIsId rfl rfl rfl id _ h.running.s0

theorem afterFromAffine_legal {P : Option Pt} {t : State} (h : Live c s) (ht : afterFromAffine P s = .next t) :
    LegalMove c s t := by
  unfold afterFromAffine at ht
  split at ht <;> rename_i hs <;> cases ht
  exact orRaise_legal fun Q => h.moveTo hs .vfAddE rfl rfl rfl id _ h.running.s0

/-- The test of a point: coordinates are asked only where it is not `O` (40_primitives.md R88). -/
theorem afterIsId_legal {z : Bool} {t : State} (h : Live c s) (hz : z = false → s.scratch.ptR ≠ .infinity)
    (ht : afterIsId z s = .next t) : LegalMove c s t := by
  unfold afterIsId at ht
  split at ht <;> rename_i hs <;> cases ht <;> cases z
  · exact .inl (h.moveTo_affine hs .pkToAffine rfl rfl id s.scratch h.running.s0 fun _ => hz rfl)
  · exact legalMove_raiseErr c _ s
  · exact .inl (h.moveTo_affine hs .sgToAffine rfl rfl id s.scratch h.running.s0 fun _ => hz rfl)
  · exact legalMove_raiseErr c _ s
  · exact .inl (h.moveTo_affine hs .vfToAffine rfl rfl id s.scratch h.running.s0 fun _ => hz rfl)
  · exact legalMove_finishCommand c _ s

/-- PUBLEN bytes fit PUB (10_state.md R30). -/
theorem completePubkey_fits (c : CurveId) (x y : Nat) (s : State) (h : InBuffers s) : InBuffers (completePubkey c x y s) :=
  (h.writeBuffer .pub (encPub c x y) (by cases c <;> simp [encPub, bufferSize, CurveId.len])).congr rfl rfl

/-- SIGLEN bytes fit SIG (10_state.md R30). -/
theorem completeSign_fits (c : CurveId) (s0 : Bytes) (s1 : Nat) (s : State) (h0 : s0.length ≤ c.half) (h : InBuffers s) :
    InBuffers (completeSign c s0 s1 s) := by
  refine (h.writeBuffer .sig (encSig c s0 s1) ?_).congr rfl rfl
  rw [encSig, List.length_append, leBytes_length]
  cases c <;> simp only [CurveId.half, CurveId.len, bufferSize] at * <;> omega

/-- A candidate of L bytes fits K (10_state.md R30). -/
theorem completeGenk_fits (c : CurveId) (kb : Bytes) (s : State) (hk : kb.length = c.len) (h : InBuffers s) :
    InBuffers (completeGenk kb s) :=
  (h.writeBuffer .k kb (by rw [hk]; cases c <;> decide)).congr rfl rfl

theorem afterToAffine_legal {x y : Nat} {c' : CurveId} {t : State} (h : Live c s) (ht : afterToAffine c' x y s = .next t) :
    LegalMove c s t := by
  unfold afterToAffine at ht
  split at ht <;> rename_i hs <;> cases ht
  · exact .inr ⟨stopped_finishCommand _ _, completePubkey_fits c' x y s⟩
  · exact .inl (h.moveTo hs .sgHash rfl rfl rfl id _ h.running.s0)
  · exact .inl (h.moveTo hs .vfHash rfl rfl rfl id _ h.running.s0)

theorem afterFnAdd_live {a : Nat} {t : State} (h : Live c s) (ht : afterFnAdd a s = .next t) : Live c t := by
  unfold afterFnAdd at ht
  split at ht <;> rename_i hs <;> cases ht
  · exact h.moveTo hs .sgMulD rfl rfl rfl id _ h.running.s0
  · exact h.moveTo hs .vfAddW rfl rfl rfl id _ h.running.s0
  · exact h.moveTo hs .vfBase rfl rfl rfl id _ h.running.s0

theorem afterFnMul_live {a : Nat} {t : State} (h : Live c s) (ht : afterFnMul a s = .next t) : Live c t := by
  unfold afterFnMul at ht
  split at ht <;> rename_i hs <;> cases ht
  exact h.moveTo hs .sgSubE rfl rfl rfl id _ h.running.s0

theorem afterFnSub_legal {a : Nat} {t : State} (h : Live c s) (ht : afterFnSub c a s = .next t) : LegalMove c s t := by
  unfold afterFnSub at ht
  split at ht <;> rename_i hs <;> cases ht
  · exact .inl (h.moveTo hs .sgSubT rfl rfl rfl id _ h.running.s0)
  · exact .inr ⟨stopped_finishCommand _ _, completeSign_fits c _ a s h.running.s0⟩

/-- The digest that starts the nonce loop has L bytes: DIGEST_LEN = L in GENK (42_genk.md R108). -/
theorem readNonceDigest_length {dig : Bytes} (h : lengthsOk c s = true) (hd : readNonceDigest c s = some dig) :
    dig.length = c.len := by
  unfold readNonceDigest at hd
  split at hd
  · rename_i hc
    rw [readBytes_length hd, ((lengthsOk_genk hc).1 h).1]
  · exact readBytes_length hd

theorem afterHash_legal {m : Bytes} {t : State} (h : Live c s) (ht : afterHash (Config.hash m) s = .next t) : LegalMove c s t := by
  unfold afterHash at ht
  rw [withCurve_some h.running.curve] at ht
  split at ht <;> rename_i hs
  · obtain ⟨dig, hd, ht⟩ := withOperand_next ht
    cases ht
    have hm : HiddenMove s (moveTo .nonceStretch (setPhase .loop (setNonce (Config.hash m) dig s))) := by
      constructor <;> first | rfl | exact .inl rfl
    have hcmd : commandAt s.ctrl .nonceHash := hs ▸ h.running.command
    exact .inl (.of_hiddenMove h.running hm rfl hcmd nofun
      (fun _ => ⟨hash_length m, readNonceDigest_length h.running.lengths hd⟩) nofun h.running.s0)
  · cases ht
    exact .inl (h.moveTo hs .sgAddW rfl rfl rfl id _ (List.length_take_le _ _))
  · cases ht; exact legalMove_finishCommand c _ s
  · cases ht

/-- An accepted candidate: GENK stores it in K, SIGN goes on with it. -/
theorem nonceReturn_legal {kb : Bytes} (h : Live c s) (hs : s.site = .nonceStretch) (hk : kb.length = c.len) :
    LegalMove c s (nonceReturn kb s) := by
  unfold nonceReturn
  split
  · exact .inr ⟨stopped_finishCommand _ _, completeGenk_fits c kb s hk⟩
  · rename_i hc
    have hcmd : commandAt s.ctrl .nonceStretch := hs ▸ h.running.command
    exact .inl (.of_hiddenMove h.running (hiddenMove_setPhase .sgBase .run (chooseKey kb s).scratch s) rfl
      (hcmd.resolve_left hc).1 nofun nofun nofun h.running.s0)

theorem nonceTest_legal {cand : Bytes} (h : Live c s) (hs : s.site = .nonceStretch) (hk : cand.length = c.len) :
    LegalMove c s (nonceTest c cand s) := by
  unfold nonceTest
  split
  · exact nonceReturn_legal h hs hk
  · split
    · exact legalMove_raiseErr c _ s
    · exact .inl (.of_hiddenMove h.running (hiddenMove_moveTo .nonceStretch s.scratch s) (hs ▸ h.phase)
        (hs ▸ h.running.command) nofun (fun _ => h.running.nonce hs) nofun h.running.s0)

/-- Inside the loop CAND and ITER_COUNT change alone. -/
theorem Live.iteration {cand : Bytes} (h : Live c s) (hs : s.site = .nonceStretch) (hk : cand.length = c.len) (i : BitVec 32) :
    Live c (setIterCount i (setNonce s.theta cand s)) where
  running := { h.running with nonce := fun _ => ⟨(h.running.nonce hs).1, hk⟩ }
  phase := h.phase

theorem afterStretch_legal {cand : Bytes} {t : State} (h : Live c s) (hk : cand.length = c.len)
    (ht : afterStretch cand s = .next t) : LegalMove c s t := by
  unfold afterStretch at ht
  rw [withCurve_some h.running.curve] at ht
  split at ht <;> rename_i hs <;> cases ht
  exact nonceTest_legal (h.iteration hs hk _) hs hk

theorem afterDraw_live {b : Bytes} {t : State} (h : Live c s) (ht : afterDraw b s = .next t) : Live c t := by
  have hm : HiddenMove s t := afterDraw_frame ht
  unfold afterDraw at ht
  split at ht <;> rename_i hs <;> cases ht
  have hcmd : commandAt s.ctrl .sgDraw := hs ▸ h.running.command
  exact .of_hiddenMove h.running hm rfl hcmd.1 nofun nofun nofun h.running.s0

end

end Sys2Proof.Machine
end

section
/-! PROOFS (10_state.md R30, R33 to R36). The controller stays legal over every step, and every byte stays inside the buffers. -/

namespace Sys2Proof.Machine

open Sys2Proof

/-! ### The answer to an outstanding request -/

section
variable {c : CurveId} {s t : State}

/-- The answer is received, or nothing happens. -/
theorem LegalMove.of_receive {r : PortReq} {k : State → Result} (h : Live c s) (hk : k s = .next t → LegalMove c s t)
    (ht : receive r s k = .next t) : LegalMove c s t := by
  rcases receive_next ht with ⟨-, ht⟩ | ⟨-, rfl⟩
  · exact hk ht
  · exact .inl h

theorem sentAt_cgIsId {r : Scratch} {x : Site} {c' : CurveId} {P : Pt} (h : sentAt c r x (.cgIsId c' P)) : P = r.ptR := by
  cases x <;> first | exact h.2 | exact h.elim

theorem sentAt_cgFnSub {r : Scratch} {x : Site} {c' : CurveId} {a b : Nat} (h : sentAt c r x (.cgFnSub c' a b)) : c' = c := by
  cases x <;> first | exact h | exact h.elim

theorem sentAt_deStretch {r : Scratch} {x : Site} {key b : Bytes} (h : sentAt c r x (.deStretch key b)) : b.length = c.len := by
  cases x <;> first | exact h.2 | exact h.elim

/-- The response step of a running command is a legal move, where the request is the one its place sends. -/
theorem exec_legal {i : Instr} (h : Live c s) (hs : sentAt c s.scratch s.site i) (hi : isPortInstr i = true)
    (ht : exec i s = .next t) : LegalMove c s t := by
  cases i with
  | cgBase c' => exact .of_receive h (fun ht => .inl (afterBase_live h ht)) ht
  | cgMul c' P k => exact .of_receive h (afterMul_legal h) ht
  | cgAdd c' P Q => exact .of_receive h (fun ht => .inl (afterAdd_live h ht)) ht
  | cgFromAffine c' x y => exact .of_receive h (afterFromAffine_legal h) ht
  | cgIsId c' P =>
    refine .of_receive h (afterIsId_legal h fun hz => ?_) ht
    rw [← sentAt_cgIsId hs]
    exact ne_of_beq_false hz
  | cgToAffine c' P =>
    simp only [exec, execCgToAffine] at ht
    refine .of_receive h (fun ht => ?_) ht
    cases P with
    | infinity => cases ht
    | finite k => exact afterToAffine_legal h ht
  | cgFnAdd c' a b => exact .of_receive h (fun ht => .inl (afterFnAdd_live h ht)) ht
  | cgFnSub c' a b =>
    cases sentAt_cgFnSub hs
    exact .of_receive h (afterFnSub_legal h) ht
  | cgFnMul c' a b => exact .of_receive h (fun ht => .inl (afterFnMul_live h ht)) ht
  | deHash m => exact .of_receive h (afterHash_legal h) ht
  | deStretch key b =>
    exact .of_receive h (afterStretch_legal h (by rw [stretch_length, sentAt_deStretch hs])) ht
  | entDraw m => exact .of_receive h (fun ht => .inl (afterDraw_live h ht)) ht
  | pubkey | genk | sign | verify | reservedCmd0 | reservedCmd5 | reservedCmd6 | reservedCmd7 | cfg | abort | doneClr => cases hi

/-- The row decoded from the outstanding request is the one the place sends. -/
theorem RunningOk.sent {r : PortReq} {i : Instr} (h : RunningOk c s) (hp : s.port = some r) (hd : decodePort r = .ok i) :
    sentAt c s.scratch s.site i := by
  obtain ⟨j, he, hs⟩ := h.request r hp
  rw [decodePort_of_encode he] at hd
  cases hd
  exact hs

end

/-! ### Steps that do not move the controller -/

/-- `t` holds the same command as `s`: IE, STATUS, the memory, SIG_LEN, PUB_LEN, NONCE_CAP, ITER_COUNT and the model's own fields may
differ. -/
structure SameCommand (s t : State) : Prop where
  ctrl : ∃ ie, t.ctrl = { s.ctrl with ie := ie }
  digestLen : t.digestLen = s.digestLen
  tLen : t.tLen = s.tLen
  oidLen : t.oidLen = s.oidLen
  phase : t.phase = s.phase
  site : t.site = s.site
  theta : t.theta = s.theta
  cand : t.cand = s.cand
  scratch : t.scratch = s.scratch
  port : t.port = s.port

theorem commandAt_setIe (k : Ctrl) (ie : Bool) (x : Site) : commandAt { k with ie := ie } x = commandAt k x := by
  cases x <;> rfl

theorem SameCommand.lengthsOk {s t : State} (h : SameCommand s t) (c : CurveId) : lengthsOk c t = lengthsOk c s := by
  obtain ⟨ie, hctrl⟩ := h.ctrl
  unfold Machine.lengthsOk oidLenOk
  rw [hctrl, h.digestLen, h.tLen, h.oidLen]

theorem RunningOk.congr {c : CurveId} {s t : State} (h : RunningOk c s) (he : SameCommand s t) : RunningOk c t := by
  obtain ⟨ie, hctrl⟩ := he.ctrl
  constructor
  case curve => rw [hctrl]; exact h.curve
  case command => rw [hctrl, he.site, commandAt_setIe]; exact h.command
  case lengths => rw [he.lengthsOk]; exact h.lengths
  case request => rw [he.port, he.scratch, he.site]; exact h.request
  case waiting => rw [he.phase, he.site]; exact h.waiting
  case looping => rw [he.phase, he.site]; exact h.looping
  case nonce => rw [he.site, he.theta, he.cand]; exact h.nonce
  case affine => rw [he.site, he.scratch]; exact h.affine
  case s0 => rw [he.scratch]; exact h.s0

theorem ControllerOk.congr {s t : State} (h : ControllerOk s) (he : SameCommand s t) : ControllerOk t := by
  refine ⟨?_, ?_⟩ <;> rw [he.phase]
  · rw [he.site, he.port, he.scratch]; exact h.idle
  · exact fun hb => (h.running hb).imp fun c hc => hc.congr he

/-- An idle controller is legal whatever the registers and buffers hold. -/
theorem ControllerOk.of_idle {s t : State} (h : ControllerOk s) (hb : s.busy = false) (hp : t.phase = s.phase) (hs : t.site = s.site)
    (hport : t.port = s.port) (hscr : t.scratch = s.scratch) : ControllerOk t := by
  have hi := (busy_eq_false_iff s).1 hb
  obtain ⟨hsite, hnone, hscratch⟩ := h.idle hi
  exact Stopped.controllerOk ⟨hp.trans hi, hs.trans hsite, hport.trans hnone, hscr.trans hscratch⟩

theorem sameCommand_takeEvent (s : State) : SameCommand s (takeEvent s) := by
  refine ⟨⟨s.ctrl.ie, ?_⟩, ?_, ?_, ?_, ?_, ?_, ?_, ?_, ?_, ?_⟩ <;> simp

/-- A START that passes its checks begins a legal command; a rejected one leaves the controller idle (45_control.md R129, R130). -/
theorem ControllerOk.startAttempt {s : State} (h : ControllerOk s) (hb : s.busy = false) : ControllerOk (startAttempt s) := by
  rcases startAttempt_cases s with ⟨code, -, ht⟩ | ⟨hc, ht⟩ <;> rw [ht]
  · exact h.of_idle hb rfl rfl rfl rfl
  · obtain ⟨-, hport, hscr⟩ := h.idle ((busy_eq_false_iff s).1 hb)
    unfold startCheck at hc
    split at hc
    · cases hc
    · rename_i hcmd
      split at hc
      · cases hc
      · rename_i c hcurve
        split at hc
        · rename_i hlen
          refine ⟨nofun, fun _ => ⟨c, ?_⟩⟩
          exact {
            curve := hcurve
            command := Bool.eq_false_iff.2 hcmd
            lengths := hlen
            request := fun r hr => by cases hport.symm.trans hr
            waiting := ⟨nofun, nofun⟩
            looping := ⟨nofun, nofun⟩
            nonce := nofun
            affine := nofun
            s0 := by
              rw [show (acceptStart s).scratch = Scratch.none from hscr]
              exact Nat.zero_le _ }
        · cases hc

/-- A write that is not refused does not touch a running command; an idle block has none. -/
theorem ControllerOk.writeData {s : State} (h : ControllerOk s) {w : Width} {off : BitVec 12} (v : Word)
    (hr : refusesWrite w off s = false) : ControllerOk (writeData w off v s) := by
  cases hb : s.busy with
  | true => rw [writeData_busy_self v hb hr]; exact h
  | false => exact h.of_idle hb (by simp) (by simp) (by simp) (by simp)

/-! ### Every step -/

/-- A controller step is a legal move from the state whose event is taken. -/
theorem issued_legal {s t : State} (h : ControllerOk (takeEvent s)) (hb : s.busy = true) (hp : s.port = none)
    (ht : advance (takeEvent s) = .next t) : ∃ c, LegalMove c (takeEvent s) t := by
  have hphase : (takeEvent s).phase ≠ .idle := (busy_iff _).1 (by simpa using hb)
  obtain ⟨c, hc⟩ := h.running hphase
  exact ⟨c, advance_legal (.of_running hc hphase) (by simpa using hp) ht⟩

theorem answered_legal {s t : State} {r : PortReq} {i : Instr} (h : ControllerOk (takeEvent s)) (hb : s.busy = true)
    (hp : s.port = some r) (hd : decodePort r = .ok i) (ht : exec i (takeEvent s) = .next t) : ∃ c, LegalMove c (takeEvent s) t := by
  have hphase : (takeEvent s).phase ≠ .idle := (busy_iff _).1 (by simpa using hb)
  obtain ⟨c, hc⟩ := h.running hphase
  exact ⟨c, exec_legal (.of_running hc hphase) (hc.sent (by simpa using hp) hd) (decodePort_isPort hd) ht⟩

theorem LegalMove.controllerOk {c : CurveId} {s t : State} (h : LegalMove c s t) : ControllerOk t :=
  h.elim Live.controllerOk fun h => h.1.controllerOk

theorem ControllerOk.step {s t : State} (h : ControllerOk s) (hs : StepOrigin s t) : ControllerOk t := by
  have htaken : ControllerOk (takeEvent s) := h.congr (sameCommand_takeEvent s)
  cases hs with
  | stutter => exact h
  | took => exact htaken
  | start cmd f hb =>
    have hidle : (takeEvent s).busy = false := by simpa using hb
    exact ControllerOk.startAttempt (htaken.of_idle hidle rfl rfl rfl rfl) hidle
  | configure cmd f hb => exact htaken.of_idle (by simpa using hb) rfl rfl rfl rfl
  | busyWrite ie => exact htaken.congr ⟨⟨ie, rfl⟩, rfl, rfl, rfl, rfl, rfl, rfl, rfl, rfl, rfl⟩
  | aborted ie => exact (stopped_raiseErr _ _).controllerOk
  | cleared => exact htaken.congr ⟨⟨_, rfl⟩, rfl, rfl, rfl, rfl, rfl, rfl, rfl, rfl, rfl⟩
  | issued _ hb hp ht => exact (issued_legal htaken hb hp ht).elim fun _ => LegalMove.controllerOk
  | answered r i _ hb hp hd ht => exact (answered_legal htaken hb hp hd ht).elim fun _ => LegalMove.controllerOk
  | responded r => exact htaken.congr ⟨⟨_, rfl⟩, rfl, rfl, rfl, rfl, rfl, rfl, rfl, rfl, rfl⟩
  | written w off v hr =>
    have hw := htaken.writeData v ((refusesWrite_takeEvent w off s).trans hr)
    exact hw.congr ⟨⟨_, rfl⟩, rfl, rfl, rfl, rfl, rfl, rfl, rfl, rfl, rfl⟩
  | reset => exact Stopped.controllerOk ⟨rfl, rfl, rfl, rfl⟩

/-- Settles O52: a host step keeps the command, begins one that passed its checks or ends it, and a controller step goes to the next place
of the command's rule. -/
theorem stepKeepsControllerLegal : Obligations.StepKeepsControllerLegal := fun _ _ h hs => h.step (step_origin hs)

/-! ### Bytes inside the buffers -/

/-- A legal move leaves the memory, or stores an output inside its buffer. -/
theorem LegalMove.inBuffers {c : CurveId} {s t : State} (h : LegalMove c s t) (hf : ControllerFrame s t) (hs : InBuffers s) :
    InBuffers t := by
  rcases h with hl | ⟨-, hfits⟩
  · rcases hf with rfl | hm | he
    · exact hs
    · exact hs.congr hm.mem hm.marks
    · exact absurd he.phase hl.phase_ne_idle
  · exact hfits hs

/-- Reset clears the marks and keeps the bytes (70_reset_and_hazards.md R157). -/
theorem InBuffers.resetBlock {s : State} (h : InBuffers s) : InBuffers (resetBlock s) := ⟨h.1, nofun⟩

theorem InBuffers.writeData {s : State} (h : InBuffers s) {w : Width} {off : BitVec 12} (v : Word)
    (hr : refusesWrite w off s = false) : InBuffers (writeData w off v s) := by
  unfold Machine.writeData
  split
  · exact h.congr (by simp) (by simp)
  · rename_i hreg
    have haccess : refusesAccess w off = false := by
      unfold refusesWrite at hr
      exact (Bool.or_eq_false_iff.1 hr).1
    exact h.writeLanes _ _ _ (buffer_access haccess (Bool.eq_false_iff.2 hreg))

theorem InBuffers.step {s t : State} (hc : ControllerOk s) (h : InBuffers s) (hs : StepOrigin s t) : InBuffers t := by
  have hok : ControllerOk (takeEvent s) := hc.congr (sameCommand_takeEvent s)
  have htaken : InBuffers (takeEvent s) := h.congr (by simp) (by simp)
  cases hs with
  | stutter => exact h
  | took => exact htaken
  | start cmd f => exact htaken.congr (by simp) (by simp)
  | configure cmd f => exact htaken.congr rfl rfl
  | busyWrite ie => exact htaken.congr rfl rfl
  | aborted ie => exact htaken.congr rfl rfl
  | cleared => exact htaken.congr rfl rfl
  | issued _ hb hp ht =>
    obtain ⟨c, hl⟩ := issued_legal hok hb hp ht
    exact hl.inBuffers (.inr (advance_frame ht)) htaken
  | answered r i _ hb hp hd ht =>
    obtain ⟨c, hl⟩ := answered_legal hok hb hp hd ht
    exact hl.inBuffers (exec_port_frame (decodePort_isPort hd) ht) htaken
  | responded r => exact htaken.congr rfl rfl
  | written w off v hr =>
    exact (htaken.writeData v ((refusesWrite_takeEvent w off s).trans hr)).congr rfl rfl
  | reset => exact htaken.resetBlock

/-- Settles O53: the host writes mapped bytes alone, and a command's output has the length of its framing (30_encoding.md R63). -/
theorem stepKeepsBytesInBuffers : Obligations.StepKeepsBytesInBuffers := fun _ _ hc h hs => h.step hc (step_origin hs)

/-- Settles O49: nothing is listed, marked, live or pending after reset. -/
theorem resetIsSafe : Obligations.ResetIsSafe :=
  ⟨⟨reset_mem_wf.1, reset_mem_wf.2, nofun⟩, ⟨nofun, nofun⟩, .of_idle rfl nofun, Stopped.controllerOk ⟨rfl, rfl, rfl, rfl⟩⟩

end Sys2Proof.Machine
end

section
/-! PROOFS (10_state.md R18 to R32, 60_exceptions.md R140, R146). The register window: the words of CTRL and STATUS, what a register access
and a buffer access give and store, reset, and what the ends of a command leave. -/

namespace Sys2Proof.Machine

open Sys2Proof

/-! ### The words of STATUS and CTRL -/

/-- The flags of STATUS (10_state.md R21). -/
theorem statusWord_flags (s : State) :
    (statusWord s).getLsbD 0 = s.busy ∧ (statusWord s).getLsbD 1 = s.done ∧ (statusWord s).getLsbD 2 = s.valid ∧
    (statusWord s).getLsbD 3 = false := by
  simp only [statusWord, BitVec.getLsbD_append]
  simp

/-- STATUS.ERR, bits 7:4 (10_state.md R21). -/
theorem statusWord_err (s : State) : (statusWord s).extractLsb' 4 4 = errBits s.err := by
  simp (disch := decide) only [statusWord, BitVec.extractLsb'_append_eq_of_le]
  exact BitVec.extractLsb'_append_eq_right

/-- Bits 31:8 of STATUS read 0 (10_state.md R21). -/
theorem statusWord_reserved (s : State) : (statusWord s).extractLsb' 8 24 = 0 := by
  simp (disch := decide) only [statusWord, BitVec.extractLsb'_append_eq_of_le]
  exact BitVec.extractLsb'_eq_self

/-- Settles O17: the word of STATUS field by field. -/
theorem statusWordFields : Obligations.StatusWordFields := by
  intro s
  obtain ⟨hbusy, hdone, hvalid, hzero⟩ := statusWord_flags s
  refine ⟨hbusy.trans ?_, hdone, hvalid, hzero, statusWord_reserved s, (statusWord_err s).trans ?_⟩
  · rw [Bool.eq_iff_iff, busy_iff, decide_eq_true_iff]
  · cases s.err <;> rfl

/-- Bits 31:11 of a CTRL word are 0 (10_state.md R20). -/
theorem ctrlWord_reserved (cmd : BitVec 3) (f : CtrlFields) (a b : Bool) : (ctrlWord cmd f a b).extractLsb' 11 21 = 0 := by
  simp (disch := decide) only [ctrlWord, BitVec.extractLsb'_append_eq_of_le]
  exact BitVec.extractLsb'_eq_self

/-! ### Register accesses -/

/-- A 4-byte access to a word of the register range is no bus error but by the busy lock. -/
theorem refusesAccess_register {off : BitVec 12} (ha : off.toNat % 4 = 0) (hr : off.toNat < 0x028) :
    refusesAccess .four off = false ∧ inRegisters off.toNat = true := by
  have hmap : allMapped off.toNat 4 = true := (allMapped_iff _ _).2 fun i hi => by
    simp only [isMapped, inRegisters, Bool.or_eq_true, decide_eq_true_eq]
    omega
  have hreg : inRegisters off.toNat = true := decide_eq_true hr
  exact ⟨by simp [refusesAccess, widthBytes, ha, hmap], hreg⟩

/-- A register does not depend on the schedule. -/
theorem readRegister_afterEvent (s : State) (es : List Event) (o : Nat) :
    readRegister { s with events := es } o = readRegister s o := rfl

/-- A 4-byte register read gives the register's word and changes the response alone (20_memory.md R46). -/
theorem step_readRegister {s : State} {off : BitVec 12} {es : List Event} (h : s.events = .read .four off :: es)
    (ha : off.toNat % 4 = 0) (hr : off.toNat < 0x028) :
    step s = .next { s with events := es, response := .data (readRegister s off.toNat) } := by
  obtain ⟨haccess, hreg⟩ := refusesAccess_register ha hr
  rw [step_read h, busRead, haccess, if_neg Bool.false_ne_true, readData, hreg, if_pos rfl, readRegister_afterEvent]
  rfl

/-- A 4-byte write of a register other than CTRL and STATUS that the busy lock lets through (20_memory.md R47, R49). -/
theorem step_writeRegister {s : State} {off : BitVec 12} {v : Word} {es : List Event} (h : s.events = .write .four off v :: es)
    (ha : off.toNat % 4 = 0) (hr : off.toNat < 0x028) (hn : off ≠ ctrlOffset ∧ off ≠ statusOffset)
    (hl : s.busy = false ∨ isLocked off = false) :
    step s = .next (respond .written
      (writeRegister off.toNat v { s with events := es, epoch := s.epoch + 1, response := .written })) := by
  obtain ⟨haccess, hreg⟩ := refusesAccess_register ha hr
  have hlock : (s.busy && isLocked off) = false := Bool.and_eq_false_iff.2 hl
  have hrefuse : refusesWrite .four off { s with events := es, epoch := s.epoch + 1, response := .written } = false :=
    Bool.or_eq_false_iff.2 ⟨haccess, hlock⟩
  rw [step_write h fun _ => hn, busWrite, hrefuse, if_neg Bool.false_ne_true, writeData, hreg, if_pos rfl]

theorem lengthField_eq (v : Word) : lengthField v = v.setWidth 8 := (BitVec.setWidth_eq_extractLsb' (by decide)).symm

/-- Settles O20: ID and ITER_COUNT are outside the busy lock and store nothing; the others store their field while idle. -/
theorem registerWrites : Obligations.RegisterWrites := by
  intro s v es after
  refine ⟨fun h => ?_, fun h => ?_, fun hb => ⟨fun h => ?_, fun h => ?_, fun h => ?_, fun h => ?_, fun h => ?_, fun h => ?_⟩⟩
  · exact step_writeRegister h (by decide) (by decide) (by decide) (.inr (by decide))
  · exact step_writeRegister h (by decide) (by decide) (by decide) (.inr (by decide))
  all_goals
    rw [step_writeRegister h (by decide) (by decide) (by decide) (.inl hb)]
  iterate 5
    rw [← lengthField_eq]
    rfl
  rfl

/-- A length register reads zero-extended (10_state.md R23 to R27). -/
theorem setWidth_eq_zeros_append (b : Byte) : b.setWidth 32 = 0#24 ++ b := BitVec.setWidth_eq_append (by decide)

/-- Settles O21: a read of each register, and the fields of CTRL read back from its word. -/
theorem registerReads : Obligations.RegisterReads := by
  intro s es gives
  have hgives : ∀ (off : BitVec 12) (v : Word), off.toNat % 4 = 0 → off.toNat < 0x028 → readRegister s off.toNat = v →
      gives off v :=
    fun off v ha hr hv h => hv ▸ step_readRegister h ha hr
  have hcmd := ctrlCmd_ctrlWord s.ctrl.cmd ⟨s.ctrl.curve, s.ctrl.mode, s.ctrl.ksup, s.ctrl.oidsel, s.ctrl.ie⟩ false false
  have hfields := ctrlFields_ctrlWord s.ctrl.cmd ⟨s.ctrl.curve, s.ctrl.mode, s.ctrl.ksup, s.ctrl.oidsel, s.ctrl.ie⟩ false false
  obtain ⟨hstart, habort, hie⟩ :=
    ctrlWord_bits s.ctrl.cmd ⟨s.ctrl.curve, s.ctrl.mode, s.ctrl.ksup, s.ctrl.oidsel, s.ctrl.ie⟩ false false
  obtain ⟨hcurve, hmode, hksup, hoidsel, -⟩ := CtrlFields.mk.inj hfields
  refine ⟨?_, ?_, ?_, ?_, ?_, ?_, ?_, ?_, ?_, ?_, hstart, habort, hcmd, hcurve, hmode, hksup, hoidsel, hie,
    ctrlWord_reserved _ _ _ _⟩
  · exact hgives 0x000 _ (by decide) (by decide) rfl
  · exact hgives 0x004 _ (by decide) (by decide) rfl
  · exact hgives 0x008 _ (by decide) (by decide) rfl
  · exact hgives 0x00C _ (by decide) (by decide) (setWidth_eq_zeros_append s.digestLen)
  · exact hgives 0x010 _ (by decide) (by decide) (setWidth_eq_zeros_append s.tLen)
  · exact hgives 0x014 _ (by decide) (by decide) (setWidth_eq_zeros_append s.oidLen)
  · exact hgives 0x018 _ (by decide) (by decide) (setWidth_eq_zeros_append s.sigLen)
  · exact hgives 0x01C _ (by decide) (by decide) (setWidth_eq_zeros_append s.pubLen)
  · exact hgives 0x020 _ (by decide) (by decide) rfl
  · exact hgives 0x024 _ (by decide) (by decide) rfl

/-! ### Buffer and pad accesses -/

theorem inPad_iff (o : Nat) : inPad o = true ↔ 0x381 ≤ o ∧ o ≤ 0x383 := by
  simp only [inPad, Bool.and_eq_true, decide_eq_true_eq]
  omega

/-- The lanes of a read do not depend on the schedule and on the last response. -/
theorem busLanes_afterRead (s : State) (es : List Event) (r : BusResponse) (o n : Nat) :
    busLanes { s with events := es, response := r } o n = busLanes s o n := by
  induction n generalizing o with
  | zero => rfl
  | succ n ih => rw [busLanes, busLanes, ih]; rfl

/-- An aligned read of buffer or pad bytes gives their lanes and changes the response alone (20_memory.md R41, R46). -/
theorem step_readWindow {s : State} {w : Width} {off : BitVec 12} {es : List Event} (h : s.events = .read w off :: es)
    (ha : off.toNat % widthBytes w = 0)
    (hb : ∀ i, i < widthBytes w → inBuffers (off.toNat + i) = true ∨ inPad (off.toNat + i) = true) :
    step s = .next { s with
      events := es, response := .data (BitVec.ofNat 32 (busLanes s off.toNat (widthBytes w))) } := by
  obtain ⟨haccess, hreg⟩ := refusesAccess_window ha hb
  rw [step_read h, busRead, haccess, if_neg Bool.false_ne_true, readData, hreg, if_neg Bool.false_ne_true, busLanes_afterRead]
  rfl

/-- An aligned write of buffer or pad bytes while idle stores the lanes (20_memory.md R41, R47). -/
theorem step_writeWindow {s : State} {w : Width} {off : BitVec 12} {v : Word} {es : List Event} (h : s.events = .write w off v :: es)
    (hidle : s.busy = false) (ha : off.toNat % widthBytes w = 0)
    (hb : ∀ i, i < widthBytes w → inBuffers (off.toNat + i) = true ∨ inPad (off.toNat + i) = true) :
    step s = .next (respond .written (writeLanes off.toNat v (widthBytes w)
      { s with events := es, epoch := s.epoch + 1, response := .written })) := by
  obtain ⟨haccess, hreg⟩ := refusesAccess_window ha hb
  have hn : off ≠ ctrlOffset ∧ off ≠ statusOffset := by
    constructor <;> rintro rfl <;> revert hreg <;> decide
  have hlock : (s.busy && isLocked off) = false := by rw [hidle, Bool.false_and]
  have hrefuse : refusesWrite w off { s with events := es, epoch := s.epoch + 1, response := .written } = false :=
    Bool.or_eq_false_iff.2 ⟨haccess, hlock⟩
  rw [step_write h fun _ => hn, busWrite, hrefuse, if_neg Bool.false_ne_true, writeData, hreg, if_neg Bool.false_ne_true]

/-- A read of at most four lanes fits the bus word. -/
theorem busLanes_lt_word (s : State) (o : Nat) (w : Width) : busLanes s o (widthBytes w) < 2 ^ (8 * widthBytes w) ∧
    2 ^ (8 * widthBytes w) ≤ 2 ^ 32 := by
  have hlt := busLanes_lt s (widthBytes w) o
  rw [show (256 : Nat) = 2 ^ 8 from rfl, ← pow_mul] at hlt
  exact ⟨hlt, by cases w <;> decide⟩

/-- Lane `i` of the word read is the byte at `o + i`. -/
theorem busWord_lane (s : State) (o : Nat) {w : Width} {i : Nat} (hi : i < widthBytes w) :
    (BitVec.ofNat 32 (busLanes s o (widthBytes w))).extractLsb' (8 * i) 8 = busByte s (o + i) := by
  obtain ⟨hlt, hle⟩ := busLanes_lt_word s o w
  apply BitVec.eq_of_toNat_eq
  rw [BitVec.extractLsb'_toNat, BitVec.toNat_ofNat, Nat.mod_eq_of_lt (hlt.trans_le hle), Nat.shiftRight_eq_div_pow, pow_mul,
    ← busLanes_lane s o hi]
  rfl

/-- Above its lanes the word read is 0. -/
theorem busWord_above (s : State) (o : Nat) (w : Width) {k : Nat} (hk : 8 * widthBytes w ≤ k) :
    (BitVec.ofNat 32 (busLanes s o (widthBytes w))).getLsbD k = false := by
  obtain ⟨hlt, hle⟩ := busLanes_lt_word s o w
  rw [BitVec.getLsbD, BitVec.toNat_ofNat, Nat.mod_eq_of_lt (hlt.trans_le hle)]
  exact Nat.testBit_lt_two_pow (hlt.trans_le (Nat.pow_le_pow_right (by decide) hk))

/-- The byte the host reads, with the pad told by its bounds (10_state.md R31, R32). -/
theorem busByte_eq (s : State) {o : Nat} (h : inBuffers o = true ∨ inPad o = true) :
    busByte s o = if 0x381 ≤ o then 0 else (readMarked s o).getD (Config.unwrittenByte s.epoch o) := by
  unfold busByte
  rcases h with hbuf | hpad
  · have hlow : ¬ 0x381 ≤ o := by
      simp only [inBuffers, Bool.or_eq_true, Bool.and_eq_true, decide_eq_true_eq] at hbuf
      omega
    rw [(inBuffers_disjoint hbuf).2.1, if_neg Bool.false_ne_true, if_neg hlow]
    cases readMarked s o <;> rfl
  · rw [hpad, if_pos rfl, if_pos ((inPad_iff o).1 hpad).1]

/-- Settles O23: the word of the lanes, lane by lane; a second read sees the same memory and epoch. -/
theorem bufferReadGivesLanes : Obligations.BufferReadGivesLanes := by
  intro s w off es h ha hrange
  have hb : ∀ i, i < widthBytes w → inBuffers (off.toNat + i) = true ∨ inPad (off.toNat + i) = true :=
    fun i hi => (hrange i hi).imp_right (inPad_iff _).2
  refine ⟨_, step_readWindow h ha hb, fun i hi => ?_, fun k hk => busWord_above s _ w hk, fun bs hbuf hbs => ?_, fun es' he => ?_⟩
  · rw [busWord_lane s _ hi, busByte_eq s (hb i hi)]
  · rw [busLanes_of_readBytes (fun i hi => (inBuffers_disjoint (hbuf i hi)).2.1) hbs]
  · rw [step_readWindow he ha hb, busLanes_afterRead s es]

theorem busByte_pad (s : State) {o : Nat} (h : inPad o = true) : busByte s o = 0 := by rw [busByte, h, if_pos rfl]

/-- Pad bytes read 0 (10_state.md R31). -/
theorem busLanes_pad (s : State) {o n : Nat} (h : ∀ i, i < n → inPad (o + i) = true) : busLanes s o n = 0 := by
  induction n generalizing o with
  | zero => rfl
  | succ n ih =>
    have h0 : inPad o = true := h 0 (by omega)
    rw [busLanes, busByte_pad s h0, ih fun i hi => by rw [Nat.add_assoc, Nat.add_comm 1]; exact h (i + 1) (by omega)]
    rfl

/-- Pad bytes ignore writes (10_state.md R31). -/
theorem writeLanes_pad (s : State) (v : Word) {o n : Nat} (h : ∀ i, i < n → inPad (o + i) = true) : writeLanes o v n s = s := by
  induction n generalizing o v with
  | zero => rfl
  | succ n ih =>
    have h0 : inPad o = true := h 0 (by omega)
    rw [writeLanes, h0, if_pos rfl]
    exact ih _ fun i hi => by rw [Nat.add_assoc, Nat.add_comm 1]; exact h (i + 1) (by omega)

/-- The bytes of an access at 0x380 after its first are pad bytes. -/
theorem inPad_after_pub {w : Width} {i : Nat} (hi : i < widthBytes w - 1) : inPad (0x381 + i) = true := by
  have := widthBytes_cases w
  exact (inPad_iff _).2 ⟨by omega, by omega⟩

theorem widthBytes_succ (w : Width) : widthBytes w = widthBytes w - 1 + 1 := by cases w <;> rfl

/-- An access at 0x380 is PUB[128] alone (10_state.md R31). -/
theorem busLanes_pubLast (s : State) (w : Width) : busLanes s 0x380 (widthBytes w) = (busByte s 0x380).toNat := by
  rw [widthBytes_succ, busLanes, busLanes_pad s fun i => inPad_after_pub]
  rfl

theorem writeLanes_pubLast (s : State) (v : Word) (w : Width) :
    writeLanes 0x380 v (widthBytes w) s = writeByte 0x380 (v.setWidth 8) s := by
  rw [widthBytes_succ, writeLanes, writeLanes_pad _ _ fun i => inPad_after_pub, ← lengthField_eq]
  rfl

theorem inWindow_pubLast (w : Width) : ∀ i, i < widthBytes w → inBuffers (0x380 + i) = true ∨ inPad (0x380 + i) = true := by
  cases w <;> decide

/-- A read of pad bytes alone. -/
theorem step_readPad {s : State} {w : Width} {off : BitVec 12} {es : List Event} (h : s.events = .read w off :: es)
    (ha : off.toNat % widthBytes w = 0) (hp : ∀ i, i < widthBytes w → inPad (off.toNat + i) = true) :
    step s = .next { s with events := es, response := .data 0 } := by
  rw [step_readWindow h ha fun i hi => .inr (hp i hi), busLanes_pad s hp]
  rfl

/-- A write of pad bytes alone. -/
theorem step_writePad {s : State} {w : Width} {off : BitVec 12} {v : Word} {es : List Event} (h : s.events = .write w off v :: es)
    (hidle : s.busy = false) (ha : off.toNat % widthBytes w = 0) (hp : ∀ i, i < widthBytes w → inPad (off.toNat + i) = true) :
    step s = .next { s with events := es, epoch := s.epoch + 1, response := .written } := by
  rw [step_writeWindow h hidle ha fun i hi => .inr (hp i hi), writeLanes_pad _ _ hp]
  rfl

theorem step_readPubLast {s : State} {w : Width} {b : Byte} {es : List Event} (hm : readMarked s 0x380 = some b)
    (h : s.events = .read w 0x380 :: es) (ha : 0x380 % widthBytes w = 0) :
    step s = .next { s with events := es, response := .data (0#24 ++ b) } := by
  have hbyte : busByte s 0x380 = b := by rw [busByte, hm]; rfl
  have hlanes : busLanes s (0x380 : BitVec 12).toNat (widthBytes w) = b.toNat := (busLanes_pubLast s w).trans (by rw [hbyte])
  rw [step_readWindow h ha (inWindow_pubLast w), hlanes, BitVec.ofNat_toNat, setWidth_eq_zeros_append]

/-- Settles O24: the pad bytes of an access read 0 and store nothing, and 0x380 is the one buffer byte before them. -/
theorem padBytesReadZero : Obligations.PadBytesReadZero := by
  intro s v b es reads ignores
  refine ⟨fun off hlo hhi => ?_, ?_, ?_, fun hm => ⟨?_, ?_⟩, fun w hidle h => ?_⟩
  · have hp : ∀ i, i < widthBytes .one → inPad (off.toNat + i) = true := fun i hi => by
      obtain rfl : i = 0 := Nat.lt_one_iff.1 hi
      exact (inPad_iff _).2 ⟨hlo, hhi⟩
    exact ⟨fun h => step_readPad h (Nat.mod_one _) hp, fun hidle h => step_writePad h hidle (Nat.mod_one _) hp⟩
  · exact fun h => step_readPad h (by decide) (by decide)
  · exact fun hidle h => step_writePad h hidle (by decide) (by decide)
  · exact fun h => step_readPubLast hm h (by decide)
  · exact fun h => step_readPubLast hm h (by decide)
  · refine ⟨_, step_writeWindow h hidle (by cases w <;> decide) (inWindow_pubLast w), ?_⟩
    rw [show (0x380 : BitVec 12).toNat = 0x380 from rfl, writeLanes_pubLast]
    refine ⟨?_, fun a ha => ?_, rfl⟩
    · exact (readMarked_writeByte _ _ _ _).trans (if_pos rfl)
    · exact (readMarked_writeByte _ _ _ _).trans (if_neg (Ne.symm ha))

/-! ### Reset and late responses -/

/-- Settles O26: reset and a late response are steps of their own (70_reset_and_hazards.md R157). -/
theorem resetEvent : Obligations.ResetEvent := by
  refine fun s es => ⟨fun h => ?_, fun h => ?_⟩
  all_goals
    have hf : fetch s = none := by rw [fetch, h]
    rw [step_eq_runEvent hf]
    simp only [runEvent, takeEvent, h]
  rfl

/-- Settles O27: the meaning of a port request begins by finding it outstanding (`receive`). -/
theorem strayResponseDiscarded : Obligations.StrayResponseDiscarded := by
  intro s i r he hp
  cases i with
  | cgBase c => cases he; exact receive_stray hp _
  | cgMul c P k => cases he; exact receive_stray hp _
  | cgAdd c P Q => cases he; exact receive_stray hp _
  | cgFromAffine c x y => cases he; exact receive_stray hp _
  | cgIsId c P => cases he; exact receive_stray hp _
  | cgToAffine c P =>
    cases he
    simp only [exec, execCgToAffine]
    exact receive_stray hp _
  | cgFnAdd c a b => cases he; exact receive_stray hp _
  | cgFnSub c a b => cases he; exact receive_stray hp _
  | cgFnMul c a b => cases he; exact receive_stray hp _
  | deHash m => cases he; exact receive_stray hp _
  | deStretch key b => cases he; exact receive_stray hp _
  | entDraw m => cases he; exact receive_stray hp _
  | pubkey | genk | sign | verify | reservedCmd0 | reservedCmd5 | reservedCmd6 | reservedCmd7 | cfg | abort | doneClr => cases he

/-! ### The ends of a command -/

/-- IRQ is IE once DONE is set (10_state.md R38). -/
theorem irq_of_done {s : State} (h : s.done = true) : s.irq = s.ctrl.ie := by rw [State.irq, h, Bool.true_and]

theorem irq_of_not_done {s : State} (h : s.done = false) : s.irq = false := by rw [State.irq, h, Bool.false_and]

/-- Settles O16: the ends of a command field by field; each sets DONE, an accepted START and reset clear it. -/
theorem interruptFollowsDone : Obligations.InterruptFollowsDone := fun _ _ _ =>
  ⟨rfl, rfl, rfl, rfl, irq_of_done rfl, irq_of_done rfl, irq_of_done rfl, irq_of_done rfl, irq_of_not_done rfl, irq_of_not_done rfl⟩

end Sys2Proof.Machine
end

section
/-! PROOFS (10_state.md R32, 60_exceptions.md R142). An operand byte without its written mark stops the command: each operand, at the
controller step that reads it. -/

namespace Sys2Proof.Machine

open Sys2Proof

/-! ### A controller step while busy -/

section
variable {s : State}

/-- The next event lets the controller move. -/
def ControllerNext (s : State) : Prop := s.events = [] ∨ s.events.head? = some .controller

/-- With no request outstanding the controller issues (45_control.md R135 (a)). -/
theorem step_issued (hn : ControllerNext s) (hb : s.busy = true) (hp : s.port = none) : step s = advance (takeEvent s) := by
  have hstep : controllerStep (takeEvent s) = advance (takeEvent s) := by
    unfold controllerStep
    rw [takeEvent_busy, takeEvent_port, hb, hp]
    rfl
  rcases hn with he | he
  · have hf : fetch s = none := by simp [fetch, he, hb, answerable, hp]
    rw [step_eq_runEvent hf, ← hstep, runEvent, he]
    simp [hb, hp]
  · obtain ⟨es, he⟩ := List.head?_eq_some_iff.1 he
    have hf : fetch s = none := by simp [fetch, he, hb, answerable, hp]
    rw [step_eq_runEvent hf, ← hstep, runEvent, he]

/-- An outstanding CurveGroup or DigestEngine request is answered (45_control.md R135 (b)). -/
theorem step_answered (hn : ControllerNext s) (hb : s.busy = true) {r : PortReq} (hp : s.port = some r) (hr : r.port ≠ .entropy)
    {i : Instr} (hd : decodePort r = .ok i) : step s = exec i (takeEvent s) := by
  have hf : fetch s = some (.portReq r) := by
    rcases hn with he | he
    · simp [fetch, he, hb, answerable, hp, hr]
    · obtain ⟨es, he⟩ := List.head?_eq_some_iff.1 he
      simp [fetch, he, hb, answerable, hp, hr]
  rw [step_eq_performs hf, performs]
  simp only [decode, hd]

/-! ### Operands -/

/-- Taking the event leaves every operand. -/
@[simp] theorem readBytes_takeEvent (a n : Nat) : readBytes (takeEvent s) a n = readBytes s a n :=
  readBytes_congr (by simp) (by simp) a n

@[simp] theorem readBuffer_takeEvent (b : Buffer) (n : Nat) : readBuffer (takeEvent s) b n = readBuffer s b n :=
  readBytes_takeEvent _ n

/-- A byte of the first `n` of a buffer has no written mark. -/
def Unwritten (s : State) (b : Buffer) (n : Nat) : Prop := ∃ j, j < n ∧ isMarked s.marks (bufferBase b + j) = false

theorem readBuffer_unwritten {b : Buffer} {n : Nat} (h : Unwritten s b n) : readBuffer s b n = none := by
  obtain ⟨j, hj, hm⟩ := h
  exact readBytes_unwritten hj hm

/-- OIDBYTES are an operand where OIDSEL = 1 (40_primitives.md R76). -/
theorem readOid_unwritten (h : s.ctrl.oidsel = true ∧ Unwritten s .oid s.oidLen.toNat) : readOid s = none := by
  rw [readOid, if_pos h.1, readBuffer_unwritten h.2]

/-- T is an operand of GENK (42_genk.md R107). -/
theorem readContext_unwritten (hc : s.ctrl.cmd = 2) (h : Unwritten s .t s.tLen.toNat) : readContext s = none := by
  rw [readContext, if_pos hc, readBuffer_unwritten h]

@[simp] theorem unwritten_takeEvent (b : Buffer) (n : Nat) : Unwritten (takeEvent s) b n ↔ Unwritten s b n := by
  unfold Unwritten
  rw [takeEvent_marks]

@[simp] theorem readMarked_takeEvent (a : Nat) : readMarked (takeEvent s) a = readMarked s a :=
  readMarked_congr (by simp) (by simp) a

/-- A missing operand stops the step, whatever operands are read before it. -/
theorem withOperand_fault {o : Option Bytes} {k : Bytes → Result} (h : o = none ∨ ∀ b, k b = .fault .unwrittenOperand) :
    withOperand o k = .fault .unwrittenOperand := by
  cases o with
  | none => rfl
  | some b => exact h.elim nofun fun h => h b

theorem withOperand_missing {o : Option Bytes} (h : o = none) (k : Bytes → Result) : withOperand o k = .fault .unwrittenOperand :=
  withOperand_fault (.inl h)

/-! ### The reads of each command -/

variable {c : CurveId}

theorem enterPubkey_fault (h : Unwritten s .prv c.len) : enterPubkey c s = .fault .unwrittenOperand :=
  withOperand_missing (readBuffer_unwritten h) _

/-- The seed of the nonce loop reads OID, PRV and T. -/
theorem issueNonceHash_fault (h : readOid s = none ∨ readPrv c s = none ∨ readContext s = none) :
    issueNonce c .nonceHash s = .fault .unwrittenOperand := by
  refine withOperand_fault (h.imp_right fun h _ => ?_)
  refine withOperand_fault (h.imp_right fun h _ => ?_)
  exact withOperand_missing h _

/-- The hash of SIGN and that of VERIFY read OID and DIG. -/
theorem withOidDigest_fault {k : Bytes → Bytes → Result} (h : readOid s = none ∨ readDigest s = none) :
    (withOperand (readOid s) fun oid => withOperand (readDigest s) (k oid)) = .fault .unwrittenOperand :=
  withOperand_fault (h.imp_right fun h _ => withOperand_missing h _)

theorem enterSign_suppliedKey_fault (hk : s.ctrl.ksup = true) (h : Unwritten s .k c.len) :
    enterSign c s = .fault .unwrittenOperand := by
  rw [enterSign, if_pos hk]
  exact withOperand_missing (readBuffer_unwritten h) _

theorem enterSign_nonceLoop (hk : s.ctrl.ksup = false) (hm : s.ctrl.mode = false) :
    enterSign c s = issueNonce c .nonceHash s := by
  simp [enterSign, hk, hm]

theorem enterVerify_sig_fault (hl : s.sigLen.toNat = sigLenOf c) (h : Unwritten s .sig (sigLenOf c)) :
    enterVerify c s = .fault .unwrittenOperand := by
  rw [enterVerify, if_neg (not_not.2 hl)]
  exact withOperand_missing (readBuffer_unwritten h) _

/-- VERIFY whose signature is in range goes on to PUB (44_verify.md R120 to R122). -/
theorem enterVerify_goes_on {sig : Bytes} (hl : s.sigLen.toNat = sigLenOf c) (hs : readBuffer s .sig (sigLenOf c) = some sig)
    (hlt : (decSig c sig).2 < Config.order c) :
    enterVerify c s = enterVerifyKey c (setScratch { s.scratch with s0 := (decSig c sig).1, s1 := (decSig c sig).2 } s) := by
  rw [enterVerify, if_neg (not_not.2 hl), hs, withOperand_some]
  exact if_neg (by omega)

theorem enterVerifyKey_tag_fault (hl : s.pubLen.toNat = pubLenOf c) (h : isMarked s.marks 0x300 = false) :
    enterVerifyKey c s = .fault .unwrittenOperand := by
  rw [enterVerifyKey, if_neg (not_not.2 hl)]
  exact withOperand_missing (readBytes_unwritten (j := 0) (by decide) h) _

theorem enterVerifyKey_rest_fault (hl : s.pubLen.toNat = pubLenOf c) (ht : readMarked s 0x300 = some pubTag)
    (h : Unwritten s .pub (pubLenOf c)) : enterVerifyKey c s = .fault .unwrittenOperand := by
  have htag : readBytes s (bufferBase .pub) 1 = some [pubTag] :=
    (readBytes_eq_some_iff _ _ _ _).2 ⟨rfl, fun j hj => by obtain rfl := Nat.lt_one_iff.1 hj; exact ht⟩
  have hrest : readBytes s (bufferBase .pub + 1) (2 * c.len) = none := by
    obtain ⟨j, hj, hm⟩ := h
    cases j with
    | zero =>
      have hm : isMarked s.marks 0x300 = false := hm
      rw [readMarked, hm] at ht
      cases ht
    | succ j =>
      refine readBytes_unwritten (j := j) (by unfold pubLenOf at hj; omega) ?_
      rwa [show bufferBase .pub + 1 + j = bufferBase .pub + (j + 1) by omega]
  rw [enterVerifyKey, if_neg (not_not.2 hl), htag, withOperand_some, if_neg (not_not.2 rfl)]
  exact withOperand_missing hrest _

/-- The digest of the nonce loop is DIG[0..DIGEST_LEN) in GENK and DIG[0..L) in SIGN. -/
theorem readNonceDigest_unwritten
    (h : (s.ctrl.cmd = 2 ∧ Unwritten s .dig s.digestLen.toNat) ∨ (s.ctrl.cmd = 3 ∧ Unwritten s .dig c.len)) :
    readNonceDigest c s = none := by
  rcases h with ⟨hc, h⟩ | ⟨hc, h⟩
  · rw [readNonceDigest, if_pos hc]
    exact readBuffer_unwritten h
  · rw [readNonceDigest, if_neg (by rw [hc]; decide), readBuffer_unwritten h]

/-- The answer to the seed of the nonce loop reads DIG. -/
theorem execDeHash_nonce_fault {m : Bytes} (hcurve : curveOfCode s.ctrl.curve = some c) (hp : s.port = some (digestReq 0 [.bytes m]))
    (hs : s.site = .nonceHash) (h : readNonceDigest c s = none) : exec (.deHash m) s = .fault .unwrittenOperand := by
  refine (receive_outstanding hp _).trans ?_
  rw [afterHash, withCurve_some hcurve, hs]
  exact withOperand_missing h _

end

/-! ### The places that read operands -/

/-- OIDSEL = 1 and a byte of OID[0..OID_LEN) has no mark. -/
def OidUnwritten (s : State) : Prop := s.ctrl.oidsel = true ∧ Unwritten s .oid s.oidLen.toNat

/-- The reads at the beginning of PUBKEY, GENK and SIGN. -/
theorem enterCommand_faults (s : State) (c : CurveId) :
    (s.ctrl.cmd = 1 → Unwritten s .prv c.len → enterCommand c s = .fault .unwrittenOperand) ∧
    (s.ctrl.cmd = 2 → OidUnwritten s ∨ Unwritten s .prv c.len ∨ Unwritten s .t s.tLen.toNat →
      enterCommand c s = .fault .unwrittenOperand) ∧
    (s.ctrl.cmd = 3 → s.ctrl.ksup = true → Unwritten s .k c.len → enterCommand c s = .fault .unwrittenOperand) ∧
    (s.ctrl.cmd = 3 → s.ctrl.ksup = false → s.ctrl.mode = false → OidUnwritten s ∨ Unwritten s .prv c.len →
      enterCommand c s = .fault .unwrittenOperand) := by
  unfold enterCommand
  refine ⟨fun hc h => ?_, fun hc h => ?_, fun hc hk h => ?_, fun hc hk hm h => ?_⟩ <;> rw [hc]
  · exact enterPubkey_fault h
  · exact issueNonceHash_fault (h.imp readOid_unwritten (.imp readBuffer_unwritten (readContext_unwritten hc)))
  · exact enterSign_suppliedKey_fault hk h
  · exact (enterSign_nonceLoop hk hm).trans (issueNonceHash_fault (h.imp readOid_unwritten fun h => .inl (readBuffer_unwritten h)))

/-- The reads at the beginning of VERIFY: SIG, then the tag of PUB, then the rest of PUB. -/
theorem enterCommand_verify_faults (s : State) (c : CurveId) (hc : s.ctrl.cmd = 4) (hl : s.sigLen.toNat = 3 * c.half) :
    (Unwritten s .sig (3 * c.half) → enterCommand c s = .fault .unwrittenOperand) ∧
    ∀ sig : Bytes, readBuffer s .sig (3 * c.half) = some sig → leNat (sig.drop c.half) < Config.order c →
      s.pubLen.toNat = 1 + 2 * c.len →
      (isMarked s.marks 0x300 = false → enterCommand c s = .fault .unwrittenOperand) ∧
      (readMarked s 0x300 = some 0x04 → Unwritten s .pub (1 + 2 * c.len) → enterCommand c s = .fault .unwrittenOperand) := by
  have henter : enterCommand c s = enterVerify c s := by
    unfold enterCommand
    rw [hc]
    rfl
  rw [henter]
  refine ⟨enterVerify_sig_fault hl, fun sig hsig hlt hpub => ?_⟩
  rw [enterVerify_goes_on hl hsig hlt]
  exact ⟨fun hm => enterVerifyKey_tag_fault hpub hm, fun ht h => enterVerifyKey_rest_fault hpub ht h⟩

/-- The reads of SIGN and VERIFY at a later place. -/
theorem advance_faults (s : State) {c : CurveId} (hcurve : curveOfCode s.ctrl.curve = some c) :
    (s.site = .sgHash ∨ s.site = .vfHash → OidUnwritten s ∨ Unwritten s .dig s.digestLen.toNat →
      advance s = .fault .unwrittenOperand) ∧
    (s.site = .sgMulD → Unwritten s .prv c.len → advance s = .fault .unwrittenOperand) ∧
    (s.site = .sgSubE ∨ s.site = .vfAddE → Unwritten s .dig s.digestLen.toNat → advance s = .fault .unwrittenOperand) := by
  rw [advance_eq hcurve, issueAt]
  refine ⟨fun hs h => ?_, fun hs h => ?_, fun hs h => ?_⟩
  · have hread : readOid s = none ∨ readDigest s = none := h.imp readOid_unwritten readBuffer_unwritten
    rcases hs with hs | hs <;> rw [hs] <;> exact withOidDigest_fault hread
  · rw [hs]; exact withOperand_missing (readBuffer_unwritten h) _
  · rcases hs with hs | hs <;> rw [hs] <;> exact withOperand_missing (readBuffer_unwritten h) _

theorem advance_entry {s : State} {c : CurveId} (hcurve : curveOfCode s.ctrl.curve = some c) (he : s.site = .entry) :
    advance s = enterCommand c s := by
  rw [advance_eq hcurve, issueAt, he]

/-- Settles O48: the step is the one that reads the operand, and the read stops it. -/
theorem unwrittenOperandFaults : Obligations.UnwrittenOperandFaults := by
  intro s c hb hn hcurve unwritten oidUnwritten faults
  have hcurve' : curveOfCode (takeEvent s).ctrl.curve = some c := by simpa using hcurve
  refine ⟨fun hp he => ?_, fun hp => ?_, fun m hp hs => ?_⟩
  · have hstep : step s = enterCommand c (takeEvent s) :=
      (step_issued hn hb hp).trans (advance_entry hcurve' (by simpa using he))
    have hfirst := enterCommand_faults (takeEvent s) c
    have hverify := enterCommand_verify_faults (takeEvent s) c
    simp only [OidUnwritten, unwritten_takeEvent, readBuffer_takeEvent, readMarked_takeEvent, takeEvent_ctrl, takeEvent_oidLen,
      takeEvent_tLen, takeEvent_sigLen, takeEvent_pubLen, takeEvent_marks, ← hstep] at hfirst hverify
    obtain ⟨hpubkey, hgenk, hsupplied, hloop⟩ := hfirst
    exact ⟨hpubkey, hgenk, hsupplied, hloop, fun hc hl => (hverify hc hl).1, fun sig hc hl => (hverify hc hl).2 sig⟩
  · have hlater := advance_faults (takeEvent s) hcurve'
    simp only [OidUnwritten, unwritten_takeEvent, takeEvent_ctrl, takeEvent_oidLen, takeEvent_digestLen, takeEvent_site,
      ← step_issued hn hb hp] at hlater
    exact hlater
  · have hstep : step s = exec (.deHash m) (takeEvent s) := step_answered hn hb hp nofun (decodePort_digest 0 _)
    have hfault : readNonceDigest c (takeEvent s) = none → faults := fun h =>
      hstep.trans (execDeHash_nonce_fault hcurve' (by simpa using hp) (by simpa using hs) h)
    exact ⟨fun hc h => hfault (readNonceDigest_unwritten (.inl (by simpa using ⟨hc, h⟩))),
      fun hc h => hfault (readNonceDigest_unwritten (.inr (by simpa using ⟨hc, h⟩)))⟩

end Sys2Proof.Machine
end

section
/-! PROOFS (20_memory.md). The bus: the operands of a running command, the accesses that are refused, and the lanes that a buffer write
stores. -/

namespace Sys2Proof.Machine

open Sys2Proof

/-! ### The operands of a running command (20_memory.md R49, R57) -/

/-- `t` holds every operand as `s` does: the buffers, the length registers, NONCE_CAP and the fields of CTRL but IE. -/
structure SameOperands (s t : State) : Prop where
  mem : t.mem = s.mem
  marks : t.marks = s.marks
  digestLen : t.digestLen = s.digestLen
  tLen : t.tLen = s.tLen
  oidLen : t.oidLen = s.oidLen
  sigLen : t.sigLen = s.sigLen
  pubLen : t.pubLen = s.pubLen
  nonceCap : t.nonceCap = s.nonceCap
  ctrl : { t.ctrl with ie := s.ctrl.ie } = s.ctrl

theorem SameOperands.refl (s : State) : SameOperands s s := ⟨rfl, rfl, rfl, rfl, rfl, rfl, rfl, rfl, rfl⟩

theorem SameOperands.trans {s t u : State} (h : SameOperands s t) (h' : SameOperands t u) : SameOperands s u where
  mem := h'.mem.trans h.mem
  marks := h'.marks.trans h.marks
  digestLen := h'.digestLen.trans h.digestLen
  tLen := h'.tLen.trans h.tLen
  oidLen := h'.oidLen.trans h.oidLen
  sigLen := h'.sigLen.trans h.sigLen
  pubLen := h'.pubLen.trans h.pubLen
  nonceCap := h'.nonceCap.trans h.nonceCap
  ctrl := (congrArg (fun k : Ctrl => { k with ie := s.ctrl.ie }) h'.ctrl).trans h.ctrl

theorem sameOperands_takeEvent (s : State) : SameOperands s (takeEvent s) := by
  constructor <;> simp

theorem sameOperands_storeIe (ie : Bool) (s : State) : SameOperands s (storeIe ie s) :=
  ⟨rfl, rfl, rfl, rfl, rfl, rfl, rfl, rfl, rfl⟩

theorem sameOperands_clearDone (s : State) : SameOperands s (clearDone s) := ⟨rfl, rfl, rfl, rfl, rfl, rfl, rfl, rfl, rfl⟩

theorem sameOperands_respond (r : BusResponse) (s : State) : SameOperands s (respond r s) :=
  ⟨rfl, rfl, rfl, rfl, rfl, rfl, rfl, rfl, rfl⟩

theorem HiddenMove.sameOperands {s t : State} (h : HiddenMove s t) : SameOperands s t :=
  ⟨h.mem, h.marks, h.digestLen, h.tLen, h.oidLen, h.sigLen, h.pubLen, h.nonceCap, by rw [h.ctrl]⟩

/-- Of the steps from a busy state, the ends of a command and reset alone touch an operand, and they leave the block idle. -/
theorem StepCase.sameOperands {s t : State} (h : StepCase s t) (hb : s.busy = true) (ht : t.busy = true) : SameOperands s t := by
  have htaken := sameOperands_takeEvent s
  cases h with
  | stutter => exact .refl s
  | took => exact htaken
  | start cmd f hidle => rw [hb] at hidle; cases hidle
  | configure cmd f hidle => rw [hb] at hidle; cases hidle
  | busyWrite ie => exact htaken.trans (sameOperands_storeIe ie _)
  | aborted ie => cases ht
  | cleared => exact htaken.trans (sameOperands_clearDone _)
  | controller _ _ hc =>
    refine hc.elim (fun hm => htaken.trans hm.sameOperands) fun he => ?_
    exact absurd he.phase ((busy_iff t).1 ht)
  | responded r => exact htaken.trans (sameOperands_respond r _)
  | written w off v hr =>
    rw [writeData_busy_self v (by simpa using hb) ((refusesWrite_takeEvent w off s).trans hr)]
    exact htaken.trans (sameOperands_respond _ _)
  | reset => cases ht

/-- Settles O55: the host's writes meet the busy lock, and a controller step that is no end of the command moves hidden registers alone. -/
theorem busyLockKeepsOperands : Obligations.BusyLockKeepsOperands := by
  intro s t hb hs ht
  obtain ⟨hmem, hmarks, hdigestLen, htLen, hoidLen, hsigLen, hpubLen, hnonceCap, hctrl⟩ := (step_cases hs).sameOperands hb ht
  exact ⟨hmem, hmarks, hdigestLen, htLen, hoidLen, hsigLen, hpubLen, hnonceCap, hctrl⟩

/-! ### Refused accesses (20_memory.md R43 to R46, R49) -/

/-- The unmapped bytes of the window (20_memory.md R45). -/
theorem isMapped_eq_false_iff {a : Nat} :
    isMapped a = false ↔ (0x028 ≤ a ∧ a ≤ 0x0FF) ∨ (0x220 ≤ a ∧ a ≤ 0x23F) ∨ (0x2A0 ≤ a ∧ a ≤ 0x2FF) ∨ 0x384 ≤ a := by
  simp only [isMapped, inRegisters, inBuffers, inPad, Bool.or_eq_false_iff, Bool.and_eq_false_iff, decide_eq_false_iff_not]
  omega

/-- An access touches an unmapped byte. -/
theorem allMapped_eq_false_iff (o n : Nat) : allMapped o n = false ↔ ∃ i, i < n ∧ isMapped (o + i) = false := by
  rw [← Bool.not_eq_true, allMapped_iff]
  simp

theorem widthBytes_eq_four_iff (w : Width) : widthBytes w = 4 ↔ w = .four := by cases w <;> decide

/-- The three refusals of any access. -/
theorem refusesAccess_iff (w : Width) (off : BitVec 12) :
    refusesAccess w off = true ↔ off.toNat % widthBytes w ≠ 0 ∨ (off.toNat < 0x028 ∧ widthBytes w ≠ 4) ∨
      ∃ i, i < widthBytes w ∧ isMapped (off.toNat + i) = false := by
  rw [← allMapped_eq_false_iff, Ne, Ne, widthBytes_eq_four_iff]
  simp [refusesAccess, inRegisters, or_assoc]

/-- The offsets under the busy lock (20_memory.md R49). -/
theorem isLocked_iff (off : BitVec 12) :
    isLocked off = true ↔ (0x00C ≤ off.toNat ∧ off.toNat ≤ 0x023) ∨ (0x100 ≤ off.toNat ∧ off.toNat ≤ 0x21F) ∨
      (0x240 ≤ off.toNat ∧ off.toNat ≤ 0x29F) ∨ (0x300 ≤ off.toNat ∧ off.toNat ≤ 0x383) := by
  simp only [isLocked, inBuffers, inPad, Bool.or_eq_true, Bool.and_eq_true, decide_eq_true_eq]
  omega

/-- The busy lock is the fourth refusal of a write. -/
theorem refusesWrite_iff (w : Width) (off : BitVec 12) (s : State) :
    refusesWrite w off s = true ↔ refusesAccess w off = true ∨ (s.busy = true ∧ isLocked off = true) := by
  rw [refusesWrite, Bool.or_eq_true, Bool.and_eq_true]

/-- Settles O18: the refusals by their bounds. -/
theorem busErrorCases : Obligations.BusErrorCases := by
  intro s w off o unmapped static
  have hstatic : refusesAccess w off = true ↔ static := by
    simp only [refusesAccess_iff, isMapped_eq_false_iff, static, unmapped, o]
  exact ⟨hstatic, by rw [refusesWrite_iff, hstatic, isLocked_iff]⟩

/-- The 4-byte writes of CTRL and STATUS are refused in no mode (20_memory.md R49). -/
theorem refusesWrite_command (s : State) :
    refusesWrite .four ctrlOffset s = false ∧ refusesWrite .four statusOffset s = false :=
  ⟨Bool.and_false s.busy, Bool.and_false s.busy⟩

theorem ne_command_of_refusesWrite {off : BitVec 12} {s : State} (h : refusesWrite .four off s = true) :
    off ≠ ctrlOffset ∧ off ≠ statusOffset := by
  obtain ⟨hctrl, hstatus⟩ := refusesWrite_command s
  constructor <;> rintro rfl
  · rw [hctrl] at h; cases h
  · rw [hstatus] at h; cases h

/-- Settles O19: a refused access is answered `busError` and goes no further. -/
theorem refusedAccessChangesNothing : Obligations.RefusedAccessChangesNothing := by
  refine fun s w off v es => ⟨fun h hr => ?_, fun h hr => ?_⟩
  · have hn : w = .four → off ≠ ctrlOffset ∧ off ≠ statusOffset := by
      rintro rfl
      exact ne_command_of_refusesWrite hr
    have hafter : refusesWrite w off { s with events := es, epoch := s.epoch + 1, response := .written } = true := hr
    rw [step_write h hn, busWrite, if_pos hafter]
    rfl
  · rw [step_read h, busRead, if_pos hr]
    rfl

/-! ### Buffer writes (20_memory.md R41, R47) -/

/-- A lane write changes memory and marks alone. -/
theorem writeLanes_frame (o : Nat) (v : Word) (n : Nat) (s : State) :
    writeLanes o v n s = { s with mem := (writeLanes o v n s).mem, marks := (writeLanes o v n s).marks } := by
  apply State.ext <;> simp

/-- Settles O22: the step is the lane write, whose effect at each offset is `readMarked_writeLanes`. -/
theorem bufferWriteStoresLanes : Obligations.BufferWriteStoresLanes := by
  intro s w off v es hidle h ha hb
  have hread := readMarked_writeLanes (widthBytes w) off.toNat v { s with events := es, epoch := s.epoch + 1, response := .written }
    fun i hi => (inBuffers_disjoint (hb i hi)).2.1
  refine ⟨_, step_writeWindow h hidle ha fun i hi => .inl (hb i hi), fun i hi => ?_, fun a ho => ?_, ?_⟩
  · refine (hread _).trans ?_
    rw [if_pos (by omega), Nat.add_sub_cancel_left]
  · exact (hread a).trans (if_neg (by omega))
  · exact congrArg (respond .written) (writeLanes_frame _ _ _ _)

end Sys2Proof.Machine
end

section
/-! PROOFS (30_encoding.md R58 to R68). The two directions of the code: the decoder reads back what the encoder writes, and a port request
it accepts is the one the encoder writes; and the bits of a CTRL word that the decoder reads. -/

namespace Sys2Proof

open Sys2Proof.Machine

/-! ### From instruction to transaction and back -/

/-- The idle decoding of a CTRL word (30_encoding.md R62). -/
theorem decodeCtrl_idle (w : Word) :
    decodeCtrl false w = if w.getLsbD 0 then .ok (startRow (ctrlCmd w) (ctrlFields w)) else .ok (.cfg (ctrlCmd w) (ctrlFields w)) :=
  rfl

/-- The busy decoding of a CTRL word (30_encoding.md R62). -/
theorem decodeCtrl_busy (w : Word) :
    decodeCtrl true w = if w.getLsbD 1 then .ok (.abort (w.getLsbD 10)) else .error .busyWithoutAbort := rfl

/-- A START word carries the row of its CMD. -/
theorem decodeCtrl_startWord (cmd : BitVec 3) (f : CtrlFields) :
    decodeCtrl false (ctrlWord cmd f false true) = .ok (startRow cmd f) := by
  obtain ⟨hstart, -, -⟩ := ctrlWord_bits cmd f false true
  rw [decodeCtrl_idle, hstart, if_pos rfl, ctrlCmd_ctrlWord, ctrlFields_ctrlWord]

/-- An idle word with START = 0 carries CFG (45_control.md R128). -/
theorem decodeCtrl_cfgWord (cmd : BitVec 3) (f : CtrlFields) : decodeCtrl false (ctrlWord cmd f false false) = .ok (.cfg cmd f) := by
  obtain ⟨hstart, -, -⟩ := ctrlWord_bits cmd f false false
  rw [decodeCtrl_idle, hstart, if_neg Bool.false_ne_true, ctrlCmd_ctrlWord, ctrlFields_ctrlWord]

/-- A busy word with bit 1 set carries ABORT (45_control.md R132). -/
theorem decodeCtrl_abortWord (cmd : BitVec 3) (f : CtrlFields) (start : Bool) :
    decodeCtrl true (ctrlWord cmd f true start) = .ok (.abort f.ie) := by
  obtain ⟨-, habort, hie⟩ := ctrlWord_bits cmd f true start
  rw [decodeCtrl_busy, habort, hie, if_pos rfl]

/-- The decoder reads back the request that carries a row, as a transaction. -/
theorem decode_encode_port {i : Instr} {r : PortReq} (h : encode i = .portReq r) : decode (encode i) = .ok i :=
  h ▸ decodePort_of_encode h

/-- Settles O1: the fields of a CTRL word are read back one by one, a port request by `decodePort_of_encode`. -/
theorem decodeEncodeAgree : Obligations.DecodeEncodeAgree := by
  intro i
  cases i with
  | pubkey f => exact decodeCtrl_startWord 1 f
  | genk f => exact decodeCtrl_startWord 2 f
  | sign f => exact decodeCtrl_startWord 3 f
  | verify f => exact decodeCtrl_startWord 4 f
  | reservedCmd0 f => exact decodeCtrl_startWord 0 f
  | reservedCmd5 f => exact decodeCtrl_startWord 5 f
  | reservedCmd6 f => exact decodeCtrl_startWord 6 f
  | reservedCmd7 f => exact decodeCtrl_startWord 7 f
  | cfg cmd f => exact decodeCtrl_cfgWord cmd f
  | abort ie => exact decodeCtrl_abortWord 0 (bareFields ie) false
  | doneClr => rfl
  | cgBase | cgMul | cgAdd | cgFromAffine | cgIsId | cgToAffine | cgFnAdd | cgFnSub | cgFnMul | deHash | deStretch | entDraw =>
    exact decode_encode_port rfl

/-- A transaction that the encoder writes has one meaning. -/
theorem decode_of_encode_eq {i : Instr} {t : Transaction} (h : encode i = t) : decode t = .ok i := h ▸ decodeEncodeAgree i

/-- Settles O4: each transaction is the one the encoder writes for its row. -/
theorem specWordsDecode : Obligations.SpecWordsDecode := by
  refine ⟨?_, ?_, ?_, ?_, ?_, ?_, ?_, ?_, ?_, ?_, ?_, ?_, ?_, ?_, ?_, ?_⟩
  all_goals
    apply decode_of_encode_eq
    decide

/-! ### From port request to instruction and back -/

/-- A CurveGroup code and its operands are those of the row they carry (30_encoding.md R65). -/
theorem encode_of_decodeCurveGroup {c : CurveId} {op : Nat} {xs : List Operand} {i : Instr}
    (h : decodeCurveGroup c op xs = .ok i) : encode i = .portReq (curveGroupReq c (BitVec.ofNat 4 op) xs) := by
  unfold decodeCurveGroup at h
  split at h <;> cases h <;> rfl

/-- A DigestEngine code and its operands are those of the row they carry (30_encoding.md R66). -/
theorem encode_of_decodeDigestEngine {op : Nat} {xs : List Operand} {i : Instr}
    (h : decodeDigestEngine op xs = .ok i) : encode i = .portReq (digestReq (BitVec.ofNat 4 op) xs) := by
  unfold decodeDigestEngine at h
  split at h <;> cases h <;> rfl

/-- The entropy code and its operand are those of the row they carry (30_encoding.md R66). -/
theorem encode_of_decodeEntropy {op : Nat} {xs : List Operand} {i : Instr}
    (h : decodeEntropy op xs = .ok i) : encode i = .portReq (entropyReq (BitVec.ofNat 4 op) xs) := by
  unfold decodeEntropy at h
  split at h <;> cases h
  rfl

/-- A 6-bit word is built from the curve code it has and from its OP (30_encoding.md R58). -/
theorem reqWord_of_reqCurve {w : BitVec 6} {c : BitVec 2} (h : reqCurve w = c) : reqWord c (BitVec.ofNat 4 (reqOp w)) = w :=
  h ▸ reqWord_fields w

/-- Settles O2: on each port the curve bits and the OP of an accepted request rebuild its word, and its operands are the row's. -/
theorem portRequestsHaveOneMeaning : Obligations.PortRequestsHaveOneMeaning := by
  rintro ⟨port, w, xs⟩ i h
  unfold decodePort at h
  cases port with
  | curveGroup =>
    cases hc : curveOfCode (reqCurve w) with
    | none => simp [hc] at h
    | some c =>
      simp only [hc] at h
      rw [encode_of_decodeCurveGroup h, curveGroupReq, reqWord_of_reqCurve ((curveOfCode_eq_some _ _).1 hc)]
  | digestEngine =>
    simp only at h
    split at h
    · rename_i hc
      rw [encode_of_decodeDigestEngine h, digestReq, reqWord_of_reqCurve hc]
    · cases h
  | entropy =>
    simp only at h
    split at h
    · rename_i hc
      rw [encode_of_decodeEntropy h, entropyReq, reqWord_of_reqCurve hc]
    · cases h

/-! ### The bits of a CTRL word that are read -/

/-- A bit field depends on its own bits alone. -/
theorem extractLsb'_congr {w v : Word} {start len : Nat} (h : ∀ i, i < len → w.getLsbD (start + i) = v.getLsbD (start + i)) :
    w.extractLsb' start len = v.extractLsb' start len := by
  refine BitVec.eq_of_getLsbD_eq fun i hi => ?_
  rw [BitVec.getLsbD_extractLsb', BitVec.getLsbD_extractLsb', h i hi]

/-- The idle decoding depends on bits 10:2 and 0 alone (30_encoding.md R62). -/
theorem decodeCtrl_idle_congr {w v : Word} (h : ∀ i, i ≤ 10 → i ≠ 1 → w.getLsbD i = v.getLsbD i) :
    decodeCtrl false w = decodeCtrl false v := by
  have hcmd : ctrlCmd w = ctrlCmd v := extractLsb'_congr fun i hi => h (2 + i) (by omega) (by omega)
  have hcurve : w.extractLsb' 5 2 = v.extractLsb' 5 2 := extractLsb'_congr fun i hi => h (5 + i) (by omega) (by omega)
  have hfields : ctrlFields w = ctrlFields v := by
    simp only [ctrlFields, hcurve, h 7 (by decide) (by decide), h 8 (by decide) (by decide), h 9 (by decide) (by decide),
      h 10 (by decide) (by decide)]
  rw [decodeCtrl_idle, decodeCtrl_idle, hcmd, hfields, h 0 (by decide) (by decide)]

/-- The busy decoding depends on bits 10 and 1 alone (30_encoding.md R62). -/
theorem decodeCtrl_busy_congr {w v : Word} (habort : w.getLsbD 1 = v.getLsbD 1) (hie : w.getLsbD 10 = v.getLsbD 10) :
    decodeCtrl true w = decodeCtrl true v := by
  rw [decodeCtrl_busy, decodeCtrl_busy, habort, hie]

/-- A bit that the mask keeps. -/
theorem getLsbD_masked (w : Word) {mask : Word} {i : Nat} (h : mask.getLsbD i = true) : w.getLsbD i = (w &&& mask).getLsbD i := by
  rw [BitVec.getLsbD_and, h, Bool.and_true]

/-- Settles O3: the masks keep every bit that the decoding reads. -/
theorem ctrlWordIgnoredBits : Obligations.CtrlWordIgnoredBits := by
  have hmask : ∀ i, i < 11 → i ≠ 1 → (0x7FD : Word).getLsbD i = true := by decide
  intro w
  exact ⟨decodeCtrl_idle_congr fun i hi hne => getLsbD_masked w (hmask i (by omega) hne),
    decodeCtrl_busy_congr (getLsbD_masked w (by decide)) (getLsbD_masked w (by decide))⟩

end Sys2Proof
end

section
/-! PROOFS (30_encoding.md R62, R67, R68). The transaction that the next step performs, what the step does with it, and that a controller
step does the same under any schedule. -/

namespace Sys2Proof.Machine

open Sys2Proof

/-! ### What a step fetches -/

section
variable {s : State} {es : List Event} {v : Word}

/-- A 4-byte write of CTRL carries its word, to be decoded by BUSY (30_encoding.md R62). -/
theorem fetch_ctrlWrite (h : s.events = .write .four ctrlOffset v :: es) : fetch s = some (.ctrlWord s.busy v) := by
  rw [fetch, h]
  rfl

/-- A 4-byte write of STATUS carries its word. -/
theorem fetch_statusWrite (h : s.events = .write .four statusOffset v :: es) : fetch s = some (.statusWord v) := by
  rw [fetch, h]
  rfl

/-- A controller step while busy performs what it can answer (45_control.md R135). -/
theorem fetch_controller (hn : ControllerNext s) (hb : s.busy = true) : fetch s = answerable s := by
  rcases hn with he | he
  · rw [fetch, he]
    exact if_pos hb
  · obtain ⟨es, he⟩ := List.head?_eq_some_iff.1 he
    rw [fetch, he]
    exact if_pos hb

/-- An entropy arrival while busy answers the entropy request (40_primitives.md R82). -/
theorem fetch_entropy (h : s.events = .entropy :: es) (hb : s.busy = true) : fetch s = entropyOutstanding s := by
  rw [fetch, h]
  exact if_pos hb

theorem answerable_some {r : PortReq} (hp : s.port = some r) :
    answerable s = if r.port = .entropy then none else some (.portReq r) := by rw [answerable, hp]

theorem entropyOutstanding_some {r : PortReq} (hp : s.port = some r) :
    entropyOutstanding s = if r.port = .entropy then some (.portReq r) else none := by rw [entropyOutstanding, hp]

/-- A controller step answers the outstanding request, unless it is for entropy. -/
theorem fetch_request {r : PortReq} (hn : ControllerNext s) (hb : s.busy = true) (hp : s.port = some r) (hr : r.port ≠ .entropy) :
    fetch s = some (.portReq r) := by
  rw [fetch_controller hn hb, answerable_some hp, if_neg hr]

/-- Reads are the only events that leave the epoch, and they carry no transaction. -/
theorem takeEvent_epoch_of_fetch {t : Transaction} (h : fetch s = some t) : (takeEvent s).epoch = s.epoch + 1 := by
  unfold takeEvent
  split
  · rfl
  · rename_i he
    rw [fetch, he] at h
    cases h
  · rfl
  · rfl

/-! ### A controller step under any schedule -/

/-- A controller step takes its event, if there is one, and moves the epoch on. -/
theorem takeEvent_controller (hn : ControllerNext s) : takeEvent s = { s with events := s.events.tail, epoch := s.epoch + 1 } := by
  rcases hn with he | he
  · simp [takeEvent, he]
  · obtain ⟨es, he⟩ := List.head?_eq_some_iff.1 he
    simp [takeEvent, he]

/-- The response to a port request does the same whatever the schedule holds after it. -/
theorem performs_portReq_scheduled (r : PortReq) (es : List Event) (s : State) :
    performs (.portReq r) (scheduled es s) = rescheduled es (performs (.portReq r) s) := by
  unfold performs
  cases hd : decode (.portReq r) with
  | ok i => exact exec_port_scheduled (decodePort_isPort hd) es s
  | error e => rfl

/-- A controller step between host accesses is that with an empty schedule (45_control.md R135). -/
theorem step_controller_scheduled (h : s.events = .controller :: es) (hb : s.busy = true)
    (hp : ∀ q, s.port = some q → q.port ≠ .entropy) : step s = rescheduled es (step (scheduled [] s)) := by
  have hn : ControllerNext s := .inr (by rw [h]; rfl)
  have hn' : ControllerNext (scheduled [] s) := .inl rfl
  have htake : takeEvent s = scheduled es (takeEvent (scheduled [] s)) := by
    rw [takeEvent_controller hn, takeEvent_controller hn', h]
    rfl
  cases hport : s.port with
  | none => rw [step_issued hn hb hport, step_issued hn' hb hport, htake, advance_scheduled]
  | some r =>
    have hr := hp r hport
    rw [step_eq_performs (fetch_request hn hb hport hr), step_eq_performs (fetch_request hn' hb hport hr), htake,
      performs_portReq_scheduled]

end

/-! ### The statements about the next step -/

/-- Settles O5: `step` performs what it fetched; a transaction is no read, so the epoch moves on. -/
theorem stepRunsDecodedInstruction : Obligations.StepRunsDecodedInstruction := by
  intro s t i hf hd
  refine ⟨by rw [step_eq_performs hf, performs, hd], ?_⟩
  have hepoch := takeEvent_epoch_of_fetch hf
  apply State.ext
  case events => exact takeEvent_events s
  case epoch => exact hepoch
  case response =>
    unfold takeEvent
    cases s.events with
    | nil => rfl
    | cons e es => cases e <;> rfl
  all_goals simp

/-- Settles O6: what each event fetches, and `step_controller_scheduled`. -/
theorem fetchIsTheNextTransaction : Obligations.FetchIsTheNextTransaction := by
  intro s v r es
  refine ⟨fetch_ctrlWrite, fetch_statusWrite, fun hb hp he => ?_, fun hb hp he => ?_, fun hb hp he => ?_, fun hb hp he => ?_⟩
  · have hn : ControllerNext s := he.imp_right fun he => by rw [he]; rfl
    rw [fetch_controller hn hb, answerable_some hp]
  · rw [fetch_entropy he hb, entropyOutstanding_some hp]
  · have hn : ControllerNext s := he.imp And.left fun he => by rw [he]; rfl
    have htail : s.events.tail = es := by
      rcases he with ⟨he, hes⟩ | he
      · rw [he, hes]; rfl
      · rw [he]; rfl
    refine ⟨by rw [fetch_controller hn hb, answerable, hp], ?_⟩
    rw [step_issued hn hb hp, takeEvent_controller hn, htail]
  · have hstep := step_controller_scheduled he hb hp
    exact ⟨fun t ht => hstep.trans (congrArg (rescheduled es) ht), fun f hf => hstep.trans (congrArg (rescheduled es) hf)⟩

/-! ### CTRL words -/

/-- The first START check (45_control.md R129): before any length. -/
theorem startCheck_illegal {s : State} (h : reservedCmd s.ctrl.cmd = true ∨ curveOfCode s.ctrl.curve = none) :
    startCheck s = some .illegalCmd := by
  unfold startCheck
  split
  · rfl
  · rename_i hcmd
    rw [h.resolve_left hcmd]

/-- A START that names no command or no curve is rejected in its own step, with the fields stored (45_control.md R129). -/
theorem startWith_illegal {s : State} {cmd : BitVec 3} {f : CtrlFields} (hb : s.busy = false)
    (h : reservedCmd cmd = true ∨ curveOfCode f.curve = none) :
    startWith cmd f s = .next (rejectStart .illegalCmd (storeFields cmd f s)) := by
  rw [startWith, hb, if_neg Bool.false_ne_true, startAttempt, startCheck_illegal (s := storeFields cmd f s) h]

/-- Settles O11: every row here is a START, of a reserved CMD or of a CURVE that names none. -/
theorem illegalStartRejected : Obligations.IllegalStartRejected := by
  intro s f g hb hg rejected
  have hcurve : curveOfCode g.curve = none := by rw [hg]; rfl
  exact ⟨startWith_illegal hb (.inl rfl), startWith_illegal hb (.inl rfl), startWith_illegal hb (.inl rfl),
    startWith_illegal hb (.inl rfl), startWith_illegal hb (.inr hcurve), startWith_illegal hb (.inr hcurve),
    startWith_illegal hb (.inr hcurve), startWith_illegal hb (.inr hcurve)⟩

/-- Settles O13: the word is fetched in busy mode, where `performs_ctrlWord_busy` reads bits 10 and 1 alone. -/
theorem busyCtrlWriteStoresIeAndAborts : Obligations.BusyCtrlWriteStoresIeAndAborts := by
  intro s v es hb he stored
  have hstored : storeIe (v.getLsbD 10) (takeEvent s) = stored := by simp only [takeEvent, he]; rfl
  have hf : fetch s = some (.ctrlWord true v) := hb ▸ fetch_ctrlWrite he
  rw [step_eq_performs hf, performs_ctrlWord_busy v (by simpa using hb), hstored]
  rfl

end Sys2Proof.Machine
end

section
/-! PROOFS (40_primitives.md R88, 60_exceptions.md R142). A legal controller stops for an unwritten operand byte alone: one lemma per issue
function and per response, each from the places where it is reached (`commandAt`, `sentAt`). -/

namespace Sys2Proof.Machine

open Sys2Proof

/-! ### The shared operations -/

theorem badStop_next (t : State) : badStop (.next t) = false := rfl

/-- A missing operand byte is no bad stop (10_state.md R32). -/
theorem badStop_withOperand {o : Option Bytes} {k : Bytes → Result} (h : ∀ b, badStop (k b) = false) :
    badStop (withOperand o k) = false := by
  cases o with
  | none => rfl
  | some b => exact h b

theorem badStop_receive {r : PortReq} {s : State} {k : State → Result} (h : badStop (k s) = false) :
    badStop (receive r s k) = false := by
  unfold receive
  split
  · exact h
  · exact badStop_next s

/-! ### (a) Issue -/

section
variable {c : CurveId} {s : State}

/-- The beginning of the nonce loop reads its operands and sends its request. -/
theorem issueNonceHash_safe : badStop (issueNonce c .nonceHash s) = false :=
  badStop_withOperand fun _ => badStop_withOperand fun _ => badStop_withOperand fun _ => badStop_next _

theorem enterPubkey_safe : badStop (enterPubkey c s) = false := badStop_withOperand fun _ => badStop_next _

theorem enterSign_safe : badStop (enterSign c s) = false := by
  unfold enterSign
  split
  · exact badStop_withOperand fun _ => badStop_next _
  · split
    · exact badStop_next _
    · exact issueNonceHash_safe

theorem enterVerifyKey_safe : badStop (enterVerifyKey c s) = false := by
  unfold enterVerifyKey
  split
  · exact badStop_next _
  · refine badStop_withOperand fun tag => ?_
    split
    · exact badStop_next _
    · exact badStop_withOperand fun _ => badStop_next _

theorem enterVerify_safe : badStop (enterVerify c s) = false := by
  unfold enterVerify
  split
  · exact badStop_next _
  · refine badStop_withOperand fun sig => ?_
    simp only
    split
    · exact badStop_next _
    · exact enterVerifyKey_safe

/-- CMD names one of the four commands where it is not reserved (30_encoding.md R59). -/
theorem cmd_of_not_reserved {cmd : BitVec 3} (h : reservedCmd cmd = false) : cmd = 1 ∨ cmd = 2 ∨ cmd = 3 ∨ cmd = 4 := by
  revert cmd
  decide

theorem enterCommand_safe (h : reservedCmd s.ctrl.cmd = false) : badStop (enterCommand c s) = false := by
  unfold enterCommand
  rcases cmd_of_not_reserved h with h | h | h | h <;> rw [h]
  · exact enterPubkey_safe
  · exact issueNonceHash_safe
  · exact enterSign_safe
  · exact enterVerify_safe

/-- Each place sends its request; the places that read operands may miss a byte. -/
theorem issueAt_safe (h : commandAt s.ctrl s.site) : badStop (issueAt c s) = false := by
  unfold issueAt
  cases hs : s.site with
  | entry =>
    rw [hs] at h
    exact enterCommand_safe h
  | nonceHash => exact issueNonceHash_safe
  | sgHash | vfHash => exact badStop_withOperand fun _ => badStop_withOperand fun _ => badStop_next _
  | sgMulD | sgSubE | vfAddE => exact badStop_withOperand fun _ => badStop_next _
  | pkBase | pkMul | pkIsId | pkToAffine | nonceStretch | sgDraw | sgBase | sgMul | sgIsId | sgToAffine | sgAddW | sgSubT
  | vfFromAffine | vfAddW | vfBase | vfMulQ | vfMulG | vfAdd | vfIsId | vfToAffine => exact badStop_next _

theorem advance_safe (h : RunningOk c s) : badStop (advance s) = false := by
  rw [advance_eq h.curve]
  exact issueAt_safe h.command

/-! ### (b) Respond: the places that send each request -/

variable {r : Scratch} {x : Site} {c' : CurveId}

theorem site_of_cgBase (h : sentAt c r x (.cgBase c')) : x = .pkBase ∨ x = .sgBase ∨ x = .vfBase := by
  cases x <;> first | exact h.elim | decide

theorem site_of_cgMul {P : Pt} {k : Nat} (h : sentAt c r x (.cgMul c' P k)) :
    x = .pkMul ∨ x = .sgMul ∨ x = .vfMulQ ∨ x = .vfMulG := by
  cases x <;> first | exact h.elim | decide

theorem site_of_cgAdd {P Q : Pt} (h : sentAt c r x (.cgAdd c' P Q)) : x = .vfAdd := by
  cases x <;> first | exact h.elim | rfl

theorem site_of_cgFromAffine {u v : Nat} (h : sentAt c r x (.cgFromAffine c' u v)) : x = .vfFromAffine := by
  cases x <;> first | exact h.elim | rfl

theorem site_of_cgIsId {P : Pt} (h : sentAt c r x (.cgIsId c' P)) : x = .pkIsId ∨ x = .sgIsId ∨ x = .vfIsId := by
  cases x <;> first | exact h.elim | decide

/-- Coordinates are asked of a point other than `O` alone (40_primitives.md R88). -/
theorem site_of_cgToAffine {P : Pt} (h : sentAt c r x (.cgToAffine c' P)) :
    P ≠ .infinity ∧ (x = .pkToAffine ∨ x = .sgToAffine ∨ x = .vfToAffine) := by
  cases x <;> first | exact h.elim | exact ⟨h.2, by decide⟩

theorem site_of_cgFnAdd {a b : Nat} (h : sentAt c r x (.cgFnAdd c' a b)) : x = .sgAddW ∨ x = .vfAddE ∨ x = .vfAddW := by
  cases x <;> first | exact h.elim | decide

theorem site_of_cgFnSub {a b : Nat} (h : sentAt c r x (.cgFnSub c' a b)) : x = .sgSubE ∨ x = .sgSubT := by
  cases x <;> first | exact h.elim | decide

theorem site_of_cgFnMul {a b : Nat} (h : sentAt c r x (.cgFnMul c' a b)) : x = .sgMulD := by
  cases x <;> first | exact h.elim | rfl

theorem site_of_deHash {m : Bytes} (h : sentAt c r x (.deHash m)) : x = .nonceHash ∨ x = .sgHash ∨ x = .vfHash := by
  cases x <;> first | exact h.elim | decide

theorem site_of_deStretch {key b : Bytes} (h : sentAt c r x (.deStretch key b)) : x = .nonceStretch := by
  cases x <;> first | exact h.elim | rfl

theorem site_of_entDraw {m : Nat} (h : sentAt c r x (.entDraw m)) : x = .sgDraw := by
  cases x <;> first | exact h.elim | rfl

/-! ### (b) Respond: the answer -/

/-- The answer that seeds the nonce loop reads the digest. -/
theorem afterHash_safe {m : Bytes} (hc : curveOfCode s.ctrl.curve = some c)
    (hx : s.site = .nonceHash ∨ s.site = .sgHash ∨ s.site = .vfHash) : badStop (afterHash m s) = false := by
  rw [afterHash, withCurve_some hc]
  rcases hx with hx | hx | hx <;> rw [hx]
  · exact badStop_withOperand fun _ => badStop_next _
  · exact badStop_next _
  · exact badStop_next _

theorem execCgToAffine_safe {P : Pt} (hP : P ≠ .infinity)
    (hx : s.site = .pkToAffine ∨ s.site = .sgToAffine ∨ s.site = .vfToAffine) : badStop (execCgToAffine c' P s) = false := by
  refine badStop_receive ?_
  cases P with
  | infinity => exact absurd rfl hP
  | finite k => rcases hx with hx | hx | hx <;> simp only [afterToAffine, hx] <;> rfl

/-- The meaning of a request that the place sends is no bad stop. -/
theorem exec_safe {i : Instr} (hc : curveOfCode s.ctrl.curve = some c) (hs : sentAt c s.scratch s.site i) :
    badStop (exec i s) = false := by
  cases i with
  | cgBase c' =>
    refine badStop_receive ?_
    rcases site_of_cgBase hs with hx | hx | hx <;> simp only [afterBase, hx] <;> rfl
  | cgMul c' P k =>
    refine badStop_receive ?_
    rcases site_of_cgMul hs with hx | hx | hx | hx <;> simp only [afterMul, hx] <;> rfl
  | cgAdd c' P Q =>
    refine badStop_receive ?_
    rw [afterAdd, site_of_cgAdd hs]
    rfl
  | cgFromAffine c' u v =>
    refine badStop_receive ?_
    rw [afterFromAffine, site_of_cgFromAffine hs]
    rfl
  | cgIsId c' P =>
    refine badStop_receive ?_
    rcases site_of_cgIsId hs with hx | hx | hx <;> simp only [afterIsId, hx] <;> rfl
  | cgToAffine c' P => exact execCgToAffine_safe (site_of_cgToAffine hs).1 (site_of_cgToAffine hs).2
  | cgFnAdd c' a b =>
    refine badStop_receive ?_
    rcases site_of_cgFnAdd hs with hx | hx | hx <;> simp only [afterFnAdd, hx] <;> rfl
  | cgFnSub c' a b =>
    refine badStop_receive ?_
    rcases site_of_cgFnSub hs with hx | hx <;> simp only [afterFnSub, hx] <;> rfl
  | cgFnMul c' a b =>
    refine badStop_receive ?_
    rw [afterFnMul, site_of_cgFnMul hs]
    rfl
  | deHash m => exact badStop_receive (afterHash_safe hc (site_of_deHash hs))
  | deStretch key b =>
    refine badStop_receive ?_
    rw [afterStretch, withCurve_some hc, site_of_deStretch hs]
    rfl
  | entDraw m =>
    refine badStop_receive ?_
    rw [afterDraw, site_of_entDraw hs]
    rfl
  | pubkey | genk | sign | verify | reservedCmd0 | reservedCmd5 | reservedCmd6 | reservedCmd7 | cfg | abort | doneClr =>
    cases hx : s.site <;> rw [hx] at hs <;> exact hs.elim

end

/-! ### Every step -/

/-- A legal controller runs its command, or is idle and has nothing to do. -/
theorem controllerStep_safe {s : State} (h : ControllerOk s) : badStop (controllerStep s) = false := by
  unfold controllerStep
  split
  · rename_i hc
    obtain ⟨c, hrun⟩ := h.running ((busy_iff s).1 (Bool.and_eq_true_iff.1 hc).1)
    exact advance_safe hrun
  · exact badStop_next s

/-- Without a transaction only a controller step can stop. -/
theorem runEvent_safe {s : State} (h : ControllerOk (takeEvent s)) : badStop (runEvent s) = false := by
  unfold runEvent
  split
  · split
    · exact controllerStep_safe h
    · exact badStop_next s
  · exact controllerStep_safe h
  all_goals exact badStop_next _

theorem performs_ctrlWord_safe (w : Word) (s : State) : badStop (performs (.ctrlWord s.busy w) s) = false := by
  cases hb : s.busy with
  | true => rw [performs_ctrlWord_busy w hb, badStop_next]
  | false => rw [performs_ctrlWord_idle w hb, badStop_next]

/-- The outstanding request of a running command is the one its place sends. -/
theorem performs_portReq_safe {s : State} {r : PortReq} (h : ControllerOk s) (hb : s.busy = true) (hp : s.port = some r) :
    badStop (performs (.portReq r) s) = false := by
  obtain ⟨c, hrun⟩ := h.running ((busy_iff s).1 hb)
  obtain ⟨i, he, hs⟩ := hrun.request r hp
  rw [performs, decode, decodePort_of_encode he]
  exact exec_safe hrun.curve hs

/-- Settles O54: a step performs the transaction it fetches, the answer to a request that its place sends among them, or lets the controller
issue; both only miss operand bytes. -/
theorem onlyUnwrittenOperandsStop : Obligations.OnlyUnwrittenOperandsStop := by
  intro s h
  have htaken : ControllerOk (takeEvent s) := h.congr (sameCommand_takeEvent s)
  cases hf : fetch s with
  | none => rw [step_eq_runEvent hf, runEvent_safe htaken]
  | some u =>
    rw [step_eq_performs hf]
    rcases fetch_busy hf with ⟨w, rfl⟩ | ⟨w, rfl⟩ | ⟨r, rfl, hb, hp⟩
    · rw [← takeEvent_busy, performs_ctrlWord_safe]
    · rw [performs_statusWord, badStop_next]
    · exact performs_portReq_safe htaken (by simpa using hb) (by simpa using hp)

end Sys2Proof.Machine
end


section
/-! PROOFS (40_primitives.md R72 to R75, R80, R92, R96). The laws that the answers and the commands rest on: multiples in the group, the
signing equation as a congruence, and the framing read back. -/

namespace Sys2Proof.Machine

open Sys2Proof

/-! ### Multiples in the group (40_primitives.md R92) -/

section
variable {c : CurveId} {r : CurveRecord c} (g : CurveGroup c r) (P : Pt)

theorem scalarMul_succ (k : Nat) : scalarMul g.add (k + 1) P = g.add (scalarMul g.add k P) P := rfl

theorem scalarMul_add (a b : Nat) : scalarMul g.add (a + b) P = g.add (scalarMul g.add a P) (scalarMul g.add b P) := by
  induction b with
  | zero => rw [Nat.add_zero, scalarMul, g.add_comm, g.infinity_add]
  | succ b ih => rw [← Nat.add_assoc, scalarMul_succ, scalarMul_succ, ih, g.add_assoc]

theorem scalarMul_mul (a b : Nat) : scalarMul g.add (a * b) P = scalarMul g.add a (scalarMul g.add b P) := by
  induction a with
  | zero => rw [Nat.zero_mul, scalarMul, scalarMul]
  | succ a ih => rw [Nat.succ_mul, scalarMul_add, ih, scalarMul_succ]

theorem scalarMul_infinity (k : Nat) : scalarMul g.add k .infinity = .infinity := by
  induction k with
  | zero => rfl
  | succ k ih => rw [scalarMul_succ, ih, g.infinity_add]

variable {P}

/-- A multiple of a point whose order divides `n` is that of the residue (40_primitives.md R84). -/
theorem scalarMul_mod {n : Nat} (h : scalarMul g.add n P = .infinity) (k : Nat) :
    scalarMul g.add (k % n) P = scalarMul g.add k P := by
  have hmultiple : scalarMul g.add (n * (k / n)) P = .infinity := by
    rw [Nat.mul_comm, scalarMul_mul, h, scalarMul_infinity]
  calc scalarMul g.add (k % n) P
      = g.add (scalarMul g.add (n * (k / n)) P) (scalarMul g.add (k % n) P) := by rw [hmultiple, g.infinity_add]
    _ = scalarMul g.add k P := by rw [← scalarMul_add, Nat.div_add_mod]

/-- Scalars that agree mod `n` have the same multiple. -/
theorem scalarMul_congr {n a b : Nat} (h : scalarMul g.add n P = .infinity) (hab : a ≡ b [MOD n]) :
    scalarMul g.add a P = scalarMul g.add b P := by
  rw [← scalarMul_mod g h a, hab, scalarMul_mod g h b]

end

/-! ### The signing equation (40_primitives.md R96, 43_sign.md R115) -/

/-- The least residue of an integer is congruent to it. -/
theorem intMod_modEq (x : Int) {n : Nat} (hn : 0 < n) : (intMod x n : Int) ≡ x [ZMOD n] := by
  rw [(intMod_spec x hn).2]
  exact Int.mod_modEq x n

/-- Congruent integers have the same least residue. -/
theorem intMod_congr {x y : Int} {n : Nat} (h : x ≡ y [ZMOD n]) : intMod x n = intMod y n := congrArg Int.toNat h

/-- Settles O58: each answer is congruent to the integer it stands for, and only the last reduction is seen. -/
theorem scalarChainIsSigningEquation : Obligations.ScalarChainIsSigningEquation := by
  intro c k e s0n d
  have hn := order_pos c
  refine ⟨intMod_congr ?_, (intMod_spec _ hn).1⟩
  have hsum : (fnAdd c s0n (wOf c) : Int) ≡ (s0n : Int) + wOf c [ZMOD Config.order c] := by
    simpa [fnAdd] using Int.mod_modEq ((s0n : Int) + wOf c) (Config.order c)
  have hproduct : (fnMul c (fnAdd c s0n (wOf c)) d : Int) ≡ fnAdd c s0n (wOf c) * d [ZMOD Config.order c] := by
    simpa [fnMul] using Int.mod_modEq ((fnAdd c s0n (wOf c) : Int) * d) (Config.order c)
  exact (intMod_modEq _ hn).sub (hproduct.trans (hsum.mul_right _))

/-- The signing equation solved for the one-time key: S1 + e + (S0 + W)·d is k mod n (44_verify.md R123). -/
theorem signingEquation_solved (c : CurveId) {n : Nat} (hn : 0 < n) (k e s0n d : Nat) :
    (signingEquation c n k e s0n d + e) % n + (s0n + wOf c) % n * d ≡ k [MOD n] := by
  have hs1 := intMod_modEq ((k : Int) - e - ((s0n : Int) + wOf c) * d) hn
  have hreduced : (signingEquation c n k e s0n d + e) % n + (s0n + wOf c) % n * d ≡
      signingEquation c n k e s0n d + e + (s0n + wOf c) * d [MOD n] :=
    (Nat.mod_modEq _ _).add ((Nat.mod_modEq _ _).mul_right _)
  refine hreduced.trans ((Int.natCast_modEq_iff).1 ?_)
  push_cast
  calc (signingEquation c n k e s0n d : Int) + e + (s0n + wOf c) * d
      ≡ k - e - (s0n + wOf c) * d + e + (s0n + wOf c) * d [ZMOD n] := (hs1.add_right _).add_right _
    _ = k := by ring

/-! ### Framing (40_primitives.md R72 to R75, R80) -/

section
variable {c : CurveId}

theorem len_eq_two_mul_half (c : CurveId) : c.len = 2 * c.half := by cases c <;> rfl

theorem encPub_length (x y : Nat) : (encPub c x y).length = pubLenOf c := by
  simp only [encPub, pubLenOf, List.length_cons, List.length_append, leBytes_length]
  omega

/-- The coordinates come back from the bytes after the tag. -/
theorem decCoordinates_encPub {x y : Nat} (hx : x < 256 ^ c.len) (hy : y < 256 ^ c.len) :
    decCoordinates c (encPub c x y).tail = (x, y) := by
  rw [encPub, List.tail_cons, decCoordinates, List.take_left' (leBytes_length _ _), List.drop_left' (leBytes_length _ _),
    leNat_leBytes hx, leNat_leBytes hy]

theorem encSig_length {s0 : Bytes} (h : s0.length = c.half) (s1 : Nat) : (encSig c s0 s1).length = sigLenOf c := by
  rw [encSig, List.length_append, leBytes_length, h, len_eq_two_mul_half, sigLenOf]
  omega

/-- The parts of a signature come back. -/
theorem decSig_encSig {s0 : Bytes} {s1 : Nat} (h : s0.length = c.half) (h1 : s1 < 256 ^ c.len) :
    decSig c (encSig c s0 s1) = (s0, s1) := by
  rw [encSig, decSig, List.take_left' h, List.drop_left' h, leNat_leBytes h1]

/-- `BE_m(BE(b)) = b` for `|b| = m`. -/
theorem beBytes_beNat (b : Bytes) : beBytes b.length (beNat b) = b := by
  rw [beBytes, beNat, ← List.length_reverse, leBytes_leNat, List.reverse_reverse]

end

/-- Settles O59: each field is taken out at its length, and LE and BE undo their encodings. -/
theorem framingRoundTrips : Obligations.FramingRoundTrips := by
  intro c x y s1 s0 cand hx hy hs1 hs0 hcand
  exact ⟨encPub_length x y, rfl, decCoordinates_encPub hx hy, encSig_length hs0 s1, decSig_encSig hs0 hs1,
    hcand ▸ beBytes_beNat cand⟩

end Sys2Proof.Machine
end

section
/-! PROOFS (95_test_vectors.md V2). A signature that SIGN makes is verified with the key that PUBKEY makes: what the two commands answer,
what VERIFY computes from their bytes, and that the point it reconstructs is the one SIGN multiplied. -/

namespace Sys2Proof.Machine

open Sys2Proof

section
variable {c : CurveId} {v : Curve c}

/-- From invariant (i) of 00_scope.md R6: coordinates and scalars have L bytes, on every curve. -/
theorem lt_len_of_lt {r : CurveRecord c} {x : Nat} (h : x < r.p ∨ x < r.n) : x < 256 ^ c.len := by
  have hsize := r.size_lt
  omega

/-- A public key frames the coordinates of d·G (41_pubkey.md R97). -/
theorem pubkeyResult_ok {d : Nat} {pub : Bytes} (h : pubkeyResult v d = .ok pub) :
    scalarMul v.group.add d v.group.base ≠ .infinity ∧
      pub = encPub c (v.group.toAffine (scalarMul v.group.add d v.group.base)).1
        (v.group.toAffine (scalarMul v.group.add d v.group.base)).2 := by
  unfold pubkeyResult at h
  split at h
  · rename_i hacc
    rw [v.group.mul_law _ _ hacc] at h
    split at h
    · cases h
    · rename_i hne
      cases h
      exact ⟨hne, rfl⟩
  · cases h

/-- A signature frames S0 of k·G and the solution of the signing equation (43_sign.md R113 to R116). -/
theorem signResult_ok {hash : Bytes → Bytes} {oid dig kb sig : Bytes} {d : Nat} (h : signResult v hash oid dig kb d = .ok sig) :
    scalarMul v.group.add (leNat kb) v.group.base ≠ .infinity ∧
      ∃ s0, s0 = s0Bytes c hash oid dig (v.group.toAffine (scalarMul v.group.add (leNat kb) v.group.base)).1 ∧
        sig = encSig c s0 (signingEquation c v.record.n (leNat kb) (leNat dig) (leNat s0) d) := by
  unfold signResult at h
  split at h
  · rename_i hacc
    simp only [v.group.mul_law _ _ hacc] at h
    split at h
    · cases h
    · rename_i hne
      cases h
      exact ⟨hne, _, rfl, rfl⟩
  · cases h

/-- The reconstructed point is u·G + w·Q, where no scalar is rejected; u = 0 skips its multiplication (44_verify.md R124). -/
theorem verifyPoint_some {Q R : Pt} {u w : Nat} (h : verifyPoint v Q u w = some R) :
    R = v.group.add (scalarMul v.group.add u v.group.base) (scalarMul v.group.add w Q) := by
  unfold verifyPoint at h
  split at h
  · rename_i hw
    rw [v.group.mul_law _ _ hw] at h
    split at h
    · rename_i hu
      cases h
      rw [hu, scalarMul, v.group.infinity_add]
    · split at h
      · rename_i hu
        rw [v.group.mul_law _ _ hu] at h
        exact (Option.some.inj h).symm
      · cases h
  · cases h

/-- The comparison of S0 for a reconstructed point; none where a scalar was rejected (44_verify.md R124 to R126). -/
def verifyVerdict (v : Curve c) (hash : Bytes → Bytes) (oid dig s0 : Bytes) : Option Pt → Except ErrCode Bool
  | none => .error .invalidScalar
  | some R => if R = .infinity then .ok false else .ok (s0Bytes c hash oid dig (v.group.toAffine R).1 == s0)

/-- What VERIFY computes from a framed signature and the framed coordinates of a multiple of G (44_verify.md R119 to R126). -/
theorem verifyResult_framed {hash : Bytes → Bytes} {oid dig s0 : Bytes} {s1 d : Nat} {Q : Pt} (h0 : s0.length = c.half)
    (h1 : s1 < v.record.n) (hQ : Q = scalarMul v.group.add d v.group.base) (hne : Q ≠ .infinity) :
    verifyResult v hash oid dig (encSig c s0 s1) (encPub c (v.group.toAffine Q).1 (v.group.toAffine Q).2) =
      verifyVerdict v hash oid dig s0
        (verifyPoint v Q ((s1 + leNat dig) % v.record.n) ((leNat s0 + wOf c) % v.record.n)) := by
  obtain ⟨hx, hy⟩ := v.group.coord_lt Q hne
  have hvalid : v.group.valid (v.group.toAffine Q).1 (v.group.toAffine Q).2 = true := by
    subst hQ
    exact v.group.valid_to d hne
  have hpoint : v.group.fromAffine (v.group.toAffine Q).1 (v.group.toAffine Q).2 = Q := by
    subst hQ
    exact v.group.from_to d hne
  have hframe : ¬ ((encPub c (v.group.toAffine Q).1 (v.group.toAffine Q).2).length ≠ pubLenOf c ∨
      (encPub c (v.group.toAffine Q).1 (v.group.toAffine Q).2).head? ≠ some pubTag) :=
    not_or.2 ⟨not_not.2 (encPub_length _ _), not_not.2 rfl⟩
  unfold verifyResult
  rw [if_neg (not_not.2 (encSig_length h0 s1)), decSig_encSig h0 (lt_len_of_lt (.inr h1)),
    decCoordinates_encPub (lt_len_of_lt (.inl hx)) (lt_len_of_lt (.inl hy))]
  simp only
  rw [if_neg (by omega), if_neg hframe, if_pos hvalid, hpoint]
  rfl

/-- u·G + w·(d·G) is k·G, for the u and w of VERIFY (44_verify.md R123, R124). -/
theorem reconstructed_eq (k e s0n d : Nat) :
    v.group.add (scalarMul v.group.add ((signingEquation c v.record.n k e s0n d + e) % v.record.n) v.group.base)
        (scalarMul v.group.add ((s0n + wOf c) % v.record.n) (scalarMul v.group.add d v.group.base)) =
      scalarMul v.group.add k v.group.base := by
  rw [← scalarMul_mul, ← scalarMul_add]
  exact scalarMul_congr v.group v.group.base_order (signingEquation_solved c v.record.n_prime.pos k e s0n d)

end

/-- Settles O60: VERIFY reconstructs the point that SIGN multiplied, so it hashes the same coordinate into S0. -/
theorem signedMessageVerifies : Obligations.SignedMessageVerifies := by
  intro c v hash oid dig kb pub sig d hlen hpub hsig
  obtain ⟨hQ, rfl⟩ := pubkeyResult_ok hpub
  obtain ⟨hR, s0, hs0, rfl⟩ := signResult_ok hsig
  have h0 : s0.length = c.half := by
    rw [hs0, s0Bytes, truncS0, List.length_take]
    exact Nat.min_eq_left (hlen _)
  have h1 : signingEquation c v.record.n (leNat kb) (leNat dig) (leNat s0) d < v.record.n :=
    (intMod_spec _ v.record.n_prime.pos).1
  rw [verifyResult_framed h0 h1 rfl hQ]
  cases hpoint : verifyPoint v (scalarMul v.group.add d v.group.base)
      ((signingEquation c v.record.n (leNat kb) (leNat dig) (leNat s0) d + leNat dig) % v.record.n)
      ((leNat s0 + wOf c) % v.record.n) with
  | none => exact .inr rfl
  | some R =>
    left
    rw [verifyPoint_some hpoint, reconstructed_eq, verifyVerdict, if_neg hR, ← hs0, beq_self_eq_true]

end Sys2Proof.Machine
end

section
/-! PROOFS (40_primitives.md R83 to R92). The CurveGroup's answers up to the next call: the request is outstanding, so it is received, and
the place says where the command goes on. -/

namespace Sys2Proof.Machine

open Sys2Proof

section
variable {c : CurveId} {s : State}

/-! ### CG_BASE -/

/-- Where CG_BASE is awaited it gives the base point (R83). -/
theorem execCgBase_received (hp : s.port = some (curveGroupReq c 0 [])) :
    exec (.cgBase c) s = afterBase (Config.curve c).group.base s := receive_outstanding hp _

/-! ### CG_MUL -/

/-- Where the scalar is accepted the answer is the multiple by the unreduced scalar, elsewhere there is none (R84). -/
theorem cgMulAnswer_eq (c : CurveId) (P : Pt) (k : Nat) : cgMulAnswer c P k =
    if (Config.curve c).group.accepts k then some (scalarMul (Config.curve c).group.add k P) else none := by
  unfold cgMulAnswer
  split
  · rename_i hacc
    rw [(Config.curve c).group.mul_law P k hacc]
  · rfl

theorem execCgMul_received {P : Pt} {k : Nat} (hp : s.port = some (curveGroupReq c 1 [.point P, .nat k])) :
    exec (.cgMul c P k) s = afterMul (if (Config.curve c).group.accepts k then
      some (scalarMul (Config.curve c).group.add k P) else none) s :=
  (receive_outstanding hp _).trans (by rw [cgMulAnswer_eq])

/-- A point given under a condition goes on, or raises the error. -/
theorem orRaise_ite (code : ErrCode) (a : Bool) (P : Pt) (k : Pt → State) :
    orRaise code (if a then some P else none) s k = if a then k P else raiseErr code s := by
  cases a <;> rfl

/-- After v·Q the place depends on u (44_verify.md R124). -/
theorem afterMulQ_of_eq_zero (hu : s.scratch.u = 0) (P : Pt) :
    afterMulQ P s = moveTo .vfIsId (setScratch { s.scratch with ptB := P, ptR := P } s) := if_pos hu

theorem afterMulQ_of_ne_zero (hu : s.scratch.u ≠ 0) (P : Pt) :
    afterMulQ P s = moveTo .vfMulG (setScratch { s.scratch with ptB := P } s) := if_neg hu

/-! ### CG_IS_ID -/

/-- A choice by the answer of CG_IS_ID is a choice by P = O (R87). -/
theorem ite_beq_infinity {α : Type} (P : Pt) (a b : α) : (if P == .infinity then a else b) = if P = .infinity then a else b := by
  simp only [beq_iff_eq]

end

/-- Settles O28: the three places that await CG_BASE, and the base point's coordinates. -/
theorem cgBaseAnswers : Obligations.CgBaseAnswers := by
  intro s c hp G after
  have hexec : exec (.cgBase c) s = afterBase G s := execCgBase_received hp
  refine ⟨fun hs => ?_, fun hs => ?_, fun hs => ?_, (Config.curve c).group.base_affine, (Config.curve c).record.gx_bign128⟩
  all_goals
    rw [hexec, afterBase, hs]
    rfl

/-- Settles O29: the four places that await CG_MUL, and the multiple of the residue by `scalarMul_mod`. -/
theorem cgMulAnswers : Obligations.CgMulAnswers := by
  intro s c P k hp g sP after
  have hexec : exec (.cgMul c P k) s = afterMul (if g.accepts k then some sP else none) s := execCgMul_received hp
  refine ⟨fun hs => ?_, fun hs => ?_, fun hs => ?_, fun hs hu => ?_, fun hs hu => ?_, fun hn => ?_⟩
  iterate 3
    rw [hexec, afterMul, hs]
    exact congrArg _ (orRaise_ite _ _ _ _)
  · simp only [hexec, afterMul, hs, afterMulQ_of_eq_zero hu]
    exact congrArg _ (orRaise_ite _ _ _ _)
  · simp only [hexec, afterMul, hs, afterMulQ_of_ne_zero hu]
    exact congrArg _ (orRaise_ite _ _ _ _)
  · have hresidue : sP = scalarMul g.add (k % Config.order c) P := (scalarMul_mod g hn k).symm
    exact ⟨hresidue, fun hk => by rw [hresidue, hk, scalarMul]⟩

/-- Settles O30: CG_ADD is awaited at one place, and the laws are the collaborator's. -/
theorem cgAddAnswers : Obligations.CgAddAnswers := by
  intro s c P Q hp hs g
  have hexec : exec (.cgAdd c P Q) s = afterAdd (g.add P Q) s := receive_outstanding hp _
  refine ⟨?_, g.infinity_add P, g.add_comm P Q, g.add_neg P⟩
  rw [hexec, afterAdd, hs]
  rfl

/-- Settles O31: CG_FROM_AFFINE is awaited at one place, and the laws are the collaborator's. -/
theorem cgFromAffineAnswers : Obligations.CgFromAffineAnswers := by
  intro s c x y hp hs g
  have hexec : exec (.cgFromAffine c x y) s = afterFromAffine (if g.valid x y then some (g.fromAffine x y) else none) s :=
    receive_outstanding hp _
  refine ⟨?_, fun hv => ⟨(g.subgroup x y hv).1, g.to_from x y hv, (g.subgroup x y hv).2⟩⟩
  rw [hexec, afterFromAffine, hs]
  exact congrArg _ (orRaise_ite _ _ _ _)

/-- Settles O32: the three places that await CG_IS_ID. -/
theorem cgIsIdAnswers : Obligations.CgIsIdAnswers := by
  intro s c P hp after
  have hexec : exec (.cgIsId c P) s = afterIsId (P == .infinity) s := receive_outstanding hp _
  refine ⟨fun hs => ?_, fun hs => ?_, fun hs => ?_⟩
  all_goals
    rw [hexec, afterIsId, hs]
    exact congrArg _ (ite_beq_infinity P _ _)

/-- Settles O34: the three places that await CG_FN_ADD and the one that awaits CG_FN_MUL. -/
theorem cgFnAddMulAnswer : Obligations.CgFnAddMulAnswer := by
  intro s c a b n
  refine ⟨fun hp => ?_, fun hp hs => ?_, Nat.mod_lt _ (order_pos c), Nat.mod_lt _ (order_pos c)⟩
  · have hexec : exec (.cgFnAdd c a b) s = afterFnAdd ((a + b) % n) s := receive_outstanding hp _
    refine ⟨fun hs => ?_, fun hs => ?_, fun hs => ?_⟩
    all_goals
      rw [hexec, afterFnAdd, hs]
      rfl
  · have hexec : exec (.cgFnMul c a b) s = afterFnMul (a * b % n) s := receive_outstanding hp _
    rw [hexec, afterFnMul, hs]
    rfl

end Sys2Proof.Machine
end

section
/-! PROOFS (40_primitives.md R88, R90, R93 to R95). The answers that end a command or run the nonce loop: what a completion stores, and the
tests of an iteration. -/

namespace Sys2Proof.Machine

open Sys2Proof

/-! ### What a completion stores -/

/-- Memory and marks after a store: the stored bytes read back, every other byte reads as before. -/
theorem stored_reads {s t : State} {b : Buffer} {bs : Bytes} (hmem : t.mem = (writeBuffer b bs s).mem)
    (hmarks : t.marks = (writeBuffer b bs s).marks) :
    readBuffer t b bs.length = some bs ∧
      ∀ a, (a < bufferBase b ∨ bufferBase b + bs.length ≤ a) → readMarked t a = readMarked s a :=
  ⟨(readBuffer_congr hmem hmarks b _).trans (readBytes_writeBytes _ bs s),
    fun a ha => (readMarked_congr hmem hmarks a).trans (readMarked_writeBytes_outside bs _ s a ha)⟩

/-- The length registers hold PUBLEN and SIGLEN (00_scope.md R154). -/
theorem pubLenOf_toNat (c : CurveId) : (BitVec.ofNat 8 (pubLenOf c)).toNat = 1 + 2 * c.len := by cases c <;> rfl

theorem sigLenOf_toNat (c : CurveId) : (BitVec.ofNat 8 (sigLenOf c)).toNat = 3 * c.half := by cases c <;> rfl

/-- The completion of PUBKEY, field by field (41_pubkey.md R102). -/
theorem completePubkey_eq (c : CurveId) (x y : Nat) (s : State) :
    completePubkey c x y s = { s with
      mem := (completePubkey c x y s).mem, marks := (completePubkey c x y s).marks, pubLen := (completePubkey c x y s).pubLen
      phase := .idle, site := .entry, theta := [], cand := [], scratch := Scratch.none, port := none
      err := .none, valid := false, done := true } := by
  apply State.ext <;> simp [completePubkey]

/-- The completion of SIGN, field by field (43_sign.md R118). -/
theorem completeSign_eq (c : CurveId) (s0 : Bytes) (s1 : Nat) (s : State) :
    completeSign c s0 s1 s = { s with
      mem := (completeSign c s0 s1 s).mem, marks := (completeSign c s0 s1 s).marks, sigLen := (completeSign c s0 s1 s).sigLen
      phase := .idle, site := .entry, theta := [], cand := [], scratch := Scratch.none, port := none
      err := .none, valid := false, done := true } := by
  apply State.ext <;> simp [completeSign]

/-- The completion of GENK, field by field (42_genk.md R109). -/
theorem completeGenk_eq (kb : Bytes) (s : State) :
    completeGenk kb s = { s with
      mem := (completeGenk kb s).mem, marks := (completeGenk kb s).marks
      phase := .idle, site := .entry, theta := [], cand := [], scratch := Scratch.none, port := none
      err := .none, valid := false, done := true } := by
  apply State.ext <;> simp [completeGenk]

/-! ### CG_TO_AFFINE and CG_FN_SUB -/

/-- Where CG_TO_AFFINE of a point other than `O` is awaited it gives the coordinates (R88). -/
theorem execCgToAffine_received {c : CurveId} {s : State} {P : Pt} (hp : s.port = some (curveGroupReq c 5 [.point P]))
    (hP : P ≠ .infinity) : exec (.cgToAffine c P) s =
      afterToAffine c ((Config.curve c).group.toAffine P).1 ((Config.curve c).group.toAffine P).2 s := by
  rw [exec, execCgToAffine, receive_outstanding hp]
  cases P with
  | infinity => exact absurd rfl hP
  | finite h => rfl

/-- The coordinates of `O` stop the model (R88). -/
theorem execCgToAffine_infinity {c : CurveId} {s : State} (hp : s.port = some (curveGroupReq c 5 [.point .infinity])) :
    exec (.cgToAffine c .infinity) s = .fault .unreachable := by
  rw [exec, execCgToAffine, receive_outstanding hp]

/-- Settles O33: the three places that await CG_TO_AFFINE; in PUBKEY the completion stores ENC_PUB. -/
theorem cgToAffineAnswers : Obligations.CgToAffineAnswers := by
  intro s c P hp xy
  refine ⟨fun hP => ?_, (Config.curve c).group.coord_lt P, fun hP hs => ?_, fun hP hs => ?_, fun hP hs => ?_⟩
  · subst hP
    exact execCgToAffine_infinity hp
  iterate 2
    rw [execCgToAffine_received hp hP, afterToAffine, hs]
    rfl
  · obtain ⟨hread, hframe⟩ := stored_reads (t := completePubkey c xy.1 xy.2 s) (s := s) (b := .pub) (bs := encPub c xy.1 xy.2) rfl rfl
    rw [encPub_length] at hread hframe
    refine ⟨completePubkey c xy.1 xy.2 s, ?_, hread, hframe, pubLenOf_toNat c, completePubkey_eq c xy.1 xy.2 s⟩
    rw [execCgToAffine_received hp hP, afterToAffine, hs]

/-- Settles O35: the two places that await CG_FN_SUB; the second is the completion of SIGN, which stores ENC_SIG. -/
theorem cgFnSubAnswers : Obligations.CgFnSubAnswers := by
  intro s c a b hp
  have hexec : exec (.cgFnSub c a b) s = afterFnSub c (fnSub c a b) s := receive_outstanding hp _
  obtain ⟨hlt, hresidue⟩ := intMod_spec ((a : Int) - b) (order_pos c)
  refine ⟨fnSub c a b, hlt, hresidue, fun hs => ?_, fun hs h0 => ?_⟩
  · rw [hexec, afterFnSub, hs]
    rfl
  · obtain ⟨hread, hframe⟩ := stored_reads (t := completeSign c s.scratch.s0 (fnSub c a b) s) (s := s) (b := .sig)
      (bs := encSig c s.scratch.s0 (fnSub c a b)) rfl rfl
    rw [encSig_length h0] at hread hframe
    refine ⟨completeSign c s.scratch.s0 (fnSub c a b) s, ?_, hread, hframe, sigLenOf_toNat c, completeSign_eq c _ _ s⟩
    rw [hexec, afterFnSub, hs]

/-! ### DE_HASH -/

/-- The digest that starts the nonce loop, by command (42_genk.md R107, 43_sign.md R111). -/
theorem readNonceDigest_genk {s : State} (c : CurveId) (h : s.ctrl.cmd = 2) :
    readNonceDigest c s = readBuffer s .dig s.digestLen.toNat := if_pos h

theorem readNonceDigest_sign {s : State} (c : CurveId) (h : s.ctrl.cmd = 3) : readNonceDigest c s = readBuffer s .dig c.len :=
  if_neg (by rw [h]; decide)

/-- The seed of the nonce loop with its digest read (42_genk.md R103). -/
theorem afterHash_nonce {s : State} {c : CurveId} {h dig : Bytes} (hc : curveOfCode s.ctrl.curve = some c) (hs : s.site = .nonceHash)
    (hd : readNonceDigest c s = some dig) :
    afterHash h s = .next (moveTo .nonceStretch (setPhase .loop (setNonce h dig s))) := by
  rw [afterHash, withCurve_some hc, hs]
  simp only
  rw [hd, withOperand_some]

/-- Settles O36: the three places that await DE_HASH, the nonce loop's by command. -/
theorem deHashAnswers : Obligations.DeHashAnswers := by
  intro s c m dig hp hc h
  have hexec : exec (.deHash m) s = afterHash h s := receive_outstanding hp _
  refine ⟨hash_length m, fun hs hcmd hd => ?_, fun hs hcmd hd => ?_, fun hs => ?_, fun hs => ?_⟩
  · rw [hexec, afterHash_nonce hc hs ((readNonceDigest_genk c hcmd).trans hd)]
    rfl
  · rw [hexec, afterHash_nonce hc hs ((readNonceDigest_sign c hcmd).trans hd)]
    rfl
  · rw [hexec, afterHash, withCurve_some hc, hs]
    rfl
  · rw [hexec, afterHash, withCurve_some hc, hs]
    rfl

/-! ### DE_STRETCH -/

theorem nonceAccepted_iff (c : CurveId) (cand : Bytes) :
    nonceAccepted c cand = true ↔ 1 ≤ beNat cand ∧ beNat cand < Config.order c := by
  simp [nonceAccepted]

/-- A cap is reached where there is one and ITER_COUNT is not below it (42_genk.md R105). -/
theorem capReached_iff (cap i : BitVec 32) : capReached cap i = true ↔ cap ≠ 0 ∧ cap ≤ i := by
  simp [capReached]

/-- An accepted candidate ends the loop before the cap is looked at (42_genk.md R104, R105). -/
theorem nonceTest_accepted {c : CurveId} {cand : Bytes} (h : 1 ≤ beNat cand ∧ beNat cand < Config.order c) (s : State) :
    nonceTest c cand s = nonceReturn cand s := if_pos ((nonceAccepted_iff c cand).2 h)

theorem nonceTest_rejected {c : CurveId} {cand : Bytes} (h : ¬ (1 ≤ beNat cand ∧ beNat cand < Config.order c)) (s : State) :
    nonceTest c cand s = if capReached s.nonceCap s.iterCount then raiseErr .nonceExhausted s else moveTo .nonceStretch s :=
  if_neg (mt (nonceAccepted_iff c cand).1 h)

/-- Settles O37: the four outcomes of an iteration; in GENK the completion stores the candidate in K. -/
theorem deStretchIterates : Obligations.DeStretchIterates := by
  intro s c key b hp hs hc cand i t accepted
  have hexec : exec (.deStretch key b) s = .next (nonceTest c cand t) := by
    refine (receive_outstanding hp _).trans ?_
    rw [afterStretch, withCurve_some hc, hs]
    rfl
  rw [hexec]
  refine ⟨stretch_length key b, fun ha hcmd => ?_, fun ha hcmd => ?_, fun ha h0 hcap => ?_, fun ha hcap => ?_⟩
  · obtain ⟨hread, hframe⟩ := stored_reads (t := completeGenk cand t) (s := t) (b := .k) (bs := cand) rfl rfl
    rw [stretch_length] at hread hframe
    refine ⟨completeGenk cand t, ?_, hread, hframe, completeGenk_eq cand t⟩
    rw [nonceTest_accepted ha, nonceReturn, if_pos hcmd]
  · rw [nonceTest_accepted ha, nonceReturn, if_neg hcmd]
    rfl
  · rw [nonceTest_rejected ha, if_pos ((capReached_iff _ _).2 ⟨h0, hcap⟩)]
  · have hnot : ¬ capReached t.nonceCap t.iterCount = true := fun h => by
      obtain ⟨h0, hle⟩ := (capReached_iff _ _).1 h
      exact hcap.elim h0 (BitVec.not_lt.2 hle)
    rw [nonceTest_rejected ha, if_neg hnot, ← hs]
    rfl

/-! ### ENT_DRAW -/

/-- Settles O38: the draw is awaited at one place. -/
theorem entDrawBecomesKey : Obligations.EntDrawBecomesKey := by
  intro s m hp hs
  have hexec : exec (.entDraw m) s = afterDraw (drawnBytes m s) s := receive_outstanding hp _
  refine ⟨drawnBytes m s, List.length_ofFn, rfl, ?_⟩
  rw [hexec, afterDraw, hs]
  rfl

end Sys2Proof.Machine
end

section
/-! PROOFS (45_control.md R128 to R130, R135). What later statements about a command share: the START of a legal command, and the run of one
call of a rule, an issue step and a response, along which a state changes in the registers of `placed` alone. -/

namespace Sys2Proof.Machine

open Sys2Proof

/-! ### The START of a legal command -/

/-- PUBKEY reads no length register (41_pubkey.md R98). -/
theorem lengthsOk_pubkey {c : CurveId} {s : State} (h : s.ctrl.cmd = 1) : lengthsOk c s = true := by
  rw [lengthsOk, h]
  rfl

/-- With CMD and CURVE legal, the lengths decide a START (45_control.md R129). -/
theorem startAttempt_legal {s : State} {c : CurveId} (hcmd : reservedCmd s.ctrl.cmd = false)
    (hc : curveOfCode s.ctrl.curve = some c) :
    startAttempt s = if lengthsOk c s then acceptStart s else rejectStart .badLength s := by
  have hcheck : startCheck s = if lengthsOk c s then none else some .badLength := by
    rw [startCheck, hcmd, if_neg Bool.false_ne_true, hc]
  rw [startAttempt, hcheck]
  cases lengthsOk c s <;> rfl

/-- A START of a legal command while idle stores the fields and is decided by the lengths (45_control.md R128 to R130). -/
theorem startWith_legal {s : State} {cmd : BitVec 3} {f : CtrlFields} {c : CurveId} (hb : s.busy = false)
    (hcmd : reservedCmd cmd = false) (hc : curveOfCode f.curve = some c) :
    startWith cmd f s = .next (if lengthsOk c (storeFields cmd f s) then acceptStart (storeFields cmd f s)
      else rejectStart .badLength (storeFields cmd f s)) := by
  rw [startWith, hb, if_neg Bool.false_ne_true, startAttempt_legal (s := storeFields cmd f s) hcmd hc]

/-! ### A running command at a place of its rule -/

/-- The command that runs in `s`, at the place `x` of its rule, with the scratch registers `scr`, the outstanding request `p` and the
epoch `e`. -/
def placed (s : State) (x : Site) (scr : Scratch) (p : Option PortReq) (e : Nat) : State :=
  { s with site := x, scratch := scr, port := p, epoch := e }

theorem placed_self {s : State} {x : Site} {p : Option PortReq} (hs : s.site = x) (hp : s.port = p) :
    placed s x s.scratch p s.epoch = s := by
  subst hs hp
  rfl

/-- Output writes do not see the controller's place. -/
theorem writeBytes_placed (bs : Bytes) (a : Nat) (s : State) (x : Site) (scr : Scratch) (p : Option PortReq) (e : Nat) :
    writeBytes a bs (placed s x scr p e) = placed (writeBytes a bs s) x scr p e := by
  induction bs generalizing a s with
  | nil => rfl
  | cons b t ih => exact ih (a + 1) (writeByte a b s)

/-- A call on the CurveGroup or DigestEngine port takes two controller steps: it is issued, and it is answered (45_control.md R135). -/
theorem run_call {s t : State} {c : CurveId} {x y : Site} {scr scr' : Scratch} {e : Nat} {r : PortReq} {i : Instr}
    (he : s.events = []) (hb : s.busy = true) (hc : curveOfCode s.ctrl.curve = some c)
    (hissue : issueAt c (placed s x scr none (e + 1)) = .next (placed s y scr' (some r) (e + 1)))
    (hi : encode i = .portReq r) (hr : r.port ≠ .entropy)
    (hanswer : exec i (placed s y scr' (some r) (e + 2)) = .next t) (k : Nat) :
    Sys2Proof.core.run (k + 2) (placed s x scr none e) = Sys2Proof.core.run k t := by
  have hsent : step (placed s x scr none e) = .next (placed s y scr' (some r) (e + 1)) :=
    (step_issue (s := placed s x scr none e) he hb rfl).trans ((advance_eq (s := placed s x scr none (e + 1)) hc).trans hissue)
  have hreceived : step (placed s y scr' (some r) (e + 1)) = .next t :=
    (step_answer (s := placed s y scr' (some r) (e + 1)) he hb rfl hr (decodePort_of_encode hi)).trans hanswer
  rw [run_succ hsent, run_succ hreceived]

/-- After an error the block is idle, and the steps that are left change nothing. -/
theorem run_raised {s : State} (he : s.events = []) (code : ErrCode) (e k : Nat) :
    Sys2Proof.core.run k { raiseErr code s with epoch := e } = .next { raiseErr code s with epoch := e } :=
  run_idle (s := { raiseErr code s with epoch := e }) he rfl k

end Sys2Proof.Machine
end

section
/-! PROOFS (41_pubkey.md R97 to R102). PUBKEY from its START to its result, over its four calls. -/

namespace Sys2Proof.Machine

open Sys2Proof

/-- Settles O7: the curve is legal, and no length is checked. -/
theorem pubkeyStartAccepted : Obligations.PubkeyStartAccepted := by
  intro s f c hb hc
  have hstart : exec (.pubkey f) s = _ := startWith_legal hb rfl hc
  rw [hstart, if_pos (lengthsOk_pubkey rfl)]
  rfl

/-! ### The calls of PUBKEY -/

/-- The completion of PUBKEY discards the controller's place and the scratch registers. -/
theorem completePubkey_placed (c : CurveId) (u v : Nat) (s : State) (x : Site) (scr : Scratch) (p : Option PortReq) (e : Nat) :
    completePubkey c u v (placed s x scr p e) = { completePubkey c u v s with epoch := e } := by
  rw [completePubkey, writeBuffer, writeBytes_placed]
  rfl

section
variable {s : State} {c : CurveId} (he : s.events = []) (hb : s.busy = true) (hc : curveOfCode s.ctrl.curve = some c)
include he hb hc

/-- R97: d is read from PRV, and CG_BASE gives the base point. -/
theorem run_pubkey_base {prv : Bytes} {scr : Scratch} {e : Nat} (hcmd : s.ctrl.cmd = 1)
    (hprv : readBuffer s .prv c.len = some prv) (k : Nat) :
    Sys2Proof.core.run (k + 2) (placed s .entry scr none e) = Sys2Proof.core.run k
      (placed s .pkMul { scr with d := leNat prv, ptG := (Config.curve c).group.base } none (e + 2)) := by
  refine run_call he hb hc (i := .cgBase c) (y := .pkBase) (scr' := { scr with d := leNat prv }) ?_ rfl nofun
    (receive_outstanding rfl _) k
  have hread : readPrv c (placed s .entry scr none (e + 1)) = some prv :=
    (readBuffer_congr (s := s) (t := placed s .entry scr none (e + 1)) rfl rfl .prv c.len).trans hprv
  have henter : issueAt c (placed s .entry scr none (e + 1)) = enterPubkey c (placed s .entry scr none (e + 1)) := by
    rw [issueAt, enterCommand]
    simp only [placed, hcmd]
    rfl
  rw [henter, enterPubkey, hread]
  rfl

/-- R99, R100: CG_MUL gives d·G with d not reduced, or rejects d. -/
theorem run_pubkey_mul {scr : Scratch} {e : Nat} {t : State}
    (ht : (if (Config.curve c).group.accepts scr.d then
        placed s .pkIsId { scr with ptR := (Config.curve c).group.mul scr.ptG scr.d } none (e + 2)
      else { raiseErr .invalidScalar s with epoch := e + 2 }) = t) (k : Nat) :
    Sys2Proof.core.run (k + 2) (placed s .pkMul scr none e) = Sys2Proof.core.run k t := by
  refine run_call he hb hc (i := .cgMul c scr.ptG scr.d) (y := .pkMul) (scr' := scr) rfl rfl nofun ?_ k
  exact (receive_outstanding rfl _).trans (congrArg Host.Outcome.next ((orRaise_ite _ _ _ _).trans ht))

/-- R101: the infinite point is an error. -/
theorem run_pubkey_isId {scr : Scratch} {e : Nat} {t : State}
    (ht : (if scr.ptR = .infinity then { raiseErr .infinity s with epoch := e + 2 }
      else placed s .pkToAffine scr none (e + 2)) = t) (k : Nat) :
    Sys2Proof.core.run (k + 2) (placed s .pkIsId scr none e) = Sys2Proof.core.run k t := by
  refine run_call he hb hc (i := .cgIsId c scr.ptR) (y := .pkIsId) (scr' := scr) rfl rfl nofun ?_ k
  exact (receive_outstanding rfl _).trans (congrArg Host.Outcome.next ((ite_beq_infinity scr.ptR _ _).trans ht))

/-- R102: the coordinates of the point complete the command. -/
theorem run_pubkey_toAffine {scr : Scratch} {e : Nat} (hR : scr.ptR ≠ .infinity) (k : Nat) :
    Sys2Proof.core.run (k + 2) (placed s .pkToAffine scr none e) = Sys2Proof.core.run k
      { completePubkey c ((Config.curve c).group.toAffine scr.ptR).1 ((Config.curve c).group.toAffine scr.ptR).2 s with
        epoch := e + 2 } := by
  refine run_call he hb hc (i := .cgToAffine c scr.ptR) (y := .pkToAffine) (scr' := scr) rfl rfl nofun ?_ k
  exact (execCgToAffine_received rfl hR).trans (congrArg Host.Outcome.next (completePubkey_placed c _ _ s _ _ _ _))

end

/-- Settles O39: the calls in their order, each run from where the call before it ended. -/
theorem pubkeyRunsToItsResult : Obligations.PubkeyRunsToItsResult := by
  intro s c prv hphase hs hp he hcmd hc hprv
  have hb : s.busy = true := (busy_iff s).2 (by rw [hphase]; decide)
  have hbase := run_pubkey_base he hb hc (scr := s.scratch) (e := s.epoch) hcmd hprv 6
  rw [placed_self hs hp] at hbase
  rw [pubkeyResult]
  by_cases hacc : (Config.curve c).group.accepts (leNat prv) = true
  case neg =>
    rw [if_neg hacc]
    exact ⟨_, hbase.trans ((run_pubkey_mul he hb hc (if_neg hacc) 4).trans (run_raised he _ _ 4))⟩
  have hmul := hbase.trans (run_pubkey_mul he hb hc (if_pos hacc) 4)
  rw [if_pos hacc]
  by_cases hR : (Config.curve c).group.mul (Config.curve c).group.base (leNat prv) = .infinity
  case pos =>
    rw [if_pos hR]
    exact ⟨_, hmul.trans ((run_pubkey_isId he hb hc (if_pos hR) 2).trans (run_raised he _ _ 2))⟩
  have hfinite := hmul.trans (run_pubkey_isId he hb hc (if_neg hR) 2)
  rw [if_neg hR]
  exact ⟨_, hfinite.trans (run_pubkey_toAffine he hb hc hR 0)⟩

end Sys2Proof.Machine
end

section
/-! PROOFS (42_genk.md R103 to R111). The nonce loop of GENK and of deterministic SIGN: the call that seeds it, its rejected iterations by
induction on their number, and the accepted candidate that ends it. -/

namespace Sys2Proof.Machine

open Sys2Proof

/-! ### The START of GENK and the key it leaves (42_genk.md R108, R110) -/

/-- Settles O8: the curve is legal, so the length checks of GENK decide. -/
theorem genkStartChecksLengths : Obligations.GenkStartChecksLengths := by
  intro s f c hb hc
  have hstart : exec (.genk f) s = _ := startWith_legal hb rfl hc
  rw [hstart]
  exact congrArg Host.Outcome.next (if_congr (lengthsOk_genk (s := storeFields 2 f s) rfl) rfl rfl)

/-- Settles O46: of the outcomes of an iteration only an accepted candidate completes without an error, and it is what K holds. -/
theorem genkKeyInRange : Obligations.GenkKeyInRange := by
  intro s t c key b hb hp hs hcmd hc hlen hexec ht herr
  obtain ⟨-, haccepted, -, hcapped, hloop⟩ := deStretchIterates s c key b hp hs hc
  by_cases ha : 1 ≤ beNat (Config.stretch key b) ∧ beNat (Config.stretch key b) < Config.order c
  case pos =>
    obtain ⟨u, hu, hread, -, -⟩ := haccepted ha hcmd
    obtain rfl : u = t := Host.Outcome.next.inj (hu.symm.trans hexec)
    exact ⟨_, hlen ▸ hread, ha.1, Nat.le_sub_one_of_lt ha.2⟩
  by_cases hcap : s.nonceCap ≠ 0 ∧ s.nonceCap ≤ iterNext s.iterCount
  case pos =>
    obtain rfl := Host.Outcome.next.inj ((hcapped ha hcap.1 hcap.2).symm.trans hexec)
    cases herr
  case neg =>
    have hbelow : s.nonceCap = 0 ∨ iterNext s.iterCount < s.nonceCap := by
      rwa [not_and_or, not_not, BitVec.not_le] at hcap
    obtain rfl := Host.Outcome.next.inj ((hloop ha hbelow).symm.trans hexec)
    exact absurd (hb.symm.trans ht) nofun

/-! ### ITER_COUNT (10_state.md R29) -/

/-- Below saturation ITER_COUNT is the number of iterations. -/
theorem iterCountAfter_of_le {j : Nat} (h : j ≤ 0xFFFFFFFF) : iterCountAfter j = BitVec.ofNat 32 j := by
  rw [iterCountAfter, Nat.min_eq_left h]

theorem iterNext_iterCountAfter (j : Nat) : iterNext (iterCountAfter j) = iterCountAfter (j + 1) := by
  rcases Nat.lt_or_ge j 0xFFFFFFFF with h | h
  · have hne : BitVec.ofNat 32 j ≠ 0xFFFFFFFF := by bv_omega
    rw [iterCountAfter_of_le h.le, iterCountAfter_of_le h, iterNext, if_neg hne]
    bv_omega
  · rw [iterCountAfter, iterCountAfter, Nat.min_eq_right h, Nat.min_eq_right (by omega)]
    rfl

/-- Iterations below the cap, or without one, do not reach it (42_genk.md R105, R106). -/
theorem capReached_iterCountAfter {cap : BitVec 32} {j : Nat} (h : cap = 0 ∨ j < cap.toNat) :
    capReached cap (iterCountAfter j) = false := by
  rw [← Bool.not_eq_true, capReached_iff]
  rintro ⟨hne, hle⟩
  have hlt := h.resolve_left hne
  have hcap := cap.isLt
  rw [iterCountAfter_of_le (by omega)] at hle
  bv_omega

/-! ### The seed (42_genk.md R103, R107; 43_sign.md R111) -/

/-- A GENK or a deterministic SIGN with the operands that seed its nonce loop. -/
structure NonceSeed (c : CurveId) (s : State) (oid prv t dig : Bytes) : Prop where
  command : commandAt s.ctrl .nonceHash
  oid : readOid s = some oid
  prv : readPrv c s = some prv
  context : readContext s = some t
  digest : readNonceDigest c s = some dig

/-- What each command reads: GENK its context and its digest of DIGEST_LEN bytes, SIGN no context and L bytes. -/
theorem NonceSeed.of_command {c : CurveId} {s : State} {oid prv t dig : Bytes} (ho : readOid s = some oid)
    (hprv : readBuffer s .prv c.len = some prv)
    (h : s.ctrl.cmd = 2 ∧ readBuffer s .t s.tLen.toNat = some t ∧ readBuffer s .dig s.digestLen.toNat = some dig ∨
      s.ctrl.cmd = 3 ∧ s.ctrl.ksup = false ∧ s.ctrl.mode = false ∧ t = [] ∧ readBuffer s .dig c.len = some dig) :
    NonceSeed c s oid prv t dig := by
  rcases h with ⟨hcmd, ht, hdig⟩ | ⟨hcmd, hksup, hmode, rfl, hdig⟩
  · exact ⟨.inl hcmd, ho, hprv, (if_pos hcmd).trans ht, (readNonceDigest_genk c hcmd).trans hdig⟩
  · exact ⟨.inr ⟨hcmd, hksup, hmode⟩, ho, hprv, if_neg (by rw [hcmd]; decide), (readNonceDigest_sign c hcmd).trans hdig⟩

/-- The operands do not see the controller's place. -/
theorem NonceSeed.placed {c : CurveId} {s : State} {oid prv t dig : Bytes} (h : NonceSeed c s oid prv t dig) (x : Site)
    (scr : Scratch) (p : Option PortReq) (e : Nat) : NonceSeed c (placed s x scr p e) oid prv t dig := by
  have hread : ∀ b n, readBuffer (Machine.placed s x scr p e) b n = readBuffer s b n := readBuffer_congr rfl rfl
  obtain ⟨hcmd, ho, hprv, ht, hdig⟩ := h
  refine ⟨hcmd, Eq.trans ?_ ho, (hread _ _).trans hprv, Eq.trans ?_ ht, Eq.trans ?_ hdig⟩
  · rw [readOid, hread]; rfl
  · rw [readContext, hread]; rfl
  · rw [readNonceDigest, readDigest, hread, hread]; rfl

/-- Both commands enter the nonce loop by hashing its seed input. -/
theorem NonceSeed.enterCommand {c : CurveId} {s : State} {oid prv t dig : Bytes} (h : NonceSeed c s oid prv t dig) :
    enterCommand c s = .next (sendRequest .nonceHash (digestReq 0 [.bytes (hinTheta oid prv t)]) s) := by
  have henter : Machine.enterCommand c s = issueNonce c .nonceHash s := by
    rw [Machine.enterCommand]
    rcases h.command with hcmd | ⟨hcmd, hksup, hmode⟩
    · rw [hcmd]; rfl
    · rw [hcmd]
      show enterSign c s = _
      rw [enterSign, hksup, hmode]
      rfl
  rw [henter, issueNonce, h.oid, h.prv, h.context]
  rfl

/-! ### The iterations (42_genk.md R104 to R106) -/

/-- The command that runs in `s`, inside its nonce loop after `j` iterations. -/
def inLoop (s : State) (theta dig : Bytes) (j : Nat) : State :=
  { s with phase := .loop, theta := theta, cand := nonceCandidate theta dig j, iterCount := iterCountAfter j }

/-- One iteration makes the next candidate, counts it and tests it (42_genk.md R104). -/
theorem execDeStretch_inLoop {s : State} {c : CurveId} (hc : curveOfCode s.ctrl.curve = some c) (theta dig : Bytes) (j : Nat)
    (scr : Scratch) (e : Nat) :
    exec (.deStretch theta (nonceCandidate theta dig j)) (placed (inLoop s theta dig j) .nonceStretch scr
        (some (digestReq 1 [.bytes theta, .bytes (nonceCandidate theta dig j)])) e) =
      .next (nonceTest c (nonceCandidate theta dig (j + 1)) (placed (inLoop s theta dig (j + 1)) .nonceStretch scr
        (some (digestReq 1 [.bytes theta, .bytes (nonceCandidate theta dig j)])) e)) := by
  refine (receive_outstanding rfl _).trans ((withCurve_some (by exact hc) _).trans ?_)
  rw [inLoop, inLoop, ← iterNext_iterCountAfter]
  rfl

section
variable {s : State} {c : CurveId} (he : s.events = []) (hc : curveOfCode s.ctrl.curve = some c)
include he hc

/-- R103: THETA is the hash of the seed input, and CAND the digest. -/
theorem run_nonce_seed {oid prv t dig : Bytes} (hb : s.busy = true) (hi : s.iterCount = 0) (hseed : NonceSeed c s oid prv t dig)
    (scr : Scratch) (e k : Nat) :
    Sys2Proof.core.run (k + 2) (placed s .entry scr none e) = Sys2Proof.core.run k
      (placed (inLoop s (Config.hash (oid ++ prv ++ t)) dig 0) .nonceStretch scr none (e + 2)) := by
  refine run_call he hb hc (i := .deHash (oid ++ prv ++ t)) (y := .nonceHash) (scr' := scr) ?_ rfl nofun ?_ k
  · exact (hseed.placed .entry scr none (e + 1)).enterCommand
  refine (receive_outstanding rfl _).trans ((afterHash_nonce (by exact hc) rfl (hseed.placed _ _ _ _).digest).trans ?_)
  have h0 : iterCountAfter 0 = s.iterCount := hi.symm
  rw [inLoop, h0]
  rfl

/-- R104: an iteration takes two controller steps, up to what its tests decide. -/
theorem run_nonce_iteration {theta dig : Bytes} {j : Nat} {t : State} {scr : Scratch} {e : Nat}
    (ht : nonceTest c (nonceCandidate theta dig (j + 1)) (placed (inLoop s theta dig (j + 1)) .nonceStretch scr
        (some (digestReq 1 [.bytes theta, .bytes (nonceCandidate theta dig j)])) (e + 2)) = t) (k : Nat) :
    Sys2Proof.core.run (k + 2) (placed (inLoop s theta dig j) .nonceStretch scr none e) = Sys2Proof.core.run k t :=
  run_call (s := inLoop s theta dig j) he rfl hc (i := .deStretch theta (nonceCandidate theta dig j)) rfl rfl nofun
    ((execDeStretch_inLoop hc theta dig j scr _).trans (congrArg Host.Outcome.next ht)) k

/-- R104, R105: a rejected candidate below the cap leads to the next iteration. -/
theorem run_nonce_rejected {theta dig : Bytes} {j : Nat} {scr : Scratch} {e : Nat}
    (hrej : nonceAccepted c (nonceCandidate theta dig (j + 1)) = false) (hcap : s.nonceCap = 0 ∨ j + 1 < s.nonceCap.toNat) (k : Nat) :
    Sys2Proof.core.run (k + 2) (placed (inLoop s theta dig j) .nonceStretch scr none e) = Sys2Proof.core.run k
      (placed (inLoop s theta dig (j + 1)) .nonceStretch scr none (e + 2)) := by
  refine run_nonce_iteration he hc ?_ k
  have hbelow : capReached (inLoop s theta dig (j + 1)).nonceCap (iterCountAfter (j + 1)) = false := capReached_iterCountAfter hcap
  rw [nonceTest, hrej, if_neg Bool.false_ne_true]
  exact if_neg (Bool.not_eq_true _ ▸ hbelow)

/-- R103 to R106: the seed and `j` rejected candidates below the cap take `2 + 2·j` controller steps. -/
theorem run_nonce_loop {oid prv t dig : Bytes} (hb : s.busy = true) (hi : s.iterCount = 0) (hseed : NonceSeed c s oid prv t dig)
    (scr : Scratch) (e : Nat) {j : Nat}
    (hrej : ∀ i, 1 ≤ i → i ≤ j → nonceAccepted c (nonceCandidate (Config.hash (oid ++ prv ++ t)) dig i) = false)
    (hcap : s.nonceCap = 0 ∨ j < s.nonceCap.toNat) (k : Nat) :
    Sys2Proof.core.run (k + (2 + 2 * j)) (placed s .entry scr none e) = Sys2Proof.core.run k
      (placed (inLoop s (Config.hash (oid ++ prv ++ t)) dig j) .nonceStretch scr none (e + 2 + 2 * j)) := by
  induction j generalizing k with
  | zero => exact run_nonce_seed he hc hb hi hseed scr e k
  | succ j ih =>
    calc Sys2Proof.core.run (k + (2 + 2 * (j + 1))) (placed s .entry scr none e)
        = Sys2Proof.core.run (k + 2 + (2 + 2 * j)) (placed s .entry scr none e) := by congr 1; omega
      _ = _ := ih (fun i h1 h2 => hrej i h1 (by omega)) (hcap.imp_right (by omega)) (k + 2)
      _ = _ := run_nonce_rejected he hc (hrej (j + 1) (by omega) le_rfl) hcap k

end

/-! ### The end of the loop -/

/-- GENK completes with the candidate in K, and the loop's registers and the controller's place are discarded (42_genk.md R107, R109). -/
theorem nonceReturn_inLoop_genk {s : State} (hcmd : s.ctrl.cmd = 2) (kb theta dig : Bytes) (j : Nat) (x : Site) (scr : Scratch)
    (p : Option PortReq) (e : Nat) : nonceReturn kb (placed (inLoop s theta dig j) x scr p e) =
      { finishCommand false (writeBuffer .k kb (setIterCount (iterCountAfter j) s)) with epoch := e } := by
  have hstored := writeBuffer_congr .k kb (s := placed (inLoop s theta dig j) x scr p e) (t := setIterCount (iterCountAfter j) s)
    rfl rfl
  refine Eq.trans (if_pos hcmd) ?_
  apply State.ext
  case mem => exact hstored.1
  case marks => exact hstored.2
  all_goals simp [completeGenk, placed, inLoop]

/-- SIGN goes on with the candidate as its one-time key, in PHASE RUN (43_sign.md R111, R113). -/
theorem nonceReturn_inLoop_sign {s : State} (hcmd : s.ctrl.cmd = 3) (kb theta dig : Bytes) (j : Nat) (x : Site) (scr : Scratch)
    (p : Option PortReq) (e : Nat) : nonceReturn kb (placed (inLoop s theta dig j) x scr p e) =
      { placed (inLoop s theta dig j) .sgBase { scr with kb := kb, k := leNat kb } none e with phase := .run } :=
  if_neg (show ¬ s.ctrl.cmd = 2 by rw [hcmd]; decide)

/-- Settles O45: no candidate is accepted and there is no cap, so all `j` iterations are run. -/
theorem uncappedLoopStaysBusy : Obligations.UncappedLoopStaysBusy := by
  intro s c oid prv t dig j hphase hs hp he hc hi hcap ho hprv hcmd theta hrej
  have hb : s.busy = true := (busy_iff s).2 (by rw [hphase]; decide)
  have hloop := run_nonce_loop he hc hb hi (.of_command ho hprv hcmd) s.scratch s.epoch hrej (.inl hcap) 0
  rw [placed_self hs hp, Nat.zero_add] at hloop
  refine ⟨s.epoch + 2 + 2 * j, hloop.trans (congrArg Host.Outcome.next ?_)⟩
  rw [← hp]
  rfl

/-- Settles O44: the candidates before the `j`-th are rejected below the cap, and the iteration that accepts it ends the loop. -/
theorem genkFindsFirstAcceptedCandidate : Obligations.GenkFindsFirstAcceptedCandidate := by
  intro s c oid prv t dig j hphase hs hp he hc hi ho hprv hcmd theta cand hj hsat hcap hrej hacc
  have hb : s.busy = true := (busy_iff s).2 (by rw [hphase]; decide)
  obtain ⟨m, rfl⟩ : ∃ m, j = m + 1 := ⟨j - 1, by omega⟩
  have hloop := run_nonce_loop he hc hb hi (.of_command ho hprv hcmd) s.scratch s.epoch (j := m)
    (fun i h1 h2 => hrej i h1 (by omega)) (hcap.imp_right (by omega)) 2
  rw [placed_self hs hp, show 2 + (2 + 2 * m) = 2 + 2 * (m + 1) by omega] at hloop
  have hrun := hloop.trans (run_nonce_iteration he hc (nonceTest_accepted ((nonceAccepted_iff _ _).1 hacc) _) 0)
  rw [← iterCountAfter_of_le hsat.le]
  refine ⟨fun hgenk => ?_, fun hsign => ?_⟩
  · rw [nonceReturn_inLoop_genk hgenk] at hrun
    exact ⟨_, hrun⟩
  · rw [nonceReturn_inLoop_sign hsign, ← hphase, ← hp] at hrun
    exact ⟨_, hrun⟩

end Sys2Proof.Machine
end

section
/-! PROOFS (43_sign.md R111 to R113, R117). SIGN up to its first call: its START checks and the choice of its one-time key. -/

namespace Sys2Proof.Machine

open Sys2Proof

/-- Settles O9: the curve is legal, so the length checks of SIGN decide. -/
theorem signStartChecksLengths : Obligations.SignStartChecksLengths := by
  intro s f c hb hc
  have hstart : exec (.sign f) s = _ := startWith_legal hb rfl hc
  rw [hstart]
  exact congrArg Host.Outcome.next (if_congr (lengthsOk_sign (s := storeFields 3 f s) rfl) rfl rfl)

section
variable {s : State} {c : CurveId}

/-! ### The three choices of the one-time key (43_sign.md R111) -/

theorem enterCommand_sign (hcmd : s.ctrl.cmd = 3) : enterCommand c s = enterSign c s := by
  rw [enterCommand, hcmd]
  rfl

/-- The supplied key is taken first, in either mode. -/
theorem enterSign_supplied {kb : Bytes} (hksup : s.ctrl.ksup = true) (hk : readK c s = some kb) :
    enterSign c s = .next (sendRequest .sgBase (curveGroupReq c 0 []) (chooseKey kb s)) := by
  rw [enterSign, if_pos hksup, hk]
  rfl

/-- Without a supplied key the deterministic mode hashes the seed of the nonce loop, with t empty. -/
theorem enterSign_seed {oid prv : Bytes} (hcmd : s.ctrl.cmd = 3) (hksup : s.ctrl.ksup = false) (hmode : s.ctrl.mode = false)
    (ho : readOid s = some oid) (hprv : readPrv c s = some prv) :
    enterSign c s = .next (sendRequest .nonceHash (digestReq 0 [.bytes (oid ++ prv)]) s) := by
  have ht : readContext s = some [] := if_neg (by rw [hcmd]; decide)
  rw [enterSign_nonceLoop hksup hmode, issueNonce, ho, hprv, ht]
  simp only [withOperand_some, hinTheta, List.append_nil]

/-- Otherwise the key is drawn (43_sign.md R112). -/
theorem enterSign_draw (hksup : s.ctrl.ksup = false) (hmode : s.ctrl.mode = true) :
    enterSign c s = .next (sendRequest .sgDraw (entropyReq 0 [.nat c.len]) (setPhase .waitEnt s)) := by
  rw [enterSign, hksup, hmode]
  rfl

/-! ### The step that chooses -/

/-- A controller step of the schedule, or one with an empty schedule, leaves the rest of the schedule and moves the epoch on. -/
theorem controllerNext_takeEvent {es : List Event} (he : s.events = [] ∧ es = [] ∨ s.events = .controller :: es) :
    ControllerNext s ∧ takeEvent s = { s with events := es, epoch := s.epoch + 1 } := by
  have hn : ControllerNext s := he.imp And.left fun he => by rw [he]; rfl
  have htail : s.events.tail = es := by
    rcases he with ⟨he, hes⟩ | he
    · rw [he, hes]; rfl
    · rw [he]; rfl
  exact ⟨hn, htail ▸ takeEvent_controller hn⟩

@[simp] theorem readOid_takeEvent (s : State) : readOid (takeEvent s) = readOid s := by simp [readOid]

@[simp] theorem readPrv_takeEvent (c : CurveId) (s : State) : readPrv c (takeEvent s) = readPrv c s := readBuffer_takeEvent _ _

@[simp] theorem readK_takeEvent (c : CurveId) (s : State) : readK c (takeEvent s) = readK c s := readBuffer_takeEvent _ _

/-- The first controller step of a started SIGN enters the command. -/
theorem step_enterSign (hn : ControllerNext s) (hb : s.busy = true) (hp : s.port = none) (hs : s.site = .entry)
    (hcmd : s.ctrl.cmd = 3) (hc : curveOfCode s.ctrl.curve = some c) : step s = enterSign c (takeEvent s) :=
  calc step s = advance (takeEvent s) := step_issued hn hb hp
    _ = enterCommand c (takeEvent s) := advance_entry (by simpa using hc) (by simpa using hs)
    _ = enterSign c (takeEvent s) := enterCommand_sign (by simpa using hcmd)

end

/-- Settles O41: the first controller step enters SIGN, and KSUP and MODE choose. -/
theorem signChoosesItsKey : Obligations.SignChoosesItsKey := by
  intro s c kb oid prv es hphase hs hp he hcmd hc
  have hb : s.busy = true := (busy_iff s).2 (by rw [hphase]; decide)
  obtain ⟨hn, htake⟩ := controllerNext_takeEvent he
  rw [step_enterSign hn hb hp hs hcmd hc]
  refine ⟨fun hksup hk => ?_, fun hksup hmode ho hprv => ?_, fun hksup hmode => ?_⟩
  · rw [enterSign_supplied (by simpa using hksup) ((readK_takeEvent c s).trans hk), htake]
    rfl
  · rw [enterSign_seed (by simpa using hcmd) (by simpa using hksup) (by simpa using hmode) ((readOid_takeEvent s).trans ho)
      ((readPrv_takeEvent c s).trans hprv), htake]
    rfl
  · rw [enterSign_draw (by simpa using hksup) (by simpa using hmode), htake]
    rfl

end Sys2Proof.Machine
end

section
/-! PROOFS (43_sign.md R113 to R116, R118). SIGN from its chosen key to its result, over its nine calls. -/

namespace Sys2Proof.Machine

open Sys2Proof

/-! ### The result and the end of SIGN -/

/-- What SIGN leaves, by its result: SIG and SIG_LEN are written, or an error is raised (43_sign.md R116, R118). -/
def signEnd (c : CurveId) (s : State) : Except ErrCode Bytes → State
  | .ok sig => finishCommand false (setSigLen (BitVec.ofNat 8 (sigLenOf c)) (writeBuffer .sig sig s))
  | .error code => raiseErr code s

/-- After SIGN the block is idle, and the steps that are left change nothing. -/
theorem run_signEnd {s : State} (he : s.events = []) (c : CurveId) (r : Except ErrCode Bytes) (e k : Nat) :
    Sys2Proof.core.run k { signEnd c s r with epoch := e } = .next { signEnd c s r with epoch := e } := by
  cases r with
  | ok sig => exact run_idle (s := { signEnd c s (.ok sig) with epoch := e }) (by simpa [signEnd] using he) rfl k
  | error code => exact run_raised he code e k

section
variable {c : CurveId} {v : Curve c} {hash : Bytes → Bytes} {oid dig kb : Bytes} {d : Nat}

theorem signResult_rejected (hacc : ¬ v.group.accepts (leNat kb) = true) :
    signResult v hash oid dig kb d = .error .invalidScalar := if_neg hacc

theorem signResult_infinity (hacc : v.group.accepts (leNat kb) = true) (hR : v.group.mul v.group.base (leNat kb) = .infinity) :
    signResult v hash oid dig kb d = .error .infinity := (if_pos hacc).trans (if_pos hR)

/-- The signature, from the x-coordinate of k·G (43_sign.md R114 to R116). -/
theorem signResult_signature (hacc : v.group.accepts (leNat kb) = true)
    (hR : v.group.mul v.group.base (leNat kb) ≠ .infinity) :
    let s0 := s0Bytes c hash oid dig (v.group.toAffine (v.group.mul v.group.base (leNat kb))).1
    signResult v hash oid dig kb d =
      .ok (encSig c s0 (signingEquation c v.record.n (leNat kb) (leNat dig) (leNat s0) d)) := (if_pos hacc).trans (if_neg hR)

end

/-! ### Operands and the completion at a place of the rule -/

/-- Operand reads do not see the controller's place. -/
theorem readBuffer_placed (s : State) (x : Site) (scr : Scratch) (p : Option PortReq) (e : Nat) (b : Buffer) (n : Nat) :
    readBuffer (placed s x scr p e) b n = readBuffer s b n :=
  readBuffer_congr (s := s) (t := placed s x scr p e) rfl rfl b n

theorem readOid_placed (s : State) (x : Site) (scr : Scratch) (p : Option PortReq) (e : Nat) :
    readOid (placed s x scr p e) = readOid s := by
  rw [readOid, readBuffer_placed]
  rfl

theorem readDigest_placed (s : State) (x : Site) (scr : Scratch) (p : Option PortReq) (e : Nat) :
    readDigest (placed s x scr p e) = readDigest s := readBuffer_placed s x scr p e .dig _

/-- The completion of SIGN discards the controller's place and the scratch registers. -/
theorem completeSign_placed (c : CurveId) (s0 : Bytes) (s1 : Nat) (s : State) (x : Site) (scr : Scratch) (p : Option PortReq) (e : Nat) :
    completeSign c s0 s1 (placed s x scr p e) = { completeSign c s0 s1 s with epoch := e } := by
  rw [completeSign, writeBuffer, writeBytes_placed]
  rfl

/-! ### The calls that read operands (43_sign.md R114, R115) -/

section
variable {c : CurveId} {s : State} {oid dig prv : Bytes}

theorem issueSign_hash (ho : readOid s = some oid) (hdig : readDigest s = some dig) :
    issueSign c .sgHash s = .next (sendRequest .sgHash (digestReq 0 [.bytes (hinS c oid s.scratch.x dig)]) s) := by
  rw [issueSign, ho, hdig]
  rfl

theorem issueSign_mulD (hprv : readPrv c s = some prv) :
    issueSign c .sgMulD s = .next (sendRequest .sgMulD (curveGroupReq c 8 [.nat s.scratch.t1, .nat (leNat prv)])
      (setScratch { s.scratch with d := leNat prv } s)) := by
  rw [issueSign, hprv]
  rfl

theorem issueSign_subE (hdig : readDigest s = some dig) :
    issueSign c .sgSubE s = .next (sendRequest .sgSubE (curveGroupReq c 7 [.nat s.scratch.k, .nat (leNat dig)])
      (setScratch { s.scratch with e := leNat dig } s)) := by
  rw [issueSign, hdig]
  rfl

end

/-! ### The calls of SIGN -/

section
variable {s : State} {c : CurveId} (he : s.events = []) (hb : s.busy = true) (hc : curveOfCode s.ctrl.curve = some c)
include he hb

/-- R113: where CG_BASE is outstanding, one controller step gives the base point. -/
theorem run_sign_base_sent {scr : Scratch} {e : Nat} (k : Nat) :
    Sys2Proof.core.run (k + 1) (placed s .sgBase scr (some (curveGroupReq c 0 [])) e) = Sys2Proof.core.run k
      (placed s .sgMul { scr with ptG := (Config.curve c).group.base } none (e + 1)) :=
  run_succ ((step_answer (s := placed s .sgBase scr (some (curveGroupReq c 0 [])) e) he hb rfl nofun
    (decodePort_of_encode (i := .cgBase c) rfl)).trans (receive_outstanding rfl _)) k

include hc

/-- R113: CG_BASE gives the base point. -/
theorem run_sign_base {scr : Scratch} {e : Nat} (k : Nat) :
    Sys2Proof.core.run (k + 2) (placed s .sgBase scr none e) = Sys2Proof.core.run k
      (placed s .sgMul { scr with ptG := (Config.curve c).group.base } none (e + 2)) :=
  run_call he hb hc (i := .cgBase c) (y := .sgBase) (scr' := scr) rfl rfl nofun (receive_outstanding rfl _) k

/-- R113: CG_MUL gives k·G with k not reduced, or rejects k. -/
theorem run_sign_mul {scr : Scratch} {e : Nat} {t : State}
    (ht : (if (Config.curve c).group.accepts scr.k then
        placed s .sgIsId { scr with ptR := (Config.curve c).group.mul scr.ptG scr.k } none (e + 2)
      else { raiseErr .invalidScalar s with epoch := e + 2 }) = t) (k : Nat) :
    Sys2Proof.core.run (k + 2) (placed s .sgMul scr none e) = Sys2Proof.core.run k t := by
  refine run_call he hb hc (i := .cgMul c scr.ptG scr.k) (y := .sgMul) (scr' := scr) rfl rfl nofun ?_ k
  exact (receive_outstanding rfl _).trans (congrArg Host.Outcome.next ((orRaise_ite _ _ _ _).trans ht))

/-- R113: the infinite point is an error. -/
theorem run_sign_isId {scr : Scratch} {e : Nat} {t : State}
    (ht : (if scr.ptR = .infinity then { raiseErr .infinity s with epoch := e + 2 }
      else placed s .sgToAffine scr none (e + 2)) = t) (k : Nat) :
    Sys2Proof.core.run (k + 2) (placed s .sgIsId scr none e) = Sys2Proof.core.run k t := by
  refine run_call he hb hc (i := .cgIsId c scr.ptR) (y := .sgIsId) (scr' := scr) rfl rfl nofun ?_ k
  exact (receive_outstanding rfl _).trans (congrArg Host.Outcome.next ((ite_beq_infinity scr.ptR _ _).trans ht))

/-- R113: the x-coordinate of the point is kept. -/
theorem run_sign_toAffine {scr : Scratch} {e : Nat} (hR : scr.ptR ≠ .infinity) (k : Nat) :
    Sys2Proof.core.run (k + 2) (placed s .sgToAffine scr none e) = Sys2Proof.core.run k
      (placed s .sgHash { scr with x := ((Config.curve c).group.toAffine scr.ptR).1 } none (e + 2)) :=
  run_call he hb hc (i := .cgToAffine c scr.ptR) (y := .sgToAffine) (scr' := scr) rfl rfl nofun
    (execCgToAffine_received rfl hR) k

/-- R114: S0 is the truncated hash of the identifier, the x-coordinate and the digest. -/
theorem run_sign_hash {oid dig : Bytes} {scr : Scratch} {e : Nat} (ho : readOid s = some oid) (hdig : readDigest s = some dig)
    (k : Nat) :
    Sys2Proof.core.run (k + 2) (placed s .sgHash scr none e) = Sys2Proof.core.run k
      (placed s .sgAddW { scr with
        s0 := s0Bytes c Config.hash oid dig scr.x, s0n := leNat (s0Bytes c Config.hash oid dig scr.x) } none (e + 2)) := by
  refine run_call he hb hc (i := .deHash (hinS c oid scr.x dig)) (y := .sgHash) (scr' := scr) ?_ rfl nofun ?_ k
  · exact issueSign_hash ((readOid_placed ..).trans ho) ((readDigest_placed ..).trans hdig)
  · exact (receive_outstanding rfl _).trans (withCurve_some (by exact hc) _)

/-- R115: the first scalar answer, S0 + W. -/
theorem run_sign_addW {scr : Scratch} {e : Nat} (k : Nat) :
    Sys2Proof.core.run (k + 2) (placed s .sgAddW scr none e) = Sys2Proof.core.run k
      (placed s .sgMulD { scr with t1 := fnAdd c scr.s0n (wOf c) } none (e + 2)) :=
  run_call he hb hc (i := .cgFnAdd c scr.s0n (wOf c)) (y := .sgAddW) (scr' := scr) rfl rfl nofun (receive_outstanding rfl _) k

/-- R115: the second scalar answer, its product with d. -/
theorem run_sign_mulD {prv : Bytes} {scr : Scratch} {e : Nat} (hprv : readBuffer s .prv c.len = some prv) (k : Nat) :
    Sys2Proof.core.run (k + 2) (placed s .sgMulD scr none e) = Sys2Proof.core.run k
      (placed s .sgSubE { scr with d := leNat prv, t2 := fnMul c scr.t1 (leNat prv) } none (e + 2)) := by
  refine run_call he hb hc (i := .cgFnMul c scr.t1 (leNat prv)) (y := .sgMulD) (scr' := { scr with d := leNat prv }) ?_ rfl nofun
    (receive_outstanding rfl _) k
  exact issueSign_mulD ((readBuffer_placed ..).trans hprv)

/-- R115: the third scalar answer, k − e. -/
theorem run_sign_subE {dig : Bytes} {scr : Scratch} {e : Nat} (hdig : readDigest s = some dig) (k : Nat) :
    Sys2Proof.core.run (k + 2) (placed s .sgSubE scr none e) = Sys2Proof.core.run k
      (placed s .sgSubT { scr with e := leNat dig, t3 := fnSub c scr.k (leNat dig) } none (e + 2)) := by
  refine run_call he hb hc (i := .cgFnSub c scr.k (leNat dig)) (y := .sgSubE) (scr' := { scr with e := leNat dig }) ?_ rfl nofun
    (receive_outstanding rfl _) k
  exact issueSign_subE ((readDigest_placed ..).trans hdig)

/-- R115, R116: the last scalar answer is S1, and the command completes. -/
theorem run_sign_subT {scr : Scratch} {e : Nat} (k : Nat) :
    Sys2Proof.core.run (k + 2) (placed s .sgSubT scr none e) = Sys2Proof.core.run k
      { completeSign c scr.s0 (fnSub c scr.t3 scr.t2) s with epoch := e + 2 } := by
  refine run_call he hb hc (i := .cgFnSub c scr.t3 scr.t2) (y := .sgSubT) (scr' := scr) rfl rfl nofun ?_ k
  exact (receive_outstanding rfl _).trans (congrArg Host.Outcome.next (completeSign_placed c _ _ s _ _ _ _))

/-- R115, R116: the four scalar answers, chained, complete the command with S1 by the signing equation. -/
theorem run_sign_scalars {dig prv : Bytes} {scr : Scratch} {e : Nat} (hdig : readDigest s = some dig)
    (hprv : readBuffer s .prv c.len = some prv) (k : Nat) :
    Sys2Proof.core.run (k + 8) (placed s .sgAddW scr none e) = Sys2Proof.core.run k
      { completeSign c scr.s0 (signingEquation c (Config.order c) scr.k (leNat dig) scr.s0n (leNat prv)) s with epoch := e + 8 } := by
  rw [← (scalarChainIsSigningEquation c scr.k (leNat dig) scr.s0n (leNat prv)).1]
  calc Sys2Proof.core.run (k + 8) (placed s .sgAddW scr none e)
      = _ := run_sign_addW he hb hc (k + 6)
    _ = _ := run_sign_mulD he hb hc hprv (k + 4)
    _ = _ := run_sign_subE he hb hc hdig (k + 2)
    _ = _ := run_sign_subT he hb hc k

/-- R113 to R116: from CG_MUL on, with the base point and the one-time key in their registers, SIGN ends as `signResult` says. -/
theorem run_sign_keyed {oid dig prv kb : Bytes} {scr : Scratch} {e : Nat} (hG : scr.ptG = (Config.curve c).group.base)
    (hkey : scr.k = leNat kb) (ho : readOid s = some oid) (hdig : readDigest s = some dig)
    (hprv : readBuffer s .prv c.len = some prv) (k : Nat) :
    ∃ e', Sys2Proof.core.run (k + 16) (placed s .sgMul scr none e) =
      .next { signEnd c s (signResult (Config.curve c) Config.hash oid dig kb (leNat prv)) with epoch := e' } := by
  by_cases hacc : (Config.curve c).group.accepts (leNat kb) = true
  case neg =>
    rw [signResult_rejected hacc]
    exact ⟨_, (run_sign_mul he hb hc (if_neg (hkey ▸ hacc)) (k + 14)).trans (run_signEnd he c (.error _) _ (k + 14))⟩
  have hmul := run_sign_mul he hb hc (e := e) (if_pos (hkey ▸ hacc)) (k + 14)
  rw [hG, hkey] at hmul
  by_cases hR : (Config.curve c).group.mul (Config.curve c).group.base (leNat kb) = .infinity
  case pos =>
    rw [signResult_infinity hacc hR]
    exact ⟨_, hmul.trans ((run_sign_isId he hb hc (if_pos hR) (k + 12)).trans (run_signEnd he c (.error _) _ (k + 12)))⟩
  rw [signResult_signature hacc hR]
  refine ⟨e + 16, ?_⟩
  calc Sys2Proof.core.run (k + 16) (placed s .sgMul scr none e)
      = _ := hmul
    _ = _ := run_sign_isId he hb hc (if_neg hR) (k + 12)
    _ = _ := run_sign_toAffine he hb hc hR (k + 10)
    _ = _ := run_sign_hash he hb hc ho hdig (k + 8)
    _ = _ := run_sign_scalars he hb hc hdig hprv k
    _ = _ := run_signEnd he c (.ok _) (e + 16) k

end

/-- Settles O40: CG_BASE is answered, in two steps or in one, and the rest of the command is the same. -/
theorem signRunsToItsResult : Obligations.SignRunsToItsResult := by
  intro s c oid dig prv hphase hs hp he hcmd hc hkey ho hdig hprv
  have hb : s.busy = true := (busy_iff s).2 (by rw [hphase]; decide)
  have hrest := fun e => run_sign_keyed he hb hc (scr := { s.scratch with ptG := (Config.curve c).group.base }) (e := e) rfl hkey
    ho hdig hprv
  rcases hp with hp | hp
  · have hbase := run_sign_base he hb hc (scr := s.scratch) (e := s.epoch) 16
    rw [placed_self hs hp] at hbase
    rw [hbase]
    exact hrest _ 0
  · have hbase := run_sign_base_sent he hb (c := c) (scr := s.scratch) (e := s.epoch) 17
    rw [placed_self hs hp] at hbase
    rw [hbase]
    exact hrest _ 1

end Sys2Proof.Machine
end

section
/-! PROOFS (43_sign.md R112, 60_exceptions.md R153). In PHASE WAIT_ENT a step that is no draw, ABORT or reset keeps the command's state: one
lemma per kind of event. -/

namespace Sys2Proof.Machine

open Sys2Proof

section
variable {s : State}

/-! ### What a step of the waiting block may change -/

/-- `t` keeps the command that waits in `s`: it differs from `s` in the schedule, the epoch and the response, in IE where the event is
a CTRL word, and in DONE where it is a STATUS word. -/
structure KeepsWaiting (s t : State) : Prop where
  frame : t = { s with
    ctrl := { s.ctrl with ie := t.ctrl.ie }, done := t.done
    events := s.events.tail, response := t.response, epoch := t.epoch }
  ctrl : (∀ v, s.events.head? ≠ some (.write .four ctrlOffset v)) → t.ctrl = s.ctrl
  done : (∀ v, s.events.head? ≠ some (.write .four statusOffset v)) → t.done = s.done

theorem keepsWaiting_takeEvent (s : State) : KeepsWaiting s (takeEvent s) :=
  ⟨by apply State.ext <;> simp, fun _ => takeEvent_ctrl s, fun _ => takeEvent_done s⟩

/-- With nothing scheduled nothing need change. -/
theorem keepsWaiting_self (h : s.events = []) : KeepsWaiting s s :=
  ⟨by rw [h, List.tail_nil, ← h], fun _ => rfl, fun _ => rfl⟩

theorem KeepsWaiting.respond {t : State} (h : KeepsWaiting s t) (r : BusResponse) : KeepsWaiting s (respond r t) :=
  ⟨congrArg (Machine.respond r) h.frame, h.ctrl, h.done⟩

/-- Where the event is a CTRL word, IE may change (45_control.md R131). -/
theorem KeepsWaiting.storeIe {t : State} {v : Word} (h : KeepsWaiting s t)
    (he : s.events.head? = some (.write .four ctrlOffset v)) (ie : Bool) : KeepsWaiting s (storeIe ie t) :=
  ⟨congrArg (Machine.storeIe ie) h.frame, fun hn => absurd he (hn v), h.done⟩

/-- Where the event is a STATUS word, DONE may change (45_control.md R133). -/
theorem KeepsWaiting.clearDone {t : State} {v : Word} (h : KeepsWaiting s t)
    (he : s.events.head? = some (.write .four statusOffset v)) : KeepsWaiting s (clearDone t) :=
  ⟨congrArg Machine.clearDone h.frame, h.ctrl, fun hn => absurd he (hn v)⟩

/-! ### Host accesses -/

/-- A read answers and does nothing else (20_memory.md R46). -/
theorem KeepsWaiting.busRead {t : State} (h : KeepsWaiting s t) (w : Width) (off : BitVec 12) : KeepsWaiting s (busRead w off t) := by
  rw [Machine.busRead]
  split <;> exact h.respond _

/-- A write meets the busy lock, or is ignored (20_memory.md R47, R49). -/
theorem KeepsWaiting.busWrite {t : State} (h : KeepsWaiting s t) (hb : t.busy = true) (w : Width) (off : BitVec 12) (v : Word) :
    KeepsWaiting s (busWrite w off v t) := by
  rw [Machine.busWrite]
  split
  · exact h.respond _
  · rename_i hr
    rw [writeData_busy_self v hb (Bool.not_eq_true _ ▸ hr)]
    exact h.respond _

section
variable {es : List Event} {w : Width} {off : BitVec 12} {v : Word}

theorem step_keepsWaiting_read (h : s.events = .read w off :: es) : ∃ t, step s = .next t ∧ KeepsWaiting s t := by
  have htake : takeEvent s = { s with events := es } := by simp [takeEvent, h]
  exact ⟨_, (step_read h).trans (by rw [← htake]), (keepsWaiting_takeEvent s).busRead w off⟩

/-- A CTRL word without ABORT stores IE alone (45_control.md R131). -/
theorem step_keepsWaiting_ctrlWord (hb : s.busy = true) (h : s.events = .write .four ctrlOffset v :: es) (hv : v.getLsbD 1 = false) :
    ∃ t, step s = .next t ∧ KeepsWaiting s t := by
  refine ⟨storeIe (v.getLsbD 10) (takeEvent s), ?_, (keepsWaiting_takeEvent s).storeIe (by rw [h]; rfl) _⟩
  have hf : fetch s = some (.ctrlWord true v) := hb ▸ fetch_ctrlWrite h
  rw [step_eq_performs hf, performs_ctrlWord_busy v (by simpa using hb), hv, if_neg Bool.false_ne_true]

/-- A STATUS word clears DONE or does nothing (45_control.md R133). -/
theorem step_keepsWaiting_statusWord (h : s.events = .write .four statusOffset v :: es) :
    ∃ t, step s = .next t ∧ KeepsWaiting s t := by
  have htaken := keepsWaiting_takeEvent s
  refine ⟨_, (step_eq_performs (fetch_statusWrite h)).trans (performs_statusWord v _), ?_⟩
  split
  · exact htaken.clearDone (by rw [h]; rfl)
  · exact htaken

theorem step_keepsWaiting_write (hb : s.busy = true) (h : s.events = .write w off v :: es)
    (hv : w = .four → off = ctrlOffset → v.getLsbD 1 = false) : ∃ t, step s = .next t ∧ KeepsWaiting s t := by
  by_cases hctrl : w = .four ∧ off = ctrlOffset
  case pos =>
    obtain ⟨rfl, rfl⟩ := hctrl
    exact step_keepsWaiting_ctrlWord hb h (hv rfl rfl)
  by_cases hstatus : w = .four ∧ off = statusOffset
  case pos =>
    obtain ⟨rfl, rfl⟩ := hstatus
    exact step_keepsWaiting_statusWord h
  have htake : takeEvent s = { s with events := es, epoch := s.epoch + 1, response := .written } := by simp [takeEvent, h]
  have hn : w = .four → off ≠ ctrlOffset ∧ off ≠ statusOffset := fun hw => ⟨fun ho => hctrl ⟨hw, ho⟩, fun ho => hstatus ⟨hw, ho⟩⟩
  exact ⟨_, (step_write h hn).trans (by rw [← htake]), (keepsWaiting_takeEvent s).busWrite (by simpa using hb) w off v⟩

/-! ### Events that do not reach the waiting command -/

/-- A late response is discarded (10_state.md R36). -/
theorem step_lateResponse (h : s.events = .lateResponse :: es) : step s = .next (takeEvent s) := by
  have hf : fetch s = none := by rw [fetch, h]
  rw [step_eq_runEvent hf, runEvent, h]

/-- An entropy request is answered by its draw alone, not by a controller step (43_sign.md R112, 45_control.md R135). -/
theorem fetch_waiting {m : Nat} (hn : ControllerNext s) (hb : s.busy = true) (hp : s.port = some (entropyReq 0 [.nat m])) :
    fetch s = none := by
  rw [fetch_controller hn hb, answerable_some hp]
  rfl

/-- With nothing scheduled the waiting block keeps all its state (60_exceptions.md R153). -/
theorem step_waiting_unscheduled {m : Nat} (h : s.events = []) (hb : s.busy = true) (hp : s.port = some (entropyReq 0 [.nat m])) :
    step s = .next s := by
  rw [step_eq_runEvent (fetch_waiting (.inl h) hb hp), runEvent, h]
  simp [hp]

/-- A controller step is not enabled, and takes its event alone. -/
theorem step_waiting_controller {m : Nat} (h : s.events = .controller :: es) (hb : s.busy = true)
    (hp : s.port = some (entropyReq 0 [.nat m])) : step s = .next (takeEvent s) := by
  rw [step_eq_runEvent (fetch_waiting (.inr (by rw [h]; rfl)) hb hp), runEvent, h]
  simp [controllerStep, hp]

end

end

/-- Settles O47: each event that is left has its lemma. -/
theorem entropyWaitKeepsState : Obligations.EntropyWaitKeepsState := by
  intro s m hphase hp hdraw hreset habort
  have hb : s.busy = true := (busy_iff s).2 (by rw [hphase]; decide)
  refine ⟨?_, fun he => step_waiting_unscheduled he hb hp, fun es he => ?_⟩
  · have hkept : ∃ t, step s = .next t ∧ KeepsWaiting s t := by
      match he : s.events with
      | [] => exact ⟨s, step_waiting_unscheduled he hb hp, keepsWaiting_self he⟩
      | .controller :: es => exact ⟨_, step_waiting_controller he hb hp, keepsWaiting_takeEvent s⟩
      | .lateResponse :: es => exact ⟨_, step_lateResponse he, keepsWaiting_takeEvent s⟩
      | .read w off :: es => exact step_keepsWaiting_read he
      | .write w off v :: es =>
        exact step_keepsWaiting_write hb he fun hw ho => habort v (by rw [he, hw, ho]; rfl)
      | .entropy :: es => exact absurd (by rw [he]; rfl) hdraw
      | .reset :: es => exact absurd (by rw [he]; rfl) hreset
    obtain ⟨t, hstep, hframe, hctrl, hdone⟩ := hkept
    exact ⟨t, hstep, hframe, hctrl, hdone⟩
  · rw [step_waiting_controller he hb hp, (controllerNext_takeEvent (.inr he)).2]

end Sys2Proof.Machine
end

section
/-! PROOFS (44_verify.md R119 to R122, R127). VERIFY up to its first call: its START checks and its guards, in their order. -/

namespace Sys2Proof.Machine

open Sys2Proof

/-- Settles O10: the curve is legal, so the length checks of VERIFY decide. -/
theorem verifyStartChecksLengths : Obligations.VerifyStartChecksLengths := by
  intro s f c hb hc
  have hstart : exec (.verify f) s = _ := startWith_legal hb rfl hc
  rw [hstart]
  exact congrArg Host.Outcome.next (if_congr (lengthsOk_verify (s := storeFields 4 f s) rfl) rfl rfl)

section
variable {s : State} {c : CurveId}

/-- An operand read gives its first byte and what is read after it. -/
theorem readBytes_cons_iff {a n : Nat} {b : Byte} {t : Bytes} :
    readBytes s a (n + 1) = some (b :: t) ↔ readMarked s a = some b ∧ readBytes s (a + 1) n = some t := by
  rw [readBytes]
  cases readMarked s a with
  | none => simp
  | some b' => cases readBytes s (a + 1) n <;> simp

theorem readBytes_one {a : Nat} {b : Byte} (h : readMarked s a = some b) : readBytes s a 1 = some [b] :=
  readBytes_cons_iff.2 ⟨h, rfl⟩

/-! ### The guards (44_verify.md R120 to R122) -/

/-- A wrong SIG_LEN decides before any byte is read. -/
theorem enterVerify_wrong_length (hl : s.sigLen.toNat ≠ sigLenOf c) : enterVerify c s = .next (finishCommand false s) := if_pos hl

/-- S1 out of range decides before the key is looked at. -/
theorem enterVerify_out_of_range {sig : Bytes} (hl : s.sigLen.toNat = sigLenOf c) (hs : readBuffer s .sig (sigLenOf c) = some sig)
    (hge : Config.order c ≤ (decSig c sig).2) : enterVerify c s = .next (finishCommand false s) := by
  rw [enterVerify, if_neg (not_not.2 hl), hs, withOperand_some]
  exact if_pos hge

/-- A wrong PUB_LEN decides before any byte of the key is read. -/
theorem enterVerifyKey_wrong_length (hl : s.pubLen.toNat ≠ pubLenOf c) :
    enterVerifyKey c s = .next (raiseErr .invalidPoint s) := if_pos hl

/-- A wrong tag decides before the coordinates are read. -/
theorem enterVerifyKey_wrong_tag {tag : Byte} (hl : s.pubLen.toNat = pubLenOf c) (ht : readMarked s 0x300 = some tag)
    (hne : tag ≠ pubTag) : enterVerifyKey c s = .next (raiseErr .invalidPoint s) := by
  have hread : readBytes s (bufferBase .pub) 1 = some [tag] := readBytes_one ht
  rw [enterVerifyKey, if_neg (not_not.2 hl), hread, withOperand_some]
  exact if_pos fun h => hne (List.head_eq_of_cons_eq h)

theorem enterCommand_verify (hcmd : s.ctrl.cmd = 4) : enterCommand c s = enterVerify c s := by
  rw [enterCommand, hcmd]
  rfl

/-- The first controller step of a started VERIFY enters the command. -/
theorem step_enterVerify (hn : ControllerNext s) (hb : s.busy = true) (hp : s.port = none) (hs : s.site = .entry)
    (hcmd : s.ctrl.cmd = 4) (hc : curveOfCode s.ctrl.curve = some c) : step s = enterVerify c (takeEvent s) :=
  calc step s = advance (takeEvent s) := step_issued hn hb hp
    _ = enterCommand c (takeEvent s) := advance_entry (by simpa using hc) (by simpa using hs)
    _ = enterVerify c (takeEvent s) := enterCommand_verify (by simpa using hcmd)

end

/-- Settles O43: the first controller step enters VERIFY, and the first guard that fails decides. -/
theorem verifyGuardsInOrder : Obligations.VerifyGuardsInOrder := by
  intro s c es hphase hs hp he hcmd hc
  have hb : s.busy = true := (busy_iff s).2 (by rw [hphase]; decide)
  obtain ⟨hn, htake⟩ := controllerNext_takeEvent he
  rw [← htake, step_enterVerify hn hb hp hs hcmd hc]
  refine ⟨fun hl => enterVerify_wrong_length (by rw [takeEvent_sigLen]; exact hl), fun sig hl hsig => ?_⟩
  have hl' : (takeEvent s).sigLen.toNat = sigLenOf c := by rw [takeEvent_sigLen]; exact hl
  have hsig' : readBuffer (takeEvent s) .sig (sigLenOf c) = some sig := (readBuffer_takeEvent _ _).trans hsig
  refine ⟨enterVerify_out_of_range hl' hsig', fun hlt hpub => ?_, fun hlt hpub tag htag hne => ?_⟩
  · rw [enterVerify_goes_on hl' hsig' hlt]
    exact enterVerifyKey_wrong_length (by rw [setScratch_pubLen, takeEvent_pubLen]; exact hpub)
  · rw [enterVerify_goes_on hl' hsig' hlt]
    exact enterVerifyKey_wrong_tag (by rw [setScratch_pubLen, takeEvent_pubLen]; exact hpub) ((readMarked_takeEvent _).trans htag) hne

end Sys2Proof.Machine
end

section
/-! PROOFS (44_verify.md R122 to R126). VERIFY from its START to its result, over its ten calls. -/

namespace Sys2Proof.Machine

open Sys2Proof

/-! ### The result and the end of VERIFY -/

/-- What VERIFY leaves, by its result: VALID, or an error (44_verify.md R126). -/
def verifyEnd (s : State) : Except ErrCode Bool → State
  | .ok valid => finishCommand valid s
  | .error code => raiseErr code s

/-- The end of VERIFY discards the controller's place and the scratch registers. -/
theorem verifyEnd_placed (s : State) (x : Site) (scr : Scratch) (p : Option PortReq) (e : Nat) (r : Except ErrCode Bool) :
    verifyEnd (placed s x scr p e) r = { verifyEnd s r with epoch := e } := by
  cases r <;> rfl

/-- After VERIFY the block is idle, and the steps that are left change nothing. -/
theorem run_verifyEnd {s : State} (he : s.events = []) (r : Except ErrCode Bool) (e k : Nat) :
    Sys2Proof.core.run k { verifyEnd s r with epoch := e } = .next { verifyEnd s r with epoch := e } := by
  cases r with
  | ok valid => exact run_idle (s := { finishCommand valid s with epoch := e }) he rfl k
  | error code => exact run_raised he code e k

/-- A guard that fails at the first controller step decides the run. -/
theorem run_verify_decided {s : State} (he : s.events = []) {r : Except ErrCode Bool} (hstep : step s = .next (verifyEnd (tick s) r))
    (k : Nat) : Sys2Proof.core.run (k + 1) s = .next { verifyEnd s r with epoch := s.epoch + 1 } := by
  have hend : verifyEnd (tick s) r = { verifyEnd s r with epoch := s.epoch + 1 } :=
    verifyEnd_placed s s.site s.scratch s.port (s.epoch + 1) r
  exact (run_succ (hstep.trans (congrArg _ hend)) k).trans (run_verifyEnd he r _ k)

section
variable {c : CurveId} {v : Curve c} {hash : Bytes → Bytes} {oid dig sig pub xy : Bytes}

theorem verifyResult_wrong_length (hl : sig.length ≠ sigLenOf c) : verifyResult v hash oid dig sig pub = .ok false := if_pos hl

theorem verifyResult_out_of_range (hl : sig.length = sigLenOf c) (hge : v.record.n ≤ (decSig c sig).2) :
    verifyResult v hash oid dig sig pub = .ok false := (if_neg (not_not.2 hl)).trans (if_pos hge)

theorem verifyResult_wrong_frame (hl : sig.length = sigLenOf c) (hlt : (decSig c sig).2 < v.record.n)
    (hframe : pub.length ≠ pubLenOf c ∨ pub.head? ≠ some pubTag) :
    verifyResult v hash oid dig sig pub = .error .invalidPoint :=
  (if_neg (not_not.2 hl)).trans ((if_neg (Nat.not_le.2 hlt)).trans (if_pos hframe))

/-- With every guard passed, the key decides, and then the reconstructed point (44_verify.md R122 to R126). -/
theorem verifyResult_passed (hl : sig.length = sigLenOf c) (hlt : (decSig c sig).2 < v.record.n)
    (hpub : (pubTag :: xy).length = pubLenOf c) :
    let q := decCoordinates c xy
    verifyResult v hash oid dig sig (pubTag :: xy) =
      if v.group.valid q.1 q.2 then
        verifyVerdict v hash oid dig (decSig c sig).1 (verifyPoint v (v.group.fromAffine q.1 q.2)
          (((decSig c sig).2 + leNat dig) % v.record.n) ((leNat (decSig c sig).1 + wOf c) % v.record.n))
      else .error .invalidPoint := by
  have hframe : ¬ ((pubTag :: xy).length ≠ pubLenOf c ∨ (pubTag :: xy).head? ≠ some pubTag) :=
    not_or.2 ⟨not_not.2 hpub, not_not.2 rfl⟩
  exact (if_neg (not_not.2 hl)).trans ((if_neg (Nat.not_le.2 hlt)).trans (if_neg hframe))

theorem verifyVerdict_rejected {s0 : Bytes} : verifyVerdict v hash oid dig s0 none = .error .invalidScalar := rfl

theorem verifyVerdict_infinity {s0 : Bytes} {R : Pt} (hR : R = .infinity) :
    verifyVerdict v hash oid dig s0 (some R) = .ok false := if_pos hR

/-- The comparison of S0 is made for a finite point (44_verify.md R125, R126). -/
theorem verifyVerdict_finite {s0 : Bytes} {R : Pt} (hR : R ≠ .infinity) :
    verifyVerdict v hash oid dig s0 (some R) = .ok (signatureMatches c (hash (hinS c oid (v.group.toAffine R).1 dig)) s0) := by
  have hcompare (h : Bytes) : (truncS0 c h == s0) = signatureMatches c h s0 := beq_eq_decide _ _
  exact (if_neg hR).trans (congrArg _ (hcompare _))

end

/-! ### The calls that read operands (44_verify.md R119) -/

/-- The scratch registers of VERIFY at its first call: the fields of the signature and of the key (44_verify.md R120 to R122). -/
def verifyRegisters (c : CurveId) (sig xy : Bytes) (r : Scratch) : Scratch :=
  { r with
    s0 := (decSig c sig).1, s1 := (decSig c sig).2, x := (decCoordinates c xy).1, y := (decCoordinates c xy).2 }

/-- The bytes that VERIFY reads when every guard passes: a signature with S1 in range, and a key that is the tag and the coordinates `xy`
(44_verify.md R120 to R122). -/
structure GuardsPassed (c : CurveId) (s : State) (sig xy : Bytes) : Prop where
  sigLen : s.sigLen.toNat = sigLenOf c
  sigBytes : readBuffer s .sig (sigLenOf c) = some sig
  range : (decSig c sig).2 < Config.order c
  pubLen : s.pubLen.toNat = pubLenOf c
  pubBytes : readBuffer s .pub (pubLenOf c) = some (pubTag :: xy)

theorem GuardsPassed.placed {c : CurveId} {s : State} {sig xy : Bytes} (h : GuardsPassed c s sig xy) (x : Site) (scr : Scratch)
    (p : Option PortReq) (e : Nat) : GuardsPassed c (placed s x scr p e) sig xy where
  sigLen := h.sigLen
  sigBytes := (readBuffer_placed ..).trans h.sigBytes
  range := h.range
  pubLen := h.pubLen
  pubBytes := (readBuffer_placed ..).trans h.pubBytes

section
variable {c : CurveId} {s : State} {oid dig sig xy : Bytes}

theorem pubLenOf_pos (c : CurveId) : 0 < pubLenOf c := by cases c <;> decide

/-- A framed key is read, the tag first (40_primitives.md R73). -/
theorem enterVerifyKey_framed (hl : s.pubLen.toNat = pubLenOf c) (hpub : readBuffer s .pub (pubLenOf c) = some (pubTag :: xy)) :
    enterVerifyKey c s = .next (sendRequest .vfFromAffine
      (curveGroupReq c 3 [.nat (decCoordinates c xy).1, .nat (decCoordinates c xy).2])
      (setScratch { s.scratch with x := (decCoordinates c xy).1, y := (decCoordinates c xy).2 } s)) := by
  rw [readBuffer, pubLenOf, Nat.add_comm] at hpub
  obtain ⟨htag, hrest⟩ := readBytes_cons_iff.1 hpub
  rw [enterVerifyKey, if_neg (not_not.2 hl), readBytes_one htag, withOperand_some, if_neg (not_not.2 rfl), hrest]
  rfl

/-- With every guard passed, CG_FROM_AFFINE is called with the coordinates of the key (44_verify.md R122). -/
theorem GuardsPassed.enterVerify (h : GuardsPassed c s sig xy) :
    enterVerify c s = .next (sendRequest .vfFromAffine
      (curveGroupReq c 3 [.nat (decCoordinates c xy).1, .nat (decCoordinates c xy).2])
      (setScratch (verifyRegisters c sig xy s.scratch) s)) := by
  rw [enterVerify_goes_on h.sigLen h.sigBytes h.range]
  refine enterVerifyKey_framed h.pubLen (Eq.trans ?_ h.pubBytes)
  exact readBuffer_congr (setScratch_mem _ s) (setScratch_marks _ s) _ _

theorem issueVerify_addE (hdig : readDigest s = some dig) :
    issueVerify c .vfAddE s = .next (sendRequest .vfAddE (curveGroupReq c 6 [.nat s.scratch.s1, .nat (leNat dig)])
      (setScratch { s.scratch with e := leNat dig, s0n := leNat s.scratch.s0 } s)) := by
  rw [issueVerify, hdig]
  rfl

theorem issueVerify_hash (ho : readOid s = some oid) (hdig : readDigest s = some dig) :
    issueVerify c .vfHash s = .next (sendRequest .vfHash (digestReq 0 [.bytes (hinS c oid s.scratch.x dig)]) s) := by
  rw [issueVerify, ho, hdig]
  rfl

end

/-! ### The calls of VERIFY -/

section
variable {s : State} {c : CurveId} (he : s.events = []) (hb : s.busy = true) (hc : curveOfCode s.ctrl.curve = some c)
include he hb hc

/-- R120 to R122: with every guard passed, CG_FROM_AFFINE gives the key Q, or rejects its coordinates. -/
theorem run_verify_fromAffine {sig xy : Bytes} {scr : Scratch} {e : Nat} {t : State} (hcmd : s.ctrl.cmd = 4)
    (hpass : GuardsPassed c s sig xy)
    (ht : (if (Config.curve c).group.valid (decCoordinates c xy).1 (decCoordinates c xy).2 then
        placed s .vfAddE { verifyRegisters c sig xy scr with
          ptQ := (Config.curve c).group.fromAffine (decCoordinates c xy).1 (decCoordinates c xy).2 } none (e + 2)
      else { raiseErr .invalidPoint s with epoch := e + 2 }) = t) (k : Nat) :
    Sys2Proof.core.run (k + 2) (placed s .entry scr none e) = Sys2Proof.core.run k t := by
  refine run_call he hb hc (i := .cgFromAffine c (decCoordinates c xy).1 (decCoordinates c xy).2) (y := .vfFromAffine)
    (scr' := verifyRegisters c sig xy scr) ?_ rfl nofun ?_ k
  · exact (enterCommand_verify (s := placed s .entry scr none (e + 1)) hcmd).trans (hpass.placed ..).enterVerify
  · exact (receive_outstanding rfl _).trans (congrArg Host.Outcome.next ((orRaise_ite _ _ _ _).trans ht))

/-- R123: the first scalar answer is u = S1 + e. -/
theorem run_verify_addE {dig : Bytes} {scr : Scratch} {e : Nat} (hdig : readDigest s = some dig) (k : Nat) :
    Sys2Proof.core.run (k + 2) (placed s .vfAddE scr none e) = Sys2Proof.core.run k
      (placed s .vfAddW { scr with e := leNat dig, s0n := leNat scr.s0, u := fnAdd c scr.s1 (leNat dig) } none (e + 2)) := by
  refine run_call he hb hc (i := .cgFnAdd c scr.s1 (leNat dig)) (y := .vfAddE)
    (scr' := { scr with e := leNat dig, s0n := leNat scr.s0 }) ?_ rfl nofun (receive_outstanding rfl _) k
  exact issueVerify_addE ((readDigest_placed ..).trans hdig)

/-- R123: the second scalar answer is v = S0 + W. -/
theorem run_verify_addW {scr : Scratch} {e : Nat} (k : Nat) :
    Sys2Proof.core.run (k + 2) (placed s .vfAddW scr none e) = Sys2Proof.core.run k
      (placed s .vfBase { scr with v := fnAdd c scr.s0n (wOf c) } none (e + 2)) :=
  run_call he hb hc (i := .cgFnAdd c scr.s0n (wOf c)) (y := .vfAddW) (scr' := scr) rfl rfl nofun (receive_outstanding rfl _) k

/-- R124: CG_BASE gives the base point. -/
theorem run_verify_base {scr : Scratch} {e : Nat} (k : Nat) :
    Sys2Proof.core.run (k + 2) (placed s .vfBase scr none e) = Sys2Proof.core.run k
      (placed s .vfMulQ { scr with ptG := (Config.curve c).group.base } none (e + 2)) :=
  run_call he hb hc (i := .cgBase c) (y := .vfBase) (scr' := scr) rfl rfl nofun (receive_outstanding rfl _) k

/-- R124: CG_MUL gives v·Q, and u = 0 skips the multiplication of G, or it rejects v. -/
theorem run_verify_mulQ {scr : Scratch} {e : Nat} {t : State}
    (ht : (if (Config.curve c).group.accepts scr.v then
        if scr.u = 0 then
          placed s .vfIsId { scr with
            ptB := (Config.curve c).group.mul scr.ptQ scr.v, ptR := (Config.curve c).group.mul scr.ptQ scr.v } none (e + 2)
        else placed s .vfMulG { scr with ptB := (Config.curve c).group.mul scr.ptQ scr.v } none (e + 2)
      else { raiseErr .invalidScalar s with epoch := e + 2 }) = t) (k : Nat) :
    Sys2Proof.core.run (k + 2) (placed s .vfMulQ scr none e) = Sys2Proof.core.run k t := by
  refine run_call he hb hc (i := .cgMul c scr.ptQ scr.v) (y := .vfMulQ) (scr' := scr) rfl rfl nofun ?_ k
  exact (receive_outstanding rfl _).trans (congrArg Host.Outcome.next ((orRaise_ite _ _ _ _).trans ht))

/-- R124: CG_MUL gives u·G, or rejects u. -/
theorem run_verify_mulG {scr : Scratch} {e : Nat} {t : State}
    (ht : (if (Config.curve c).group.accepts scr.u then
        placed s .vfAdd { scr with ptA := (Config.curve c).group.mul scr.ptG scr.u } none (e + 2)
      else { raiseErr .invalidScalar s with epoch := e + 2 }) = t) (k : Nat) :
    Sys2Proof.core.run (k + 2) (placed s .vfMulG scr none e) = Sys2Proof.core.run k t := by
  refine run_call he hb hc (i := .cgMul c scr.ptG scr.u) (y := .vfMulG) (scr' := scr) rfl rfl nofun ?_ k
  exact (receive_outstanding rfl _).trans (congrArg Host.Outcome.next ((orRaise_ite _ _ _ _).trans ht))

/-- R124: CG_ADD gives the sum of the two multiples. -/
theorem run_verify_add {scr : Scratch} {e : Nat} (k : Nat) :
    Sys2Proof.core.run (k + 2) (placed s .vfAdd scr none e) = Sys2Proof.core.run k
      (placed s .vfIsId { scr with ptR := (Config.curve c).group.add scr.ptA scr.ptB } none (e + 2)) :=
  run_call he hb hc (i := .cgAdd c scr.ptA scr.ptB) (y := .vfAdd) (scr' := scr) rfl rfl nofun (receive_outstanding rfl _) k

/-- R125: the infinite point is not verified. -/
theorem run_verify_isId {scr : Scratch} {e : Nat} {t : State}
    (ht : (if scr.ptR = .infinity then { finishCommand false s with epoch := e + 2 }
      else placed s .vfToAffine scr none (e + 2)) = t) (k : Nat) :
    Sys2Proof.core.run (k + 2) (placed s .vfIsId scr none e) = Sys2Proof.core.run k t := by
  refine run_call he hb hc (i := .cgIsId c scr.ptR) (y := .vfIsId) (scr' := scr) rfl rfl nofun ?_ k
  exact (receive_outstanding rfl _).trans (congrArg Host.Outcome.next ((ite_beq_infinity scr.ptR _ _).trans ht))

/-- R126: the x-coordinate of the point is kept. -/
theorem run_verify_toAffine {scr : Scratch} {e : Nat} (hR : scr.ptR ≠ .infinity) (k : Nat) :
    Sys2Proof.core.run (k + 2) (placed s .vfToAffine scr none e) = Sys2Proof.core.run k
      (placed s .vfHash { scr with x := ((Config.curve c).group.toAffine scr.ptR).1 } none (e + 2)) :=
  run_call he hb hc (i := .cgToAffine c scr.ptR) (y := .vfToAffine) (scr' := scr) rfl rfl nofun
    (execCgToAffine_received rfl hR) k

/-- R126: the truncated hash is compared with S0, and the command completes. -/
theorem run_verify_hash {oid dig : Bytes} {scr : Scratch} {e : Nat} (ho : readOid s = some oid) (hdig : readDigest s = some dig)
    (k : Nat) :
    Sys2Proof.core.run (k + 2) (placed s .vfHash scr none e) = Sys2Proof.core.run k
      { finishCommand (signatureMatches c (Config.hash (hinS c oid scr.x dig)) scr.s0) s with epoch := e + 2 } := by
  refine run_call he hb hc (i := .deHash (hinS c oid scr.x dig)) (y := .vfHash) (scr' := scr) ?_ rfl nofun ?_ k
  · exact issueVerify_hash ((readOid_placed ..).trans ho) ((readDigest_placed ..).trans hdig)
  · exact (receive_outstanding rfl _).trans (withCurve_some (by exact hc) _)

/-! ### Chains of calls -/

/-- R123, R124: the two scalars and the base point. -/
theorem run_verify_scalars {dig : Bytes} {scr : Scratch} {e : Nat} (hdig : readDigest s = some dig) (k : Nat) :
    Sys2Proof.core.run (k + 6) (placed s .vfAddE scr none e) = Sys2Proof.core.run k
      (placed s .vfMulQ { scr with
        e := leNat dig, s0n := leNat scr.s0, u := fnAdd c scr.s1 (leNat dig), v := fnAdd c (leNat scr.s0) (wOf c)
        ptG := (Config.curve c).group.base } none (e + 6)) :=
  calc Sys2Proof.core.run (k + 6) (placed s .vfAddE scr none e)
      = _ := run_verify_addE he hb hc hdig (k + 4)
    _ = _ := run_verify_addW he hb hc (k + 2)
    _ = _ := run_verify_base he hb hc k

/-- R125, R126: the reconstructed point decides. -/
theorem run_verify_verdict {oid dig : Bytes} {scr : Scratch} {e : Nat} (ho : readOid s = some oid) (hdig : readDigest s = some dig)
    (k : Nat) :
    ∃ e', Sys2Proof.core.run (k + 6) (placed s .vfIsId scr none e) = .next
      { verifyEnd s (verifyVerdict (Config.curve c) Config.hash oid dig scr.s0 (some scr.ptR)) with epoch := e' } := by
  by_cases hR : scr.ptR = .infinity
  case pos =>
    rw [verifyVerdict_infinity hR, run_verify_isId he hb hc (if_pos hR) (k + 4)]
    exact ⟨_, run_verifyEnd he (.ok _) _ (k + 4)⟩
  rw [verifyVerdict_finite hR]
  refine ⟨e + 6, ?_⟩
  calc Sys2Proof.core.run (k + 6) (placed s .vfIsId scr none e)
      = _ := run_verify_isId he hb hc (if_neg hR) (k + 4)
    _ = _ := run_verify_toAffine he hb hc hR (k + 2)
    _ = _ := run_verify_hash he hb hc ho hdig k
    _ = _ := run_verifyEnd he (.ok _) (e + 6) k

/-- R124 to R126: with v·Q in its register, u ≠ 0 gives the sum u·G + v·Q, which decides, or u is rejected. -/
theorem run_verify_sum {oid dig : Bytes} {scr : Scratch} {e : Nat} (ho : readOid s = some oid) (hdig : readDigest s = some dig)
    (k : Nat) :
    ∃ e', Sys2Proof.core.run (k + 10) (placed s .vfMulG scr none e) = .next
      { verifyEnd s (verifyVerdict (Config.curve c) Config.hash oid dig scr.s0
        (if (Config.curve c).group.accepts scr.u then
          some ((Config.curve c).group.add ((Config.curve c).group.mul scr.ptG scr.u) scr.ptB) else none)) with epoch := e' } := by
  by_cases hu : (Config.curve c).group.accepts scr.u = true
  case neg =>
    rw [if_neg hu, verifyVerdict_rejected, run_verify_mulG he hb hc (if_neg hu) (k + 8)]
    exact ⟨_, run_verifyEnd he (.error _) _ (k + 8)⟩
  rw [if_pos hu, run_verify_mulG he hb hc (if_pos hu) (k + 8), run_verify_add he hb hc (k + 6)]
  exact run_verify_verdict he hb hc ho hdig k

/-- R124 to R126: with the base point in its register, the point u·G + v·Q is reconstructed and decides. -/
theorem run_verify_point {oid dig : Bytes} {scr : Scratch} {e : Nat} (hG : scr.ptG = (Config.curve c).group.base)
    (ho : readOid s = some oid) (hdig : readDigest s = some dig) (k : Nat) :
    ∃ e', Sys2Proof.core.run (k + 12) (placed s .vfMulQ scr none e) = .next
      { verifyEnd s (verifyVerdict (Config.curve c) Config.hash oid dig scr.s0
        (verifyPoint (Config.curve c) scr.ptQ scr.u scr.v)) with epoch := e' } := by
  rw [verifyPoint, ← hG]
  by_cases hv : (Config.curve c).group.accepts scr.v = true
  case neg =>
    rw [if_neg hv, verifyVerdict_rejected, run_verify_mulQ he hb hc (if_neg hv) (k + 10)]
    exact ⟨_, run_verifyEnd he (.error _) _ (k + 10)⟩
  rw [if_pos hv]
  by_cases hu : scr.u = 0
  case pos =>
    rw [if_pos hu, run_verify_mulQ he hb hc ((if_pos hv).trans (if_pos hu)) (k + 10)]
    exact run_verify_verdict he hb hc ho hdig (k + 4)
  rw [if_neg hu, run_verify_mulQ he hb hc ((if_pos hv).trans (if_neg hu)) (k + 10)]
  exact run_verify_sum he hb hc ho hdig k

/-- R122 to R126: with every guard passed, VERIFY ends as `verifyResult` says. -/
theorem run_verify_passed {oid dig sig xy : Bytes} {scr : Scratch} {e : Nat} (hcmd : s.ctrl.cmd = 4)
    (hpass : GuardsPassed c s sig xy) (ho : readOid s = some oid) (hdig : readDigest s = some dig) (k : Nat) :
    ∃ e', Sys2Proof.core.run (k + 20) (placed s .entry scr none e) = .next
      { verifyEnd s (verifyResult (Config.curve c) Config.hash oid dig sig (pubTag :: xy)) with epoch := e' } := by
  rw [verifyResult_passed (readBytes_length hpass.sigBytes) hpass.range (readBytes_length hpass.pubBytes)]
  by_cases hvalid : (Config.curve c).group.valid (decCoordinates c xy).1 (decCoordinates c xy).2 = true
  case neg =>
    rw [if_neg hvalid, run_verify_fromAffine he hb hc hcmd hpass (if_neg hvalid) (k + 18)]
    exact ⟨_, run_verifyEnd he (.error _) _ (k + 18)⟩
  rw [if_pos hvalid, run_verify_fromAffine he hb hc hcmd hpass (if_pos hvalid) (k + 18),
    run_verify_scalars he hb hc hdig (k + 12)]
  exact run_verify_point he hb hc rfl ho hdig k

end

/-- Settles O42: a guard that fails decides at the first step, as `verifyGuardsInOrder` says; otherwise the ten calls are run. -/
theorem verifyRunsToItsResult : Obligations.VerifyRunsToItsResult := by
  intro s c oid dig sig pub hphase hs hp he hcmd hc ho hdig hsig hpub
  have hb : s.busy = true := (busy_iff s).2 (by rw [hphase]; decide)
  have htick : { s with events := [], epoch := s.epoch + 1 } = tick s :=
    (controllerNext_takeEvent (.inl ⟨he, rfl⟩)).2.symm.trans (takeEvent_nil he)
  have hguards := verifyGuardsInOrder s c [] hphase hs hp (.inl ⟨he, rfl⟩) hcmd hc
  rw [htick] at hguards
  obtain ⟨hwrong, hguards⟩ := hguards
  have hsigLen : sig.length = s.sigLen.toNat := readBytes_length hsig
  have hpubLen : pub.length = s.pubLen.toNat := readBytes_length hpub
  by_cases hl : s.sigLen.toNat = sigLenOf c
  case neg =>
    rw [verifyResult_wrong_length (by rwa [hsigLen])]
    exact ⟨_, run_verify_decided he (r := .ok false) (hwrong hl) 19⟩
  have hsigLen := hsigLen.trans hl
  rw [hl] at hsig
  obtain ⟨hrange, hlength, htag⟩ := hguards sig hl hsig
  by_cases hge : Config.order c ≤ (decSig c sig).2
  case pos =>
    rw [verifyResult_out_of_range hsigLen hge]
    exact ⟨_, run_verify_decided he (r := .ok false) (hrange hge) 19⟩
  have hlt : (decSig c sig).2 < Config.order c := Nat.not_le.1 hge
  by_cases hk : s.pubLen.toNat = pubLenOf c
  case neg =>
    rw [verifyResult_wrong_frame hsigLen hlt (.inl (by rwa [hpubLen]))]
    exact ⟨_, run_verify_decided he (r := .error _) (hlength hlt hk) 19⟩
  rw [hk] at hpub hpubLen
  obtain ⟨tag, xy, rfl⟩ := List.exists_cons_of_length_pos (hpubLen.symm ▸ pubLenOf_pos c)
  by_cases ht : tag = pubTag
  case neg =>
    have hread : readMarked s 0x300 = some tag := ((readBytes_eq_some_iff _ _ _ _).1 hpub).2 0 (pubLenOf_pos c)
    have hhead : (tag :: xy).head? ≠ some pubTag := mt Option.some.inj ht
    rw [verifyResult_wrong_frame hsigLen hlt (.inr hhead)]
    exact ⟨_, run_verify_decided he (r := .error _) (htag hlt hk tag hread ht) 19⟩
  subst ht
  have hrun := run_verify_passed he hb hc (scr := s.scratch) (e := s.epoch) hcmd ⟨hl, hsig, hlt, hk, hpub⟩ ho hdig 0
  rwa [placed_self hs hp] at hrun

end Sys2Proof.Machine
end

section
/-! PROOFS (45_control.md R128 to R134). The host words that start no command, CFG, ABORT and the DONE clear, and when a running command
writes its outputs. -/

namespace Sys2Proof.Machine

open Sys2Proof

/-! ### The outputs of a running command (R134, 60_exceptions.md R146) -/

/-- `t` holds every output as `s` does: the buffers, SIG_LEN and PUB_LEN. -/
structure SameOutputs (s t : State) : Prop where
  mem : t.mem = s.mem
  sigLen : t.sigLen = s.sigLen
  pubLen : t.pubLen = s.pubLen

theorem SameOperands.sameOutputs {s t : State} (h : SameOperands s t) : SameOutputs s t := ⟨h.mem, h.sigLen, h.pubLen⟩

/-- ABORT discards the command and none of its outputs is written (R132). -/
theorem sameOutputs_abort (ie : Bool) (s : State) : SameOutputs s (abortCommand (storeIe ie s)) := ⟨rfl, rfl, rfl⟩

/-- A command's end writes no output, or completes without an error. -/
theorem CommandEnd.sameOutputs_or_completed {s t : State} (h : CommandEnd s t) :
    SameOutputs s t ∨ (t.err = .none ∧ t.valid = false) := by
  rcases h.outcome with ⟨hmem, -, hsigLen, hpubLen, -⟩ | ⟨_, _, -, -, herr, hvalid⟩
  · exact .inl ⟨hmem, hsigLen, hpubLen⟩
  · exact .inr ⟨herr, hvalid⟩

/-- Of the steps from a busy state but reset, the ends of a command alone touch an output: where the block stays busy the operands,
the outputs among them, are locked. -/
theorem StepCase.sameOutputs_or_commandEnd {s t : State} (h : StepCase s t) (hb : s.busy = true)
    (hr : s.events.head? ≠ some .reset) : SameOutputs (takeEvent s) t ∨ CommandEnd (takeEvent s) t := by
  by_cases ht : t.busy = true
  case pos =>
    obtain ⟨hmem, hsigLen, hpubLen⟩ := (h.sameOperands hb ht).sameOutputs
    exact .inl ⟨by simpa using hmem, by simpa using hsigLen, by simpa using hpubLen⟩
  cases h with
  | controller _ _ hc => exact hc.imp (fun hm => hm.sameOperands.sameOutputs) id
  | aborted ie => exact .inl (sameOutputs_abort ie (takeEvent s))
  | reset he => exact absurd he hr
  | start cmd f hidle | configure cmd f hidle => rw [hb] at hidle; cases hidle
  | stutter | took | busyWrite | cleared | responded | written => exact absurd (by simpa using hb) ht

/-- Settles O56: an output changes in a command's end alone, and there only in a completion. -/
theorem outputsAppearOnlyAtCompletion : Obligations.OutputsAppearOnlyAtCompletion := by
  intro s t hb hs hr hchange
  have hchanged : ¬ SameOutputs (takeEvent s) t := by
    rintro ⟨hmem, hsigLen, hpubLen⟩
    simp [hmem, hsigLen, hpubLen] at hchange
  have hend : CommandEnd (takeEvent s) t := ((step_cases hs).sameOutputs_or_commandEnd hb hr).resolve_left hchanged
  obtain ⟨herr, hvalid⟩ := hend.sameOutputs_or_completed.resolve_left hchanged
  exact ⟨(busy_eq_false_iff t).2 hend.phase, hend.done, herr, hvalid⟩

/-! ### ABORT (R131, R132) -/

/-- ABORT while busy stores IE before it ends the command. -/
theorem execAbort_busy {s : State} (ie : Bool) (hb : s.busy = true) : execAbort ie s = .next (abortCommand (storeIe ie s)) := by
  rw [execAbort, if_pos hb]

/-- Settles O14: the end of the command by ABORT, field by field. -/
theorem abortEndsRunningCommand : Obligations.AbortEndsRunningCommand := fun _ ie hb => execAbort_busy ie hb

/-! ### The DONE clear (R133) -/

/-- Clearing a DONE that is 0 has no effect. -/
theorem clearDone_eq_self {s : State} (h : s.done = false) : clearDone s = s := by rw [clearDone, ← h]

/-- Settles O15: a STATUS word clears DONE if its bit 1 is set (`performs_statusWord`), and while busy DONE is 0. -/
theorem doneClearKeepsTheRest : Obligations.DoneClearKeepsTheRest := by
  intro s v es
  refine ⟨rfl, irq_of_not_done rfl, fun hb hok => ?_, fun he => ?_⟩
  · obtain ⟨hdone, -, -⟩ := hok.busy hb
    exact congrArg Host.Outcome.next (clearDone_eq_self hdone)
  · have htake : takeEvent s = { s with events := es, epoch := s.epoch + 1, response := .written } := by simp [takeEvent, he]
    rw [step_eq_performs (fetch_statusWrite he), performs_statusWord, htake]
    cases v.getLsbD 1 with
    | true => simp [clearDone]
    | false => simp

/-! ### CFG (R128) -/

/-- CFG while idle stores the fields. -/
theorem execCfg_idle {s : State} (cmd : BitVec 3) (f : CtrlFields) (hb : s.busy = false) :
    execCfg cmd f s = .next (storeFields cmd f s) := by
  rw [execCfg, hb, if_neg Bool.false_ne_true]

/-- Settles O12: CFG while idle is no START, and stores the fields. -/
theorem cfgStoresFields : Obligations.CfgStoresFields := fun _ cmd f hb => execCfg_idle cmd f hb

end Sys2Proof.Machine
end

section
/-! PROOFS (70_reset_and_hazards.md R157, R158). The state after reset: every register reads its reset value, and without marks no buffer byte
is read, whatever the memory lists. -/

namespace Sys2Proof.Machine

open Sys2Proof

/-- With every mark cleared no byte counts as written, those that reset keeps in the memory among them (R157, 10_state.md R32). -/
theorem readMarked_of_no_marks {s : State} (h : s.marks = []) (a : Nat) : readMarked s a = none := by
  rw [readMarked, h, isMarked, if_neg Bool.false_ne_true]

/-- Settles O25: nine registers word by word, IRQ by DONE, the buffers by their marks, the pad whatever the state (`busByte_pad`), and the
rest as `State.reset` lists it. -/
theorem resetValues : Obligations.ResetValues := by
  have hregs : ∀ o ∈ [0x004, 0x008, 0x00C, 0x010, 0x014, 0x018, 0x01C, 0x020, 0x024], readRegister State.reset o = 0 := by decide
  have hpads : ∀ o ∈ [0x381, 0x382, 0x383], inPad o = true := by decide
  exact ⟨hregs, rfl, irq_of_not_done rfl, rfl, rfl, rfl, readMarked_of_no_marks rfl, fun o ho => busByte_pad _ (hpads o ho)⟩

end Sys2Proof.Machine
end
